-- ==== Sys2Proof/Word.lean ====
section
/-! DEFINITION. The word types of the block and their plainest arithmetic (00_scope.md R7, 30_encoding.md R44). -/

namespace Sys2Proof

/-- A byte, an unsigned 8-bit value 0..255 (R7); a channel byte of a colour (R47). -/
abbrev Byte := BitVec 8

/-- The packed form of a pulse code for TICK_BITS = 15 (R44). -/
abbrev PulseWord := BitVec 32

end Sys2Proof
end

