-- ==== Sys2Proof/Config.lean ====
section
/-! DEFINITION. What an implementation fixes (00_scope.md R5) and the free values the spec leaves open (93_implementation_defined.md
part 1). A free value is an opaque constant: nothing in Lean can say what it is, so a claim holds for every value of it. -/

namespace Sys2Proof

/-- PERIPH_ERR, the payload of PeripheralError: an opaque value passed on unchanged (R5, R92, D28). DESIGN CHOICE (entry 14): countably
many values, told apart by a tag that no operation reads. -/
structure PeriphErr where
  tag : Nat
  deriving DecidableEq, Repr

/-- The identifier of the block (R1, D1). -/
def Config.blockName : String := "ws2812-pulse-encoder/ehc-core"

/-- TICK_BITS, the width of a duration field (R5, R43, D2). -/
abbrev Config.tickBits : Nat := 15

/-- TICK_MAX = 2^TICK_BITS - 1 (R5, R43). -/
def Config.tickMax : Nat := 2 ^ Config.tickBits - 1

/-- Nanoseconds in a second, the divisor of the conversion to ticks (R57). -/
abbrev Config.nsPerSecond : Nat := 1000000000

/-- Half the divisor: it makes the floor round half up (R57, D3). -/
abbrev Config.halfSecondNs : Nat := 500000000

/-- BUFFER_LIMIT: the largest CAPACITY the platform can provide, `none` for infinity (R5, R89, D10, U9). OPEN, so free (entry 16). -/
opaque Config.bufferLimit : Option Nat

/-- CONSTRUCT_ERR_CHOICE: which error the k-th draw makes NEW report when both apply, `true` for AllocationFailed (R5, R89, R96, D11,
U8). OPEN, so free (entry 17). -/
opaque Config.constructErrChoice : Nat → Bool

/-- What the peripheral reports at the k-th draw: `none` for Complete, `some e` for Error(e) (R78, D28, U5). Free (entry 18). -/
opaque Config.peripheralReport : Nat → Option PeriphErr

/-- How many ticks of the rest of the waveform reached the wire when the k-th draw is a hardware error (R97, U7). Free (entry 20). -/
opaque Config.errorWireTicks : Nat → Nat

/-- The level the pin is left at when the k-th draw is a hardware error that cut the output short, `true` for High (R97, U7). Free (entry 25). -/
opaque Config.errorPinLevel : Nat → Bool

/-- The handle the k-th draw proposes for a transmission (R77, D20). Free (entry 19). -/
opaque Config.handleDraw : Nat → Nat

end Sys2Proof
end

