-- ==== Sys2Proof/Syntax.lean ====
section
/-! DEFINITION. Operand types and the instructions: the 16 operations of 30_encoding.md R52 and the 3 symbols of R45 and R46, one constructor
per row of spec/opcode_table.json. -/

namespace Sys2Proof

/-- A level, one bit: High = 1, Low = 0 (R7, R43, D5). -/
inductive Level where
  | low
  | high
  deriving DecidableEq, Repr

/-- A pulse code `(l0, d0, l1, d1)`: level and duration in ticks of segment 0, then of segment 1 (R43). -/
structure PulseCode where
  l0 : Level
  d0 : Nat
  l1 : Level
  d1 : Nat
  deriving DecidableEq, Repr

/-- A colour value: the channel bytes in the caller's field order, red, green, blue, and white when there are four (R47). -/
abbrev Color := List Byte

/-- `protocol_spec = {t0h, t0l, t1h, t1l, reset}`, nanoseconds (R59). -/
structure ProtocolSpec where
  t0h : Nat
  t0l : Nat
  t1h : Nat
  t1l : Nat
  reset : Nat
  deriving DecidableEq, Repr

/-- `peripheral_channel`: opaque, and carries the clock rate in Hz (R89, 90_conflicts.md C8). The tag tells channels apart (entry 14). -/
structure Channel where
  tag : Nat
  clockRate : Nat
  deriving DecidableEq, Repr

/-- `pin`: opaque, handed on untouched (R89, entry 14). -/
structure Pin where
  tag : Nat
  deriving DecidableEq, Repr

/-- `callback_or_waker`: opaque, identifies the task to resume (R80, entry 14). -/
structure Waker where
  tag : Nat
  deriving DecidableEq, Repr

/-- `transmission_handle`: opaque, names one transmission (R77, entry 14). -/
structure Handle where
  tag : Nat
  deriving DecidableEq, Repr

/-- The operations (R52) and the symbols (R45, R46). -/
inductive Instr where
  /-- op 0, R89 -/
  | new (channel : Channel) (pin : Pin) (spec : ProtocolSpec) (maxLedCount : Nat) (order : List Nat)
  /-- op 1, R59 -/
  | computeTimings (clockRate : Nat) (spec : ProtocolSpec)
  /-- op 2, R63 -/
  | encodeBit (bit : Bool)
  /-- op 3, R64 -/
  | encodeByte (b : Byte)
  /-- op 4, R65 -/
  | encodeColor (c : Color)
  /-- op 5, BEGIN, R69 -/
  | beginBuf
  /-- op 6, R70 -/
  | push (p : PulseCode)
  /-- op 7, R71 -/
  | finish
  /-- op 8, R76 -/
  | encodePass (colors : List Color)
  /-- op 9, R82 -/
  | writeBlocking (colors : List Color)
  /-- op 10, R83 -/
  | writeSuspending (colors : List Color) (waker : Waker)
  /-- op 11, R77 -/
  | submit (frame : List PulseCode)
  /-- op 12, R79 -/
  | pollComplete (handle : Handle)
  /-- op 13, R80 -/
  | onComplete (handle : Handle) (waker : Waker)
  /-- op 14, R78 -/
  | periphDone
  /-- op 15, R81 -/
  | resume
  /-- The symbol of a data bit 0, `(High, high, Low, low)`, R45. -/
  | code0 (high low : Nat)
  /-- The symbol of a data bit 1, `(High, high, Low, low)`, R45. -/
  | code1 (high low : Nat)
  /-- The end symbol `(Low, ticks, Low, 0)`, R46. -/
  | resetCode (ticks : Nat)
  deriving DecidableEq, Repr

end Sys2Proof
end

