-- ==== Sys2Proof/WellFormed.lean ====
section
/-! DEFINITION. Which operand values are values of their types at all (30_encoding.md R43, R47, R48, R54). -/

namespace Sys2Proof

/-- A pulse code's durations fit the tick field: `0 <= d <= TICK_MAX` (R43). -/
def PulseCode.legal (p : PulseCode) : Bool :=
  decide (p.d0 ≤ Config.tickMax) && decide (p.d1 ≤ Config.tickMax)

/-- A colour value has 3 or 4 channel bytes (R47). -/
def colorLegal (c : Color) : Bool :=
  c.length == 3 || c.length == 4

/-- A CHANNEL_ORDER is a permutation of `[0,1,2]` or of `[0,1,2,3]` (R48): as many entries as indices, and every index among them. -/
def orderLegal (o : List Nat) : Bool :=
  (o.length == 3 && [0, 1, 2].all o.contains) || (o.length == 4 && [0, 1, 2, 3].all o.contains)

/-- A computed tick count a symbol may carry: at least 1 and at most TICK_MAX (R54, R60). -/
def ticksLegal (t : Nat) : Bool :=
  decide (1 ≤ t) && decide (t ≤ Config.tickMax)

/-- The operands of an instruction are values of their types. A natural number, a bit, a byte, a handle and a waker always are. -/
def Instr.wellFormed : Instr → Bool
  | .new _ _ _ _ order => orderLegal order
  | .computeTimings _ _ => true
  | .encodeBit _ => true
  | .encodeByte _ => true
  | .encodeColor c => colorLegal c
  | .beginBuf => true
  | .push p => p.legal
  | .finish => true
  | .encodePass colors => colors.all colorLegal
  | .writeBlocking colors => colors.all colorLegal
  | .writeSuspending colors _ => colors.all colorLegal
  | .submit frame => frame.all PulseCode.legal
  | .pollComplete _ => true
  | .onComplete _ _ => true
  | .periphDone => true
  | .resume => true
  | .code0 high low => ticksLegal high && ticksLegal low
  | .code1 high low => ticksLegal high && ticksLegal low
  | .resetCode ticks => ticksLegal ticks

end Sys2Proof
end

