-- ==== Sys2Proof/Decode.lean ====
section
/-! DEFINITION. The decoder, total on any bytes and rejecting by name, and the encoder. The operation numbers are 30_encoding.md R52's, the
packed pulse word is R44's, the channel orders are R48's table; the bytes of the operands are the model's own (entry 2). -/

namespace Sys2Proof

/-- Why bytes encode no instruction. -/
inductive DecodeError where
  /-- The bytes end inside an operation. -/
  | truncated
  /-- The first byte of an operation is above 0x0F: `op[3:0]` has 16 values (R52, R54). -/
  | reservedOpcode
  /-- A number has a leading group of zeros (entry 2). -/
  | nonMinimalNumber
  /-- The operand of ENCODE_BIT is not 0 or 1 (R63). -/
  | reservedBit
  /-- A colour's width selector names neither 3 nor 4 channels (R47). -/
  | reservedColorWidth
  /-- The index is beyond the 30 channel orders (R48). -/
  | reservedChannelOrder
  /-- A 32-bit word that is neither a data symbol nor the end symbol (R45, R46, R54). -/
  | notASymbol
  /-- A symbol with a duration 0 or above TICK_MAX where R54 calls it illegal. -/
  | illegalDuration
  deriving DecidableEq, Repr

/-- What is left to read. -/
abbrev Parsed (α : Type) := Except DecodeError (α × List Byte)

/-- Reads on with `next` from where `first` ended; an error ends the reading. -/
def parseThen {α β : Type} (first : Parsed α) (next : α → List Byte → Parsed β) : Parsed β :=
  match first with
  | .error e => .error e
  | .ok (a, bs) => next a bs

/-! ### Numbers -/

/-- The `k` low bytes of `n`, least significant first. -/
def bytesOfNat : Nat → Nat → List Byte
  | 0, _ => []
  | k + 1, n => BitVec.ofNat 8 n :: bytesOfNat k (n / 256)

/-- The number whose bytes these are, least significant first. -/
def natOfBytes : List Byte → Nat
  | [] => 0
  | b :: bs => b.toNat + 256 * natOfBytes bs

/-- A number in groups of 7 bits, least significant group first, bit 7 set on every group but the last (entry 2); `fuel` bounds the
number of groups. -/
def encodeNatFuel : Nat → Nat → List Byte
  | 0, n => [BitVec.ofNat 8 n]
  | fuel + 1, n =>
    if n < 128 then [BitVec.ofNat 8 n] else BitVec.ofNat 8 (128 + n % 128) :: encodeNatFuel fuel (n / 128)

/-- The bytes of a number: as many groups as it has, a single zero byte for 0 (entry 2). -/
def encodeNat (n : Nat) : List Byte := encodeNatFuel (Nat.log2 n + 1) n

/-- Reads a number; a leading zero group is rejected, so that every number has one form (entry 2). -/
def decodeNat : List Byte → Parsed Nat
  | [] => .error .truncated
  | b :: bs =>
    if b.toNat < 128 then .ok (b.toNat, bs)
    else
      parseThen (decodeNat bs) fun n bs =>
      if n = 0 then .error .nonMinimalNumber else .ok (b.toNat - 128 + 128 * n, bs)

/-- Reads one byte. -/
def decodeByte : List Byte → Parsed Byte
  | [] => .error .truncated
  | b :: bs => .ok (b, bs)

/-- Reads `n` values one after the other. -/
def decodeMany {α : Type} (item : List Byte → Parsed α) : Nat → List Byte → Parsed (List α)
  | 0, bs => .ok ([], bs)
  | n + 1, bs =>
    parseThen (item bs) fun a bs =>
    parseThen (decodeMany item n bs) fun as bs =>
    .ok (a :: as, bs)

/-- A list: its length, then its elements (entry 2). -/
def encodeList {α : Type} (item : α → List Byte) (as : List α) : List Byte :=
  encodeNat as.length ++ as.flatMap item

def decodeList {α : Type} (item : List Byte → Parsed α) (bs : List Byte) : Parsed (List α) :=
  parseThen (decodeNat bs) fun n bs => decodeMany item n bs

/-! ### Pulse codes, colours and channel orders -/

/-- The bit of a level: High = 1, Low = 0 (R7). -/
def Level.bit : Level → Nat
  | .low => 0
  | .high => 1

def levelOfBool : Bool → Level
  | false => .low
  | true => .high

/-- `w = {l1, d1[14:0], l0, d0[14:0]}` (R44). -/
def packPulse (p : PulseCode) : PulseWord :=
  BitVec.ofNat 32 (p.d0 + 2 ^ 15 * p.l0.bit + 2 ^ 16 * p.d1 + 2 ^ 31 * p.l1.bit)

/-- `w[14:0] = d0`, `w[15] = l0`, `w[30:16] = d1`, `w[31] = l1` (R44). -/
def unpackPulse (w : PulseWord) : PulseCode :=
  { l0 := levelOfBool (w.getLsbD 15)
    d0 := w.toNat % 2 ^ 15
    l1 := levelOfBool (w.getLsbD 31)
    d1 := w.toNat / 2 ^ 16 % 2 ^ 15 }

/-- A pulse code as its packed word's four bytes, least significant first (R44, entry 2). -/
def encodePulse (p : PulseCode) : List Byte := bytesOfNat 4 (packPulse p).toNat

def decodePulse : List Byte → Parsed PulseCode
  | b0 :: b1 :: b2 :: b3 :: rest => .ok (unpackPulse (BitVec.ofNat 32 (natOfBytes [b0, b1, b2, b3])), rest)
  | _ => .error .truncated

/-- A colour: 0 for three channel bytes, 1 for four, then the bytes in the tuple's field order (R47, entry 2). -/
def encodeColorOperand (c : Color) : List Byte := BitVec.ofNat 8 (c.length - 3) :: c

def decodeColorOperand : List Byte → Parsed Color
  | [] => .error .truncated
  | b :: bs =>
    if b.toNat = 0 then decodeMany decodeByte 3 bs
    else if b.toNat = 1 then decodeMany decodeByte 4 bs
    else .error .reservedColorWidth

/-- The legal channel orders, in the order of R48's table. -/
def channelOrders : List (List Nat) :=
  [[0, 1, 2], [0, 2, 1], [1, 0, 2], [1, 2, 0], [2, 0, 1], [2, 1, 0]] ++
  [[0, 1, 2, 3], [0, 1, 3, 2], [0, 2, 1, 3], [0, 2, 3, 1], [0, 3, 1, 2], [0, 3, 2, 1]] ++
  [[1, 0, 2, 3], [1, 0, 3, 2], [1, 2, 0, 3], [1, 2, 3, 0], [1, 3, 0, 2], [1, 3, 2, 0]] ++
  [[2, 0, 1, 3], [2, 0, 3, 1], [2, 1, 0, 3], [2, 1, 3, 0], [2, 3, 0, 1], [2, 3, 1, 0]] ++
  [[3, 0, 1, 2], [3, 0, 2, 1], [3, 1, 0, 2], [3, 1, 2, 0], [3, 2, 0, 1], [3, 2, 1, 0]]

/-- A channel order as its index in R48's table (entry 2). -/
def encodeOrder (o : List Nat) : List Byte := [BitVec.ofNat 8 (channelOrders.idxOf o)]

def decodeOrder : List Byte → Parsed (List Nat)
  | [] => .error .truncated
  | b :: bs =>
    match channelOrders[b.toNat]? with
    | some o => .ok (o, bs)
    | none => .error .reservedChannelOrder

def encodeBitOperand (b : Bool) : List Byte := [BitVec.ofNat 8 b.toNat]

def decodeBitOperand : List Byte → Parsed Bool
  | [] => .error .truncated
  | b :: bs =>
    if b.toNat = 0 then .ok (false, bs) else if b.toNat = 1 then .ok (true, bs) else .error .reservedBit

def encodeSpec (p : ProtocolSpec) : List Byte :=
  encodeNat p.t0h ++ encodeNat p.t0l ++ encodeNat p.t1h ++ encodeNat p.t1l ++ encodeNat p.reset

def decodeSpec (bs : List Byte) : Parsed ProtocolSpec :=
  parseThen (decodeNat bs) fun t0h bs =>
  parseThen (decodeNat bs) fun t0l bs =>
  parseThen (decodeNat bs) fun t1h bs =>
  parseThen (decodeNat bs) fun t1l bs =>
  parseThen (decodeNat bs) fun reset bs =>
  .ok ({ t0h := t0h, t0l := t0l, t1h := t1h, t1l := t1l, reset := reset }, bs)

def encodeChannel (c : Channel) : List Byte := encodeNat c.tag ++ encodeNat c.clockRate

def decodeChannel (bs : List Byte) : Parsed Channel :=
  parseThen (decodeNat bs) fun tag bs =>
  parseThen (decodeNat bs) fun clockRate bs =>
  .ok ({ tag := tag, clockRate := clockRate }, bs)

def encodeColorList (cs : List Color) : List Byte := encodeList encodeColorOperand cs

def decodeColorList (bs : List Byte) : Parsed (List Color) := decodeList decodeColorOperand bs

/-! ### Operations -/

/-- Reads the operands of operation `op`, in the source's order (R52, R53). -/
def decodeOperands : Nat → List Byte → Parsed Instr
  | 0, bs =>
    parseThen (decodeChannel bs) fun channel bs =>
    parseThen (decodeNat bs) fun pin bs =>
    parseThen (decodeSpec bs) fun spec bs =>
    parseThen (decodeNat bs) fun leds bs =>
    parseThen (decodeOrder bs) fun order bs =>
    .ok (.new channel { tag := pin } spec leds order, bs)
  | 1, bs =>
    parseThen (decodeNat bs) fun clockRate bs =>
    parseThen (decodeSpec bs) fun spec bs =>
    .ok (.computeTimings clockRate spec, bs)
  | 2, bs =>
    parseThen (decodeBitOperand bs) fun b bs =>
    .ok (.encodeBit b, bs)
  | 3, bs =>
    parseThen (decodeByte bs) fun b bs =>
    .ok (.encodeByte b, bs)
  | 4, bs =>
    parseThen (decodeColorOperand bs) fun c bs =>
    .ok (.encodeColor c, bs)
  | 5, bs => .ok (.beginBuf, bs)
  | 6, bs =>
    parseThen (decodePulse bs) fun p bs =>
    .ok (.push p, bs)
  | 7, bs => .ok (.finish, bs)
  | 8, bs =>
    parseThen (decodeColorList bs) fun cs bs =>
    .ok (.encodePass cs, bs)
  | 9, bs =>
    parseThen (decodeColorList bs) fun cs bs =>
    .ok (.writeBlocking cs, bs)
  | 10, bs =>
    parseThen (decodeColorList bs) fun cs bs =>
    parseThen (decodeNat bs) fun w bs =>
    .ok (.writeSuspending cs { tag := w }, bs)
  | 11, bs =>
    parseThen (decodeList decodePulse bs) fun frame bs =>
    .ok (.submit frame, bs)
  | 12, bs =>
    parseThen (decodeNat bs) fun h bs =>
    .ok (.pollComplete { tag := h }, bs)
  | 13, bs =>
    parseThen (decodeNat bs) fun h bs =>
    parseThen (decodeNat bs) fun w bs =>
    .ok (.onComplete { tag := h } { tag := w }, bs)
  | 14, bs => .ok (.periphDone, bs)
  | 15, bs => .ok (.resume, bs)
  | _, _ => .error .reservedOpcode

/-- Reads one operation: a byte with `op[3:0]` in its low half and 0 in its high half (entry 2), then the operands. -/
def decodeOp : List Byte → Parsed Instr
  | [] => .error .truncated
  | b :: bs => decodeOperands b.toNat bs

/-! ### Symbols -/

/-- A symbol whose durations are legal (R54). -/
def checkSymbol (i : Instr) : Except DecodeError Instr :=
  if i.wellFormed = true then .ok i else .error .illegalDuration

/-- Which symbol a pulse code is. The rows CODE_0 and CODE_1 have the same fixed bits: what tells them apart is the timing table, so a code
equal to CODE_0 or CODE_1 of the table is that one. DESIGN CHOICE (entry 3): a High-Low code that is in no table reads as CODE_0 when its
High time is the shorter one, else as CODE_1; the two have the same effect. -/
def decodeSymbol (code0 code1 p : PulseCode) : Except DecodeError Instr :=
  if p.l0 = .high ∧ p.l1 = .low then
    if p = code0 then checkSymbol (.code0 p.d0 p.d1)
    else if p = code1 then checkSymbol (.code1 p.d0 p.d1)
    else if p.d0 < p.d1 then checkSymbol (.code0 p.d0 p.d1)
    else checkSymbol (.code1 p.d0 p.d1)
  else if p.l0 = .low ∧ p.l1 = .low ∧ p.d1 = 0 then checkSymbol (.resetCode p.d0)
  else .error .notASymbol

/-- The pulse code a symbol stands for (R45, R46). -/
def symbolPulse : Instr → Option PulseCode
  | .code0 high low => some { l0 := .high, d0 := high, l1 := .low, d1 := low }
  | .code1 high low => some { l0 := .high, d0 := high, l1 := .low, d1 := low }
  | .resetCode ticks => some { l0 := .low, d0 := ticks, l1 := .low, d1 := 0 }
  | .new _ _ _ _ _ => none
  | .computeTimings _ _ => none
  | .encodeBit _ => none
  | .encodeByte _ => none
  | .encodeColor _ => none
  | .beginBuf => none
  | .push _ => none
  | .finish => none
  | .encodePass _ => none
  | .writeBlocking _ => none
  | .writeSuspending _ _ => none
  | .submit _ => none
  | .pollComplete _ => none
  | .onComplete _ _ => none
  | .periphDone => none
  | .resume => none

/-! ### The encoder -/

/-- The bytes of an instruction: an operation's number and operands (R52, entry 2), or a symbol's packed word (R44). -/
def encode : Instr → List Byte
  | .new channel pin spec leds order =>
    0 :: (encodeChannel channel ++ encodeNat pin.tag ++ encodeSpec spec ++ encodeNat leds ++ encodeOrder order)
  | .computeTimings clockRate spec => 1 :: (encodeNat clockRate ++ encodeSpec spec)
  | .encodeBit b => 2 :: encodeBitOperand b
  | .encodeByte b => [3, b]
  | .encodeColor c => 4 :: encodeColorOperand c
  | .beginBuf => [5]
  | .push p => 6 :: encodePulse p
  | .finish => [7]
  | .encodePass cs => 8 :: encodeColorList cs
  | .writeBlocking cs => 9 :: encodeColorList cs
  | .writeSuspending cs w => 10 :: (encodeColorList cs ++ encodeNat w.tag)
  | .submit frame => 11 :: encodeList encodePulse frame
  | .pollComplete h => 12 :: encodeNat h.tag
  | .onComplete h w => 13 :: (encodeNat h.tag ++ encodeNat w.tag)
  | .periphDone => [14]
  | .resume => [15]
  | .code0 high low => encodePulse { l0 := .high, d0 := high, l1 := .low, d1 := low }
  | .code1 high low => encodePulse { l0 := .high, d0 := high, l1 := .low, d1 := low }
  | .resetCode ticks => encodePulse { l0 := .low, d0 := ticks, l1 := .low, d1 := 0 }

/-! ### The table's words -/

/-- The zero operand bytes after the bits of a table row: more than the longest operation with all its operands zero needs. -/
def operandPadding : List Byte := List.replicate 32 0

/-- A table word of `nbits` bits as whole bytes, the first at the lowest address, and its operand bytes of zeros. -/
def tableBytes (nbits w : Nat) : List Byte := bytesOfNat ((nbits + 7) / 8) w ++ operandPadding

/-- The symbols of the power-on table, which match no data symbol. -/
def noSymbol : PulseCode := { l0 := .low, d0 := 0, l1 := .low, d1 := 0 }

/-- The instruction the decoder reads from a table word: a packed pulse code for the rows of 32 bits, an operation for the others. -/
def decodeTableWord (nbits w : Nat) : Option Instr :=
  if nbits = 32 then
    match decodeSymbol noSymbol noSymbol (unpackPulse (BitVec.ofNat 32 w)) with
    | .ok i => some i
    | .error _ => none
  else
    match decodeOp (tableBytes nbits w) with
    | .ok (i, _) => some i
    | .error _ => none

end Sys2Proof
end

