-- ==== Sys2Proof/Machine/State.lean ====
section
/-! DEFINITION. Everything the spec gives the machine (10_state.md R10 to R26, 20_memory.md R27), as plain data, and the power-on state. -/

namespace Sys2Proof.Machine

/-- PHASE, the sequencer's state (R17). -/
inductive Phase where
  /-- No adapter exists yet (R17, D26). -/
  | unconstructed
  | idle
  | encoding
  | transmitting
  deriving DecidableEq, Repr

/-- WAIT_MODE, the wait strategy of the current attempt (R19). -/
inductive WaitMode where
  | blocking
  | suspending
  deriving DecidableEq, Repr

/-- TASK, the caller of a WRITE_SUSPENDING attempt (R23). -/
inductive Task where
  | running
  | suspended
  deriving DecidableEq, Repr

/-- The errors of NEW (R92, R93). -/
inductive ConstructError where
  | allocationFailed
  | invalidTiming
  deriving DecidableEq, Repr

/-- The errors of the two WRITE operations (R92, R93). -/
inductive WriteError where
  | bufferOverflow
  | peripheralError (e : PeriphErr)
  deriving DecidableEq, Repr

/-- The four error kinds, grouped by the operation that can return them (R92, R93). -/
inductive ErrorKind where
  | construct (e : ConstructError)
  | write (e : WriteError)
  deriving DecidableEq, Repr

/-- What an attempt returns: `Ok`, `BufferOverflow` or `PeripheralError(e)` (R20). -/
inductive AttemptResult where
  | ok
  | failed (e : WriteError)
  deriving DecidableEq, Repr

/-- What the peripheral reports of a transmission (R78). -/
inductive Report where
  | complete
  | error (e : PeriphErr)
  deriving DecidableEq, Repr

/-- TX.status, what `poll_complete` answers: Pending, Complete or Error(e) (R22, R79). -/
inductive TxStatus where
  | pending
  | reported (r : Report)
  deriving DecidableEq, Repr

/-- TX, the transmission in flight (R22). -/
structure Tx where
  /-- The handle SUBMIT returned. -/
  handle : Handle
  /-- The pulse codes handed over, `BUF[0 : CURSOR]` at the moment of SUBMIT. -/
  frame : List PulseCode
  status : TxStatus
  /-- The waker bit, 1 when it is `some`: the task ON_COMPLETE registered, which has not been woken yet (entry 14). -/
  waker : Option Waker
  /-- SENT: how many pulse codes of the frame the peripheral has played on the wire so far (the model's own, entry 4). -/
  sent : Nat
  deriving DecidableEq, Repr

/-- The configuration registers (R12). -/
structure Cfg where
  clockRate : Nat
  t0hNs : Nat
  t0lNs : Nat
  t1hNs : Nat
  t1lNs : Nat
  tresetNs : Nat
  maxLedCount : Nat
  channelOrder : List Nat
  channel : Channel
  pin : Pin
  deriving DecidableEq, Repr

/-- The timing-table registers CODE_0, CODE_1, RESET_CODE (R14). -/
structure TimingTable where
  code0 : PulseCode
  code1 : PulseCode
  resetCode : PulseCode
  deriving DecidableEq, Repr

/-- BUF (R15): the entries that hold a pulse code, with their index, in strictly rising order of index; an index that is not listed is
`unwritten`. The unit is the whole entry, since no operation reads or writes part of one (R33, entry 8). -/
abbrev Memory := List (Nat × PulseCode)

/-- One stretch of the waveform on the wire: a level held for a number of ticks (R43, R87). -/
structure Segment where
  level : Level
  ticks : Nat
  deriving DecidableEq, Repr

/-- An entry of the event history (R24). -/
inductive Event where
  /-- `Constructed(cfg)`: the registers NEW wrote. -/
  | constructed (cfg : Cfg) (table : TimingTable)
  | constructFailed (kind : ConstructError)
  | submit (handle : Handle) (frame : List PulseCode)
  | done (handle : Handle) (outcome : Report)
  /-- `Return(result)`. -/
  | returned (result : AttemptResult)
  deriving DecidableEq, Repr

/-- RET: what the last operation gave to whoever invoked it, by `return v` or `raise E` (R8; the model's own, entry 12). -/
inductive Ret where
  /-- The operation returns nothing. -/
  | unit
  /-- NEW returned the adapter. -/
  | adapter
  /-- The operation raised an error. -/
  | raised (e : ErrorKind)
  | timings (t : TimingTable)
  | code (p : PulseCode)
  | codes (ps : List PulseCode)
  | frame (ps : List PulseCode)
  | handle (h : Handle)
  | status (st : TxStatus)
  /-- The attempt returned Ok. -/
  | ok
  deriving DecidableEq, Repr

/-- One entry of the schedule: which agent moves next, and what it does (the model's own, entry 1). -/
inductive Input where
  /-- The caller invokes operations of its interface one after the other, by their encoding (R52). -/
  | calls (bytes : List Byte)
  /-- The blocked caller polls: POLL_COMPLETE with the handle SUBMIT gave it (R82). -/
  | poll
  /-- The peripheral plays the next pulse code of the frame in flight (R87). -/
  | play
  /-- The peripheral reports: PERIPH_DONE (R78). -/
  | report
  /-- The task scheduler runs RESUME (R81). -/
  | resume
  /-- The operation that comes next is run by its parts (R18, R53, D23) and not as one step. -/
  | split
  deriving DecidableEq, Repr

/-- The state of the machine. -/
structure State where
  /-- The configuration registers (R12). -/
  cfg : Cfg
  /-- The timing-table registers (R14). -/
  table : TimingTable
  /-- BUF (R15). -/
  buf : Memory
  /-- CURSOR (R15). -/
  cursor : Nat
  /-- PHASE (R17). -/
  phase : Phase
  /-- WAIT_MODE (R19). -/
  waitMode : WaitMode
  /-- RESULT (R20). -/
  result : Option AttemptResult
  /-- TX (R22). -/
  tx : Option Tx
  /-- TASK (R23). -/
  task : Task
  /-- The event history (R24), oldest entry first. -/
  history : List Event
  /-- The colour input stream: the colour values of the attempt not taken yet (R27, R29, entry 13). -/
  stream : List Color
  /-- The wire: what the peripheral has driven on the pin, oldest first (R27, R87, entry 5). -/
  wire : List Segment
  /-- LINE: the level the pin is at now (R87, entry 25). -/
  line : Level
  /-- USED_HANDLES: the handles used on this adapter (R77, entry 19). -/
  usedHandles : List Handle
  /-- PENDING: the steps of the operation in progress that are still to run, next one first (the model's own, entry 10). -/
  pending : List Instr
  /-- INPUTS: the schedule (the model's own, entry 1). -/
  inputs : List Input
  /-- RET (the model's own, entry 12). -/
  ret : Ret
  /-- DRAWS: how many free values have been drawn (the model's own, entry 15). -/
  draws : Nat
  deriving DecidableEq, Repr

/-- Why the machine stops with a fault. -/
inductive Fault where
  /-- FINISH read an entry of BUF that no PUSH or FINISH has written (R35, D29, U15). Safe: the model stops, it invents no value. -/
  | unwrittenRead
  deriving DecidableEq, Repr

/-- Why an instruction has no step. Each is safe: the model stops where the spec says that no step exists. -/
inductive Refusal where
  /-- An instruction without a meaning yet; raised by `exec` only. -/
  | notModelled (mnemonic : String)
  /-- The bytes at the front of the schedule encode no operation; raised by the fetch. -/
  | illegalEncoding
  /-- A call of an operation that is not on the caller's interface: "No caller and no other agent can invoke them" (42_pulse_buffer.md,
  R52, R100); raised by the fetch. COMPUTE_TIMINGS outside a NEW (R26, R52, R60); raised by COMPUTE_TIMINGS. -/
  | internalOperation
  /-- An adapter's operation in PHASE Unconstructed: "The only operation enabled in `Unconstructed` is NEW" (R26); raised by the ENCODE
  operations, ENCODE_PASS and the two WRITE operations. -/
  | noAdapter
  /-- NEW when the adapter exists: its precondition is PHASE = Unconstructed (R89, R90); raised by NEW. -/
  | adapterExists
  /-- A CHANNEL_ORDER that is not a permutation: "NEW cannot be invoked with it" (R54, D8, U17); raised by NEW. -/
  | illegalOrder
  /-- A WRITE or an encode pass while an attempt is in progress: "such a call has no step" (R75, U3); raised by ENCODE_PASS and the WRITEs. -/
  | busy
  /-- A colour value whose length differs from NCH: "refused at the interface" (R54, D9, U17); raised by ENCODE_COLOR, ENCODE_PASS and the
  WRITEs. -/
  | colorWidth
  /-- BEGIN, PUSH, FINISH or SUBMIT outside PHASE Encoding: "only while PHASE is Encoding" (R69's file, R74). -/
  | notEncoding
  /-- SUBMIT of a 4-tuple that is no pulse code, with a duration above TICK_MAX (R43); a symbol with a duration 0 or above TICK_MAX, "illegal" (R54). -/
  | illegalPulse
  /-- SUBMIT of a frame that is not "the list FINISH returned" (R77). -/
  | notFinished
  /-- POLL_COMPLETE, ON_COMPLETE, PERIPH_DONE, RESUME or a symbol when TX is none (R78 to R81). -/
  | noTransmission
  /-- POLL_COMPLETE or ON_COMPLETE with a handle that is not TX.handle (R79, R80, U20). -/
  | staleHandle
  /-- PERIPH_DONE or a symbol when TX.status is not Pending: "Enabled when `TX != none and TX.status = Pending`" (R78). -/
  | alreadyReported
  /-- RESUME when no waker is registered, nothing is reported, or the task runs (R81). -/
  | notResumable
  /-- A symbol that is not the next pulse code of the frame in flight (R32, R87); raised by the symbols and the fetch. -/
  | notNextPulse
  /-- The blocked caller's poll when no blocking attempt waits (R82); raised by the fetch. -/
  | notWaiting
  deriving DecidableEq, Repr

/-- A pulse code of zeros: the timing registers before NEW (DESIGN CHOICE, entry 6). -/
def zeroPulse : PulseCode := { l0 := .low, d0 := 0, l1 := .low, d1 := 0 }

/-- The power-on state: PHASE Unconstructed, no adapter, nothing submitted, nothing in the history (R26, R105). The registers that do not exist
before NEW hold the values of entries 6 and 7, the pin that of entry 25, the model's own fields those of entries 1, 10, 12, 13 and 15. -/
def State.reset : State where
  cfg :=
    { clockRate := 0, t0hNs := 0, t0lNs := 0, t1hNs := 0, t1lNs := 0, tresetNs := 0, maxLedCount := 0
      channelOrder := [0, 1, 2], channel := { tag := 0, clockRate := 0 }, pin := { tag := 0 } }
  table := { code0 := zeroPulse, code1 := zeroPulse, resetCode := zeroPulse }
  buf := []
  cursor := 0
  phase := .unconstructed
  waitMode := .blocking
  result := none
  tx := none
  task := .running
  history := []
  stream := []
  wire := []
  line := .low
  usedHandles := []
  pending := []
  inputs := []
  ret := .unit
  draws := 0

end Sys2Proof.Machine
end

