-- ==== Sys2Proof/Machine/Flags.lean ====
section
/-! DEFINITION. The block's flags: the derived BUSY (10_state.md R21), the result an attempt delivers (R20), the status a poll answers (R79) and
the numbers of the error kinds (60_exceptions.md R92). -/

namespace Sys2Proof.Machine

/-- `BUSY = (PHASE = Encoding or PHASE = Transmitting)` (R21). -/
def State.busy (s : State) : Bool :=
  decide (s.phase = .encoding) || decide (s.phase = .transmitting)

/-- `Ok if TX.status = Complete ; PeripheralError(e) if TX.status = Error(e)` (R81, R82). -/
def Report.result : Report → AttemptResult
  | .complete => .ok
  | .error e => .failed (.peripheralError e)

/-- What the attempt's call gives its caller: the value Ok, or the error it raises (R20, R94). -/
def AttemptResult.ret : AttemptResult → Ret
  | .ok => .ok
  | .failed e => .raised (.write e)

/-- TX.waker as a bit: 1 when ON_COMPLETE has registered and it has not fired yet (R22). -/
def Tx.wakerBit (t : Tx) : Bool := t.waker.isSome

/-- The numbers of the outcomes, for tabulation only (R92, D17). -/
def AttemptResult.number : AttemptResult → Nat
  | .ok => 0
  | .failed .bufferOverflow => 3
  | .failed (.peripheralError _) => 4

def ConstructError.number : ConstructError → Nat
  | .allocationFailed => 1
  | .invalidTiming => 2

end Sys2Proof.Machine
end

