-- ==== Sys2Proof/Machine/Operands.lean ====
section
/-! DEFINITION. Operand assembly (30_encoding.md R51): durations to ticks, bytes to bits, colours to wire bytes, the capacity. -/

namespace Sys2Proof.Machine

/-- `(duration_ns * clock_rate + 500_000_000) div 1_000_000_000`, exact on numbers of any size (R55, R57, D3). -/
def nsToTicks (durationNs clockRate : Nat) : Nat :=
  (durationNs * clockRate + Config.halfSecondNs) / Config.nsPerSecond

/-- NCH = len(CHANNEL_ORDER) (R13). -/
def Cfg.nch (c : Cfg) : Nat := c.channelOrder.length

/-- BITS_PER_COLOR = 8 * NCH (R13, R49). -/
def Cfg.bitsPerColor (c : Cfg) : Nat := 8 * c.nch

/-- DATA_CAPACITY = MAX_LED_COUNT * BITS_PER_COLOR (R13). -/
def Cfg.dataCapacity (c : Cfg) : Nat := c.maxLedCount * c.bitsPerColor

/-- CAPACITY = DATA_CAPACITY + 1 (R13). -/
def Cfg.capacity (c : Cfg) : Nat := c.dataCapacity + 1

/-- Bit `j` of a byte, bit 7 the most significant (R7). -/
def byteBit (b : Byte) (j : Nat) : Bool := b.getLsbD j

/-- The bits of a byte, bit 7 first (R30, R51). -/
def byteBits (b : Byte) : List Bool := [7, 6, 5, 4, 3, 2, 1, 0].map (byteBit b)

/-- Field `k` of a colour tuple; every index of a legal order is inside a colour of NCH bytes (R47, R48). -/
def colorField (c : Color) (k : Nat) : Byte := c.getD k 0

/-- `wire_byte[k] = colour.(CHANNEL_ORDER[k])` (R31, R48). -/
def wireBytes (order : List Nat) (c : Color) : List Byte := order.map (colorField c)

/-- The colour has the adapter's number of channels (R29, R54, D9). -/
def Cfg.fits (cfg : Cfg) (c : Color) : Bool := c.length == cfg.nch

end Sys2Proof.Machine
end

