-- ==== Sys2Proof/Machine/Ops.lean ====
section
/-! DEFINITION. The shared operations: reading and writing BUF, returning a value, taking an error and ending an attempt, handing a frame to the
peripheral, playing pulse codes on the wire. -/

namespace Sys2Proof.Machine

/-! ### The pulse buffer's memory (00_scope.md R8, 20_memory.md R33 to R36) -/

/-- The entry at an index, `none` when it is unwritten (R35). -/
def Memory.read : Memory → Nat → Option PulseCode
  | [], _ => none
  | (j, c) :: rest, i => if j = i then some c else Memory.read rest i

/-- `MemWrite(i, 1, c)`: `BUF[i] <- c` (R8), keeping the indices in order. -/
def Memory.write : Memory → Nat → PulseCode → Memory
  | [], i, c => [(i, c)]
  | (j, d) :: rest, i, c =>
    if i < j then (i, c) :: (j, d) :: rest
    else if i = j then (i, c) :: rest
    else (j, d) :: Memory.write rest i c

/-- The canonical form: indices strictly rising. Every listed entry holds a pulse code, and an unlisted one reads as unwritten. -/
def Memory.wf : Memory → Bool
  | [] => true
  | [_] => true
  | (i, _) :: (j, d) :: rest => decide (i < j) && Memory.wf ((j, d) :: rest)

/-- `MemRead(i, n)`: the entries `BUF[i], ..., BUF[i+n-1]` (R8), `none` when one of them is unwritten (R35). -/
def Memory.readRange (m : Memory) : Nat → Nat → Option (List PulseCode)
  | _, 0 => some []
  | i, n + 1 =>
    match Memory.read m i, Memory.readRange m (i + 1) n with
    | some c, some cs => some (c :: cs)
    | _, _ => none

/-- The filled prefix `BUF[0 : CURSOR]` (R15). -/
def State.filled (s : State) : Option (List PulseCode) := Memory.readRange s.buf 0 s.cursor

/-! ### Returning, raising, ending an attempt (60_exceptions.md R97, R98) -/

/-- `return v` (R8). -/
def setRet (r : Ret) (s : State) : State := { s with ret := r }

/-- The end of every attempt: PHASE Idle, TX none, TASK Running, RESULT and the history hold the result, and the caller gets it (R20, R81,
R82, R86). The operation is over, so nothing of it is left to run (R97). -/
def endAttempt (r : AttemptResult) (s : State) : State :=
  { s with
    phase := .idle, tx := none, task := .running, pending := []
    result := some r, history := s.history ++ [.returned r], ret := r.ret }

/-- What an error does to the state, "and in no other way" (R97's table). AllocationFailed and InvalidTiming: the history and the caller get
them. BufferOverflow: CURSOR 0, BUF kept, and the attempt ends. PeripheralError: BUF and CURSOR kept, and the attempt ends. Nothing is
saved, and there is no return operation (R98). -/
def takeError (e : ErrorKind) (s : State) : State :=
  match e with
  | .construct k => { s with history := s.history ++ [.constructFailed k], ret := .raised (.construct k) }
  | .write .bufferOverflow => endAttempt (.failed .bufferOverflow) { s with cursor := 0 }
  | .write (.peripheralError e) => endAttempt (.failed (.peripheralError e)) s

/-- The wait of an attempt ends with what the peripheral reported (R81, R82). -/
def endWait (r : Report) (s : State) : State :=
  match r with
  | .complete => endAttempt .ok s
  | .error e => takeError (.write (.peripheralError e)) s

/-! ### The buffer's operations (42_pulse_buffer.md) -/

/-- `CURSOR <- 0` (R69). -/
def resetCursor (s : State) : State := { s with cursor := 0 }

/-- `MemWrite(CURSOR, 1, c) ; CURSOR <- CURSOR + 1`, one indivisible step (R36, R70). -/
def storeCode (c : PulseCode) (s : State) : State :=
  { s with buf := Memory.write s.buf s.cursor c, cursor := s.cursor + 1 }

/-- The store with its bound check (R70, R71): `none` raises BufferOverflow, and nothing is written. -/
def appendCode (c : PulseCode) (s : State) : Option State :=
  if s.cfg.capacity ≤ s.cursor then none else some (storeCode c s)

/-- PUSH for each code in turn; `false` when one raised, with the state as it then was (R70, R76). -/
def appendCodes : List PulseCode → State → State × Bool
  | [], s => (s, true)
  | c :: cs, s =>
    match appendCode c s with
    | some s' => appendCodes cs s'
    | none => (s, false)

/-! ### The peripheral's interface (43_transmission.md) -/

/-- A handle not used before on this adapter: the drawn one, or, when that is used, one above all used ones. Every unused handle can be
drawn (R77, D20, entry 19). -/
def freshHandle (used : List Handle) (drawn : Nat) : Handle :=
  if ({ tag := drawn } : Handle) ∈ used then { tag := used.foldr (fun h m => max h.tag m) 0 + 1 } else { tag := drawn }

/-- The handle the next SUBMIT draws. -/
def State.nextHandle (s : State) : Handle := freshHandle s.usedHandles (Config.handleDraw s.draws)

/-- TX as SUBMIT creates it: status Pending, waker 0, nothing played (R77). -/
def newTx (h : Handle) (frame : List PulseCode) : Tx :=
  { handle := h, frame := frame, status := .pending, waker := none, sent := 0 }

/-- SUBMIT's pseudocode (R77). -/
def submitFrame (frame : List PulseCode) (s : State) : State :=
  { s with
    tx := some (newTx s.nextHandle frame)
    phase := .transmitting
    history := s.history ++ [.submit s.nextHandle frame]
    usedHandles := s.nextHandle :: s.usedHandles
    draws := s.draws + 1
    ret := .handle s.nextHandle }

/-- `TX.waker <- 1` for the task the waker identifies (R80). -/
def registerWaker (t : Tx) (w : Waker) (s : State) : State :=
  { s with tx := some { t with waker := some w }, ret := .unit }

/-! ### The wire (43_transmission.md R87) -/

/-- A segment of duration 0 ends the output (R87). -/
def endsOutput (p : PulseCode) : Bool := decide (p.d0 = 0) || decide (p.d1 = 0)

/-- What a pulse code drives on the pin: `l0` for `d0` ticks, then `l1` for `d1` ticks, up to a segment of duration 0 (R43, R87). -/
def segmentsOf (p : PulseCode) : List Segment :=
  if p.d0 = 0 then []
  else if p.d1 = 0 then [{ level := p.l0, ticks := p.d0 }]
  else [{ level := p.l0, ticks := p.d0 }, { level := p.l1, ticks := p.d1 }]

/-- The waveform a frame denotes (R87); after it the pin rests Low, see `levelAt`. -/
def waveform : List PulseCode → List Segment
  | [] => []
  | p :: ps => if endsOutput p then segmentsOf p else segmentsOf p ++ waveform ps

/-- The first `n` ticks of a waveform, cut inside a segment where they end (U7). -/
def cutTicks : Nat → List Segment → List Segment
  | _, [] => []
  | n, g :: gs =>
    if n = 0 then []
    else if n < g.ticks then [{ level := g.level, ticks := n }]
    else g :: cutTicks (n - g.ticks) gs

/-- How long a waveform lasts, in ticks (R117). -/
def totalTicks (gs : List Segment) : Nat := (gs.map Segment.ticks).sum

/-- The level the pin rests at once the output has ended (R87, D27). -/
def restLevel : Level := .low

/-- The level of the pin `n` ticks after a waveform began: the segments' levels in turn, "and from then on the pin rests Low" (R87). -/
def levelAt : List Segment → Nat → Level
  | [], _ => restLevel
  | g :: gs, n => if n < g.ticks then g.level else levelAt gs (n - g.ticks)

/-- The level the pin is at when a pulse code has been played: at rest when the code ended the output, else that of its second segment (R87). -/
def levelAfter (p : PulseCode) : Level := if endsOutput p then restLevel else p.l1

/-- The pulse codes of the frame the peripheral has not played yet. -/
def Tx.rest (t : Tx) : List PulseCode := t.frame.drop t.sent

/-- What is played when the peripheral reports: the whole rest on Complete, a free part of it on an error (R78, R97, U7, entry 20). -/
def reportSegments (r : Report) (draw : Nat) (t : Tx) : List Segment :=
  match r with
  | .complete => waveform t.rest
  | .error _ => cutTicks (Config.errorWireTicks draw) (waveform t.rest)

/-- The level the pin is at when the peripheral has reported: at rest on Complete, since the whole frame has gone out, and on an error when the
whole output has; free on an error that cut the output short (R78, R87, R97, U7, entry 25). -/
def reportLevel (r : Report) (draw : Nat) (t : Tx) : Level :=
  match r with
  | .complete => restLevel
  | .error _ =>
    if totalTicks (waveform t.rest) ≤ Config.errorWireTicks draw then restLevel else levelOfBool (Config.errorPinLevel draw)

/-- The peripheral plays the next pulse code of the frame in flight (R43, R87, entry 4). It has a step only while a transmission is Pending,
and only for the code that comes next (R32). -/
def playPulse (p : PulseCode) (s : State) : Host.Outcome State Fault Refusal :=
  match s.tx with
  | none => .refused .noTransmission
  | some t =>
    if t.status ≠ .pending then .refused .alreadyReported
    else if t.frame[t.sent]? ≠ some p then .refused .notNextPulse
    else
      .next { s with
        wire := s.wire ++ segmentsOf p
        line := levelAfter p
        tx := some { t with sent := if endsOutput p then t.frame.length else t.sent + 1 }
        ret := .unit }

end Sys2Proof.Machine
end

