-- ==== Sys2Proof/Machine/Buffer.lean ====
section
/-! DEFINITION. The pulse buffer, BEGIN, PUSH, FINISH (42_pulse_buffer.md): steps of the sequencer, enabled only while PHASE is Encoding. An
overflow takes the BufferOverflow error (60_exceptions.md R97, entry 11). -/

namespace Sys2Proof.Machine

/-- BEGIN's effect (R69). -/
def beginBuf (s : State) : State := setRet .unit (resetCursor s)

/-- PUSH's effect (R70). -/
def pushCode (p : PulseCode) (s : State) : State :=
  match appendCode p s with
  | some s' => setRet .unit s'
  | none => takeError (.write .bufferOverflow) s

/-- FINISH's effect (R71): the marker is appended, then the filled prefix is read and returned. -/
def finishBuf (s : State) : Host.Outcome State Fault Refusal :=
  match appendCode s.table.resetCode s with
  | none => .next (takeError (.write .bufferOverflow) s)
  | some s' =>
    match s'.filled with
    | none => .fault .unwrittenRead
    | some frame => .next (setRet (.frame frame) s')

/-- BEGIN (R69). -/
def execBegin (s : State) : Host.Outcome State Fault Refusal :=
  if s.phase ≠ .encoding then .refused .notEncoding else .next (beginBuf s)

/-- PUSH of any pulse code (R70). That a WRITE only ever gives it CODE_0 or CODE_1 (R54) is kept by every step: see `PendingInv`. -/
def execPush (p : PulseCode) (s : State) : Host.Outcome State Fault Refusal :=
  if s.phase ≠ .encoding then .refused .notEncoding else .next (pushCode p s)

/-- FINISH (R71). -/
def execFinish (s : State) : Host.Outcome State Fault Refusal :=
  if s.phase ≠ .encoding then .refused .notEncoding else finishBuf s

end Sys2Proof.Machine
end

