-- ==== Sys2Proof/Machine/Timing.lean ====
section
/-! DEFINITION. The timing parameter table, COMPUTE_TIMINGS (40_timing_table.md). -/

namespace Sys2Proof.Machine

/-- `compute_timings(clock_rate, protocol_spec)`: the three symbols, or `none` for InvalidTiming when one of the five computed tick counts is
0 or above TICK_MAX (R59, R60). Nothing else is checked (R61, D24). -/
def computeTimings (clockRate : Nat) (spec : ProtocolSpec) : Option TimingTable :=
  let t0h := nsToTicks spec.t0h clockRate
  let t0l := nsToTicks spec.t0l clockRate
  let t1h := nsToTicks spec.t1h clockRate
  let t1l := nsToTicks spec.t1l clockRate
  let treset := nsToTicks spec.reset clockRate
  if [t0h, t0l, t1h, t1l, treset].all ticksLegal then
    some {
      code0 := { l0 := .high, d0 := t0h, l1 := .low, d1 := t0l }
      code1 := { l0 := .high, d0 := t1h, l1 := .low, d1 := t1l }
      resetCode := { l0 := .low, d0 := treset, l1 := .low, d1 := 0 } }
  else none

/-- The protocol spec held in the configuration registers (R12). -/
def Cfg.spec (c : Cfg) : ProtocolSpec :=
  { t0h := c.t0hNs, t0l := c.t0lNs, t1h := c.t1hNs, t1l := c.t1lNs, reset := c.tresetNs }

/-- What COMPUTE_TIMINGS gives its invoker: the table, or InvalidTiming (R59, R60). -/
def timingsRet : Option TimingTable → Ret
  | some t => .timings t
  | none => .raised (.construct .invalidTiming)

/-- A NEW is in progress: its own step is the next one left to run (entry 10). -/
def State.newInProgress (s : State) : Bool :=
  match s.pending with
  | .new _ _ _ _ _ :: _ => true
  | _ => false

/-- COMPUTE_TIMINGS (R59): a pure function of its operands, which reads no register and writes none. Only NEW invokes it (R52), and in
Unconstructed only NEW is enabled (R26), so it has a step only inside a NEW (R60). -/
def execComputeTimings (clockRate : Nat) (spec : ProtocolSpec) (s : State) : Host.Outcome State Fault Refusal :=
  if s.newInProgress = false then .refused .internalOperation
  else .next (setRet (timingsRet (computeTimings clockRate spec)) s)

end Sys2Proof.Machine
end

