-- ==== Sys2Proof/Machine/Construction.lean ====
section
/-! DEFINITION. Construction, NEW (44_construction.md). -/

namespace Sys2Proof.Machine

/-- The configuration registers NEW writes (R89). -/
def newCfg (channel : Channel) (pin : Pin) (spec : ProtocolSpec) (maxLedCount : Nat) (order : List Nat) : Cfg :=
  { clockRate := channel.clockRate
    t0hNs := spec.t0h, t0lNs := spec.t0l, t1hNs := spec.t1h, t1lNs := spec.t1l, tresetNs := spec.reset
    maxLedCount := maxLedCount, channelOrder := order, channel := channel, pin := pin }

/-- `alloc_fails = capacity > BUFFER_LIMIT`, a limit of `none` being infinity (R89, D10). -/
def allocFails (limit : Option Nat) (capacity : Nat) : Bool :=
  match limit with
  | none => false
  | some l => decide (l < capacity)

/-- The adapter after a NEW that succeeds (R26's table, R89). WAIT_MODE is not written (R19). -/
def construct (cfg : Cfg) (table : TimingTable) (s : State) : State :=
  { s with
    cfg := cfg, table := table, buf := [], cursor := 0
    tx := none, result := none, task := .running, phase := .idle
    history := s.history ++ [.constructed cfg table]
    usedHandles := [], ret := .adapter }

/-- Which error a NEW whose capacity cannot be allocated and whose timing is invalid reports (R89, R96, D11). -/
def chosenError (allocation : Bool) : ConstructError := if allocation then .allocationFailed else .invalidTiming

/-- NEW's pseudocode with BUFFER_LIMIT as an argument (R89). -/
def newAdapter (limit : Option Nat) (cfg : Cfg) (s : State) : State :=
  match allocFails limit cfg.capacity, computeTimings cfg.clockRate cfg.spec with
  | true, none =>
    takeError (.construct (chosenError (Config.constructErrChoice s.draws))) { s with draws := s.draws + 1 }
  | true, some _ => takeError (.construct .allocationFailed) s
  | false, none => takeError (.construct .invalidTiming) s
  | false, some table => construct cfg table s

/-- What NEW needs: PHASE = Unconstructed, and a CHANNEL_ORDER (R89, R54). -/
def newRefusal (order : List Nat) (s : State) : Option Refusal :=
  if s.phase ≠ .unconstructed then some .adapterExists
  else if orderLegal order = false then some .illegalOrder
  else none

/-- NEW (R89). -/
def execNew (channel : Channel) (pin : Pin) (spec : ProtocolSpec) (maxLedCount : Nat) (order : List Nat) (s : State) :
    Host.Outcome State Fault Refusal :=
  match newRefusal order s with
  | some r => .refused r
  | none => .next (newAdapter Config.bufferLimit (newCfg channel pin spec maxLedCount order) s)

end Sys2Proof.Machine
end

