-- ==== Sys2Proof/Machine/Encoder.lean ====
section
/-! DEFINITION. The pulse encoder, ENCODE_BIT, ENCODE_BYTE, ENCODE_COLOR (41_pulse_encoder.md): pure functions of the operand and of CODE_0,
CODE_1 and CHANNEL_ORDER (R67), which return pulse codes and write nothing (90_conflicts.md C7). -/

namespace Sys2Proof.Machine

/-- `encode_bit(bit) = if bit = 1 then CODE_1 else CODE_0` (R63). -/
def encodeBit (t : TimingTable) (bit : Bool) : PulseCode := if bit then t.code1 else t.code0

/-- `[encode_bit(b[7]), ..., encode_bit(b[0])]` (R64). -/
def encodeByte (t : TimingTable) (b : Byte) : List PulseCode := (byteBits b).map (encodeBit t)

/-- The bytes of the colour in CHANNEL_ORDER, each encoded (R65); no byte is changed (R66). -/
def encodeColor (order : List Nat) (t : TimingTable) (c : Color) : List PulseCode :=
  (wireBytes order c).flatMap (encodeByte t)

/-- The data codes of a colour sequence, in the order they are pushed (R76). -/
def dataCodes (cfg : Cfg) (table : TimingTable) (colors : List Color) : List PulseCode :=
  colors.flatMap (encodeColor cfg.channelOrder table)

/-- The frame of a colour sequence: its data codes, then the reset marker (R50, R76). -/
def frameOf (cfg : Cfg) (table : TimingTable) (colors : List Color) : List PulseCode :=
  dataCodes cfg table colors ++ [table.resetCode]

/-- ENCODE_BIT (R63). -/
def execEncodeBit (bit : Bool) (s : State) : Host.Outcome State Fault Refusal :=
  if s.phase = .unconstructed then .refused .noAdapter
  else .next (setRet (.code (encodeBit s.table bit)) s)

/-- ENCODE_BYTE (R64). -/
def execEncodeByte (b : Byte) (s : State) : Host.Outcome State Fault Refusal :=
  if s.phase = .unconstructed then .refused .noAdapter
  else .next (setRet (.codes (encodeByte s.table b)) s)

/-- ENCODE_COLOR (R65), of a colour value of NCH bytes (D9). -/
def execEncodeColor (c : Color) (s : State) : Host.Outcome State Fault Refusal :=
  if s.phase = .unconstructed then .refused .noAdapter
  else if s.cfg.fits c = false then .refused .colorWidth
  else .next (setRet (.codes (encodeColor s.cfg.channelOrder s.table c)) s)

end Sys2Proof.Machine
end

