-- ==== Sys2Proof/Machine/Symbols.lean ====
section
/-! DEFINITION. The pulse symbols CODE_0, CODE_1, RESET_CODE (30_encoding.md R45, R46). What a pulse code means is a stretch of the waveform (R43, R87):
the peripheral plays the symbol of the frame in flight on the wire (entry 4). A symbol with a duration 0 or above TICK_MAX is illegal (R54). -/

namespace Sys2Proof.Machine

/-- The peripheral plays a symbol whose durations are legal (R54); `i` is the symbol's instruction and `p` its pulse code. -/
def playSymbol (i : Instr) (p : PulseCode) (s : State) : Host.Outcome State Fault Refusal :=
  if i.wellFormed = false then .refused .illegalPulse else playPulse p s

/-- The symbol of a data bit 0: High for T0H ticks, then Low for T0L ticks (R45). -/
def execCode0 (high low : Nat) (s : State) : Host.Outcome State Fault Refusal :=
  playSymbol (.code0 high low) { l0 := .high, d0 := high, l1 := .low, d1 := low } s

/-- The symbol of a data bit 1: High for T1H ticks, then Low for T1L ticks (R45). -/
def execCode1 (high low : Nat) (s : State) : Host.Outcome State Fault Refusal :=
  playSymbol (.code1 high low) { l0 := .high, d0 := high, l1 := .low, d1 := low } s

/-- The end symbol: Low for TRESET ticks, then the segment of duration 0 that ends the frame (R46). -/
def execResetCode (ticks : Nat) (s : State) : Host.Outcome State Fault Refusal :=
  playSymbol (.resetCode ticks) { l0 := .low, d0 := ticks, l1 := .low, d1 := 0 } s

end Sys2Proof.Machine
end

