-- ==== Sys2Proof/Machine/Transmission.lean ====
section
/-! DEFINITION. The transmission driver (43_transmission.md): the encode pass, the peripheral's interface, and the two WRITE operations. A WRITE runs
up to the point where it waits for the peripheral; the peripheral's report and the end of the wait are later steps (entry 9). -/

namespace Sys2Proof.Machine

/-- Step 2 of the shared algorithm: each colour is taken from the stream, encoded and pushed; `false` when a PUSH raised BufferOverflow, and then
the colours not taken stay in the stream (R29, R76). -/
def encodeColors : List Color → State → State × Bool
  | [], s => (s, true)
  | c :: cs, s =>
    match appendCodes (encodeColor s.cfg.channelOrder s.table c) { s with stream := cs } with
    | (s', true) => encodeColors cs s'
    | (s', false) => (s', false)

/-- `PHASE <- Encoding`, BEGIN, and the caller's sequence as the input stream (R76). -/
def startPass (colors : List Color) (s : State) : State :=
  beginBuf { s with phase := .encoding, stream := colors }

/-- Steps 1 to 3 as one step of the sequencer (R76, D23): the frame is in RET, or the attempt has ended with BufferOverflow. -/
def encodePass (colors : List Color) (s : State) : Host.Outcome State Fault Refusal :=
  match encodeColors colors (startPass colors s) with
  | (s', true) => finishBuf s'
  | (s', false) => .next (takeError (.write .bufferOverflow) s')

/-- Steps 1 to 4: the encode pass, then SUBMIT of the frame it returned; after a BufferOverflow the operation has already returned it and
nothing is submitted (R76, R82, R83). -/
def encodeAndSubmit (colors : List Color) (s : State) : Host.Outcome State Fault Refusal :=
  match encodePass colors s with
  | .next s' =>
    match s'.ret with
    | .frame frame => .next (submitFrame frame s')
    | _ => .next s'
  | .fault f => .fault f
  | .refused r => .refused r

/-- Step 5b: ON_COMPLETE with the task's waker, and the task is Suspended, if a frame was submitted (R83). -/
def suspendTask (w : Waker) (s : State) : State :=
  match s.tx with
  | none => s
  | some t => { registerWaker t w s with task := .suspended }

/-- What an attempt needs to start: an adapter, PHASE Idle, and colours of the adapter's width (R75, R26, D9). -/
def startRefusal (colors : List Color) (s : State) : Option Refusal :=
  if s.phase = .unconstructed then some .noAdapter
  else if s.phase ≠ .idle then some .busy
  else if colors.all s.cfg.fits = false then some .colorWidth
  else none

/-- ENCODE_PASS (R76). -/
def execEncodePass (colors : List Color) (s : State) : Host.Outcome State Fault Refusal :=
  match startRefusal colors s with
  | some r => .refused r
  | none => encodePass colors s

/-- WRITE_BLOCKING up to its wait (R82): on return to the schedule the attempt is over with BufferOverflow, or the frame is submitted and the
caller's thread is held until a poll answers Complete or Error. -/
def execWriteBlocking (colors : List Color) (s : State) : Host.Outcome State Fault Refusal :=
  match startRefusal colors s with
  | some r => .refused r
  | none => encodeAndSubmit colors { s with waitMode := .blocking }

/-- WRITE_SUSPENDING up to its wait (R83): on return to the schedule the attempt is over with BufferOverflow, or the frame is submitted, the
waker registered and the task Suspended until RESUME. -/
def execWriteSuspending (colors : List Color) (w : Waker) (s : State) : Host.Outcome State Fault Refusal :=
  match startRefusal colors s with
  | some r => .refused r
  | none =>
    match encodeAndSubmit colors { s with waitMode := .suspending } with
    | .next s' => .next (suspendTask w s')
    | .fault f => .fault f
    | .refused r => .refused r

/-- SUBMIT (R77), of the list FINISH returned. -/
def execSubmit (frame : List PulseCode) (s : State) : Host.Outcome State Fault Refusal :=
  if s.phase ≠ .encoding then .refused .notEncoding
  else if frame.all PulseCode.legal = false then .refused .illegalPulse
  else if s.ret ≠ .frame frame then .refused .notFinished
  else .next (submitFrame frame s)

/-- POLL_COMPLETE (R79): it returns TX.status and writes nothing. -/
def execPollComplete (h : Handle) (s : State) : Host.Outcome State Fault Refusal :=
  match s.tx with
  | none => .refused .noTransmission
  | some t => if t.handle ≠ h then .refused .staleHandle else .next (setRet (.status t.status) s)

/-- ON_COMPLETE (R80); the status may already be reported (D18). -/
def execOnComplete (h : Handle) (w : Waker) (s : State) : Host.Outcome State Fault Refusal :=
  match s.tx with
  | none => .refused .noTransmission
  | some t => if t.handle ≠ h then .refused .staleHandle else .next (registerWaker t w s)

/-- The report the next PERIPH_DONE draws (R78, U5, entry 18). -/
def State.nextReport (s : State) : Report :=
  match Config.peripheralReport s.draws with
  | none => .complete
  | some e => .error e

/-- TX after the report: the status, and on Complete the whole frame played (R78). -/
def reportedTx (r : Report) (t : Tx) : Tx :=
  { t with
    status := .reported r
    sent := match r with
      | .complete => t.frame.length
      | .error _ => t.sent }

/-- The peripheral reports `r` of the transmission `t` (R78). -/
def reportDone (r : Report) (t : Tx) (s : State) : State :=
  { s with
    tx := some (reportedTx r t)
    history := s.history ++ [.done t.handle r]
    wire := s.wire ++ reportSegments r s.draws t
    line := reportLevel r s.draws t
    draws := s.draws + 1
    ret := .unit }

/-- PERIPH_DONE (R78): "Enabled when `TX != none and TX.status = Pending`". -/
def execPeriphDone (s : State) : Host.Outcome State Fault Refusal :=
  match s.tx with
  | none => .refused .noTransmission
  | some t => if t.status ≠ .pending then .refused .alreadyReported else .next (reportDone s.nextReport t s)

/-- RESUME (R81): "Enabled when `TX != none and TX.waker = 1 and TX.status != Pending and TASK = Suspended`". -/
def execResume (s : State) : Host.Outcome State Fault Refusal :=
  match s.tx with
  | none => .refused .noTransmission
  | some t =>
    match t.status with
    | .pending => .refused .notResumable
    | .reported r =>
      if t.wakerBit = false ∨ s.task ≠ .suspended then .refused .notResumable
      else .next (endWait r s)

/-! ### What follows an operation in the one that invoked it -/

/-- A blocking attempt waits: its caller's thread takes no step but polls (R23, R82). -/
def State.blockingWait (s : State) : Bool :=
  decide (s.phase = .transmitting) && decide (s.waitMode = .blocking)

/-- `until s != Pending` and what follows it in WRITE_BLOCKING (R82): once a poll of a blocking attempt has answered Complete or Error, the
attempt ends. -/
def leaveLoop (s : State) : State :=
  match s.ret with
  | .status (.reported r) => if s.blockingWait then endWait r s else s
  | _ => s

/-- The encode pass takes the next colour from the stream (R29, R76). -/
def takeColor (s : State) : State := { s with stream := s.stream.drop 1 }

/-- `TASK <- Suspended`, the second half of step 5b (R83). -/
def suspend (s : State) : State := { s with task := .suspended }

/-- What the invoker of the operation that just ran does next without waiting: WRITE_BLOCKING tests the answer of its poll (R82), an encode pass
has taken the colour it encodes (R76), WRITE_SUSPENDING, which alone registers a waker, suspends its task (R83). -/
def afterInstr (i : Instr) (s : State) : State :=
  match i with
  | .pollComplete _ => leaveLoop s
  | .encodeColor _ => takeColor s
  | .onComplete _ _ => suspend s
  | _ => s

end Sys2Proof.Machine
end

