-- ==== Sys2Proof/Machine/Dispatch.lean ====
section
/-! DEFINITION. The meaning of each instruction. -/

namespace Sys2Proof.Machine

def exec (i : Instr) (s : State) : Host.Outcome State Fault Refusal :=
  match i with
  | .new channel pin spec leds order => Sys2Proof.Machine.execNew channel pin spec leds order s
  | .computeTimings clockRate spec => Sys2Proof.Machine.execComputeTimings clockRate spec s
  | .encodeBit bit => Sys2Proof.Machine.execEncodeBit bit s
  | .encodeByte b => Sys2Proof.Machine.execEncodeByte b s
  | .encodeColor c => Sys2Proof.Machine.execEncodeColor c s
  | .beginBuf => Sys2Proof.Machine.execBegin s
  | .push p => Sys2Proof.Machine.execPush p s
  | .finish => Sys2Proof.Machine.execFinish s
  | .encodePass colors => Sys2Proof.Machine.execEncodePass colors s
  | .writeBlocking colors => Sys2Proof.Machine.execWriteBlocking colors s
  | .writeSuspending colors waker => Sys2Proof.Machine.execWriteSuspending colors waker s
  | .submit frame => Sys2Proof.Machine.execSubmit frame s
  | .pollComplete h => Sys2Proof.Machine.execPollComplete h s
  | .onComplete h waker => Sys2Proof.Machine.execOnComplete h waker s
  | .periphDone => Sys2Proof.Machine.execPeriphDone s
  | .resume => Sys2Proof.Machine.execResume s
  | .code0 high low => Sys2Proof.Machine.execCode0 high low s
  | .code1 high low => Sys2Proof.Machine.execCode1 high low s
  | .resetCode ticks => Sys2Proof.Machine.execResetCode ticks s

end Sys2Proof.Machine
end

