-- ==== Sys2Proof/Machine/Fetch.lean ====
section
/-! DEFINITION. Which instruction runs next. An operation in progress goes on first; else the schedule says which agent moves (entry 1). The caller
can invoke its own interface only: the internal operations run as parts of the operations that invoke them (R52, R53, R100, entry 10). The
block fetches no instructions of its own (10_state.md R17). -/

namespace Sys2Proof.Machine

/-! ### The caller's interface -/

/-- The operations on the caller's interface, "external" (R52). Every other operation is invoked by another operation or is another agent's. -/
def external : Instr → Bool
  | .new _ _ _ _ _ => true
  | .writeBlocking _ => true
  | .writeSuspending _ _ => true
  | .computeTimings _ _ => false
  | .encodeBit _ => false
  | .encodeByte _ => false
  | .encodeColor _ => false
  | .beginBuf => false
  | .push _ => false
  | .finish => false
  | .encodePass _ => false
  | .submit _ => false
  | .pollComplete _ => false
  | .onComplete _ _ => false
  | .periphDone => false
  | .resume => false
  | .code0 _ _ => false
  | .code1 _ _ => false
  | .resetCode _ => false

/-- The operations left to invoke of a run of calls. -/
def remaining (bytes : List Byte) (rest : List Input) : List Input :=
  match bytes with
  | [] => rest
  | b :: bs => .calls (b :: bs) :: rest

/-- The caller's next operation of a run of encoded calls: "No caller and no other agent can invoke" an internal one (42_pulse_buffer.md). -/
def fetchCall (bytes : List Byte) (rest : List Input) (s : State) : Except Refusal (Instr × State) :=
  match decodeOp bytes with
  | .error _ => .error .illegalEncoding
  | .ok (i, more) =>
    if external i = false then .error .internalOperation else .ok (i, { s with inputs := remaining more rest })

/-! ### Operations by their parts (30_encoding.md R53) -/

/-- The parts that follow each other without another agent's step between them are put before what is left to run (R10, R18). -/
def invoke (parts : List Instr) (s : State) : State := { s with pending := parts ++ s.pending }

/-- The parts of one colour of an encode pass: ENCODE_COLOR, and one PUSH per pulse code it gives (R53, R76). -/
def colorParts (cfg : Cfg) (table : TimingTable) (c : Color) : List Instr :=
  .encodeColor c :: (encodeColor cfg.channelOrder table c).map .push

/-- The parts of an encode pass after its BEGIN: each colour's, FINISH (R53, R76). -/
def passParts (cfg : Cfg) (table : TimingTable) (colors : List Color) : List Instr :=
  colors.flatMap (colorParts cfg table) ++ [.finish]

/-- The parts of a WRITE up to its wait: ENCODE_PASS, SUBMIT of the frame it returns, and what the wait strategy adds (R53, R82, R83). -/
def writeParts (colors : List Color) (wait : List Instr) (s : State) : List Instr :=
  [.encodePass colors, .submit (frameOf s.cfg s.table colors)] ++ wait

/-- Runs an operation by its parts: they are left to run, next one first. An operation without parts is the next instruction itself. NEW invokes
COMPUTE_TIMINGS (R52, R89); a WRITE, an encode pass, ENCODE_COLOR and ENCODE_BYTE expand as R53 says. An encode pass enters Encoding with its
BEGIN, in one step: at no time in Encoding is an entry of an earlier attempt in `BUF[0 : CURSOR]` (R16). -/
def split (i : Instr) (s : State) : Except Refusal (Option Instr × State) :=
  match i with
  | .new channel _ spec _ order =>
    match newRefusal order s with
    | some r => .error r
    | none => .ok (none, invoke [.computeTimings channel.clockRate spec, i] s)
  | .encodePass colors =>
    match startRefusal colors s with
    | some r => .error r
    | none => .ok (some .beginBuf, invoke (passParts s.cfg s.table colors) { s with phase := .encoding, stream := colors })
  | .writeBlocking colors =>
    match startRefusal colors s with
    | some r => .error r
    | none => .ok (none, invoke (writeParts colors [] s) { s with waitMode := .blocking })
  | .writeSuspending colors w =>
    match startRefusal colors s with
    | some r => .error r
    | none => .ok (none, invoke (writeParts colors [.onComplete s.nextHandle w] s) { s with waitMode := .suspending })
  | .encodeColor c => .ok (none, invoke ((wireBytes s.cfg.channelOrder c).map .encodeByte) (takeColor s))
  | .encodeByte b => .ok (none, invoke ((byteBits b).map .encodeBit) s)
  | .computeTimings _ _ => .ok (some i, s)
  | .encodeBit _ => .ok (some i, s)
  | .beginBuf => .ok (some i, s)
  | .push _ => .ok (some i, s)
  | .finish => .ok (some i, s)
  | .submit _ => .ok (some i, s)
  | .pollComplete _ => .ok (some i, s)
  | .onComplete _ _ => .ok (some i, s)
  | .periphDone => .ok (some i, s)
  | .resume => .ok (some i, s)
  | .code0 _ _ => .ok (some i, s)
  | .code1 _ _ => .ok (some i, s)
  | .resetCode _ => .ok (some i, s)

/-! ### The turns of the other agents -/

/-- The blocked caller's poll: POLL_COMPLETE with the handle SUBMIT returned (R82). -/
def fetchPoll (rest : List Input) (s : State) : Except Refusal (Instr × State) :=
  match s.tx with
  | none => .error .notWaiting
  | some t =>
    if s.waitMode = .blocking then .ok (.pollComplete t.handle, { s with inputs := rest }) else .error .notWaiting

/-- The peripheral's next symbol: the frame's first pulse code not played yet (R32, R87). -/
def fetchPlay (rest : List Input) (s : State) : Except Refusal (Instr × State) :=
  match s.tx with
  | none => .error .noTransmission
  | some t =>
    match t.rest with
    | [] => .error .notNextPulse
    | p :: _ =>
      match decodeSymbol s.table.code0 s.table.code1 p with
      | .error _ => .error .illegalEncoding
      | .ok i => .ok (i, { s with inputs := rest })

/-- A fetched instruction to run as one step. -/
def whole (f : Except Refusal (Instr × State)) : Except Refusal (Option Instr × State) :=
  match f with
  | .error r => .error r
  | .ok (i, s) => .ok (some i, s)

/-- A fetched operation to run by its parts. -/
def byParts (f : Except Refusal (Instr × State)) : Except Refusal (Option Instr × State) :=
  match f with
  | .error r => .error r
  | .ok (i, s) => split i s

/-- What the schedule says moves next; `none` when no instruction runs. -/
def fetchInput (s : State) : Except Refusal (Option Instr × State) :=
  match s.inputs with
  | [] => .ok (none, s)
  | .calls bytes :: rest => whole (fetchCall bytes rest s)
  | .poll :: rest => whole (fetchPoll rest s)
  | .play :: rest => whole (fetchPlay rest s)
  | .report :: rest => .ok (some .periphDone, { s with inputs := rest })
  | .resume :: rest => .ok (some .resume, { s with inputs := rest })
  | .split :: .calls bytes :: rest => byParts (fetchCall bytes rest s)
  | .split :: rest => .ok (none, { s with inputs := rest })

/-- The next step of the operation in progress, as one step or by its parts. -/
def fetchPending (i : Instr) (s : State) : Except Refusal (Option Instr × State) :=
  match s.inputs with
  | .split :: rest => split i { s with inputs := rest }
  | _ => .ok (some i, s)

/-- It is the peripheral's turn: while PHASE is Transmitting it plays and reports when it will, also before the registration, which "does no
harm" (R83); at no other time does another agent's step fall between the steps of an operation (R10, R83). -/
def State.peripheralTurn (s : State) : Bool :=
  decide (s.phase = .transmitting) &&
    match s.inputs with
    | .play :: _ => true
    | .report :: _ => true
    | _ => false

/-- The next instruction, and the state with it taken off; `none` when this step runs no instruction. -/
def fetch (s : State) : Except Refusal (Option Instr × State) :=
  match s.pending with
  | [] => fetchInput s
  | i :: rest => if s.peripheralTurn then fetchInput s else fetchPending i { s with pending := rest }

/-! ### Placing one instruction (entry 1) -/

/-- The state in which the peripheral plays `p` next: `p` is the frame of a transmission in flight. -/
def loadPulse (p : PulseCode) (s : State) : State :=
  { s with phase := .transmitting, tx := some (newTx { tag := 0 } [p]), inputs := .play :: s.inputs }

/-- The caller invokes `i` next, in the phase from which `i` starts. -/
def loadCall (phase : Phase) (i : Instr) (s : State) : State :=
  { s with phase := phase, pending := [], inputs := .calls (encode i) :: s.inputs }

/-- `i` is the step the operation in progress comes to next, in the phase it runs in. -/
def loadPart (phase : Phase) (i : Instr) (s : State) : State := { s with phase := phase, pending := [i], inputs := [] }

/-- COMPUTE_TIMINGS is the step a NEW has come to: the NEW, of these operands and otherwise zeros, runs after it. -/
def loadTimings (clockRate : Nat) (spec : ProtocolSpec) (s : State) : State :=
  { s with
    phase := .unconstructed, inputs := []
    pending := [.computeTimings clockRate spec, .new { tag := 0, clockRate := clockRate } { tag := 0 } spec 0 [0, 1, 2]] }

/-- A transmission `t` is in flight, and the turn `turn` is next. -/
def loadTurn (t : Tx) (turn : Input) (s : State) : State :=
  { s with phase := .transmitting, tx := some t, pending := [], inputs := turn :: s.inputs }

/-- The state in which `i` runs next. PHASE is the stand-in for a program counter (R17), so it is set to where the block comes to `i`, and with
it what that place needs: for SUBMIT the frame FINISH returned, for the peripheral's interface a transmission in flight. -/
def loadInstr (i : Instr) (s : State) : State :=
  match i with
  | .new _ _ _ _ _ => loadCall .unconstructed i s
  | .computeTimings clockRate spec => loadTimings clockRate spec s
  | .encodeBit _ => loadPart .encoding i s
  | .encodeByte _ => loadPart .encoding i s
  | .encodeColor _ => loadPart .encoding i s
  | .beginBuf => loadPart .encoding i s
  | .push _ => loadPart .encoding i s
  | .finish => loadPart .encoding i s
  | .encodePass _ => loadPart .idle i s
  | .writeBlocking _ => loadCall .idle i s
  | .writeSuspending _ _ => loadCall .idle i s
  | .submit frame => loadPart .encoding i { s with ret := .frame frame }
  | .pollComplete h => loadTurn (newTx h []) .poll { s with waitMode := .blocking }
  | .onComplete h _ => loadPart .transmitting i { s with tx := some (newTx h []), waitMode := .suspending }
  | .periphDone => loadTurn (newTx { tag := 0 } []) .report s
  | .resume =>
    loadTurn { newTx { tag := 0 } [] with status := .reported .complete, waker := some { tag := 0 } } .resume
      { s with waitMode := .suspending, task := .suspended }
  | .code0 high low => loadPulse { l0 := .high, d0 := high, l1 := .low, d1 := low } s
  | .code1 high low => loadPulse { l0 := .high, d0 := high, l1 := .low, d1 := low } s
  | .resetCode ticks => loadPulse { l0 := .low, d0 := ticks, l1 := .low, d1 := 0 } s

end Sys2Proof.Machine
end

