-- ==== Sys2Proof/Machine/Step.lean ====
section
/-! DEFINITION. One step: the next instruction runs, and its invoker goes on. When no instruction is next, the state stays but for what the fetch has
taken off the schedule (entry 1). -/

namespace Sys2Proof.Machine

/-- An instruction's meaning, and then what its invoker does next without waiting. -/
def runInstr (i : Instr) (s : State) : Host.Outcome State Fault Refusal :=
  match exec i s with
  | .next t => .next (afterInstr i t)
  | .fault f => .fault f
  | .refused r => .refused r

/-- One step of the machine. -/
def step (s : State) : Host.Outcome State Fault Refusal :=
  match fetch s with
  | .error r => .refused r
  | .ok (none, s') => .next s'
  | .ok (some i, s') => runInstr i s'

/-- A table word where the next step fetches its instruction: a row of 32 bits is a pulse code for the peripheral to play; an operation is placed
where the block comes to it (`loadInstr`); bytes that encode nothing are the caller's next call. -/
def State.withFetchWord (s : State) (nbits w : Nat) : State :=
  if nbits = 32 then loadPulse (unpackPulse (BitVec.ofNat 32 w)) s
  else
    match decodeOp (tableBytes nbits w) with
    | .ok (i, _) => loadInstr i s
    | .error _ => { s with pending := [], inputs := .calls (tableBytes nbits w) :: s.inputs }

end Sys2Proof.Machine
end

