-- ==== Sys2Proof/Safety.lean ====
section
/-! DEFINITION. The terms in which claims are stated: the bits a colour sequence denotes, the invariant of the machine, the allowed transitions,
the test decoder of the spec, and runs with the peripheral's liveness premise. -/

namespace Sys2Proof.Machine

/-! ### Operations in sequence -/

/-- Instructions run one after the other, stopping at the first that has no next state. -/
def runOps : List Instr → State → Host.Outcome State Fault Refusal
  | [], s => .next s
  | i :: is, s =>
    match exec i s with
    | .next t => runOps is t
    | .fault f => .fault f
    | .refused r => .refused r

/-- `n` steps of the machine. -/
def runSteps : Nat → State → Host.Outcome State Fault Refusal
  | 0, s => .next s
  | n + 1, s =>
    match step s with
    | .next t => runSteps n t
    | .fault f => .fault f
    | .refused r => .refused r

/-! ### Frames -/

/-- The bits of a colour sequence in wire order (R30, R31). -/
def wireBits (cfg : Cfg) (colors : List Color) : List Bool :=
  colors.flatMap fun c => (wireBytes cfg.channelOrder c).flatMap byteBits

/-! ### The test decoder of R68 -/

/-- `decode_bit(p) = 1 if 2 * p.d0 > CODE_0.d0 + CODE_1.d0 else 0` (R68). -/
def decodeBit (t : TimingTable) (p : PulseCode) : Bool := decide (t.code0.d0 + t.code1.d0 < 2 * p.d0)

/-- `decode_byte([p7, ..., p0]) = sum over j of decode_bit(pj) * 2^j` (R68). -/
def decodePulses (t : TimingTable) (ps : List PulseCode) : Nat :=
  ps.foldl (fun acc p => 2 * acc + (decodeBit t p).toNat) 0

/-! ### The invariant -/

/-- The symbols of a table are pulse codes (R43). -/
def TimingTable.legal (t : TimingTable) : Bool := t.code0.legal && t.code1.legal && t.resetCode.legal

/-- A data symbol of the table, CODE_0 or CODE_1: what PUSH is given (R54). -/
def TimingTable.isData (t : TimingTable) (p : PulseCode) : Bool := decide (p = t.code0) || decide (p = t.code1)

/-- What an entry of BUF may hold: CODE_0, CODE_1 or RESET_CODE (R54). -/
def TimingTable.isSymbol (t : TimingTable) (p : PulseCode) : Bool := t.isData p || decide (p = t.resetCode)

/-- A frame of the block: data symbols, and RESET_CODE as its last entry and nowhere else (R54, R71). -/
def IsFrame (t : TimingTable) (frame : List PulseCode) : Prop :=
  ∃ codes, frame = codes ++ [t.resetCode] ∧ codes.all t.isData = true

/-- BUF is in canonical form, and its written entries are symbols of the table at indices below CAPACITY (R15, R28, R34, R54). -/
def BufInv (s : State) : Prop :=
  Memory.wf s.buf = true ∧
    ∀ i p, Memory.read s.buf i = some p → i < s.cfg.capacity ∧ s.table.isSymbol p = true

/-- `0 <= CURSOR <= CAPACITY`, and every entry of the filled prefix is written (R15, R16). -/
def CursorInv (s : State) : Prop :=
  s.cursor ≤ s.cfg.capacity ∧ s.filled.isSome = true

/-- `TX != none` exactly when PHASE is Transmitting; what is in flight is a frame and is `BUF[0 : CURSOR]`; its handle is a used one (R22, R38,
R54, R77). -/
def TxInv (s : State) : Prop :=
  (s.tx.isSome = true ↔ s.phase = .transmitting) ∧
    ∀ t, s.tx = some t →
      s.filled = some t.frame ∧ IsFrame s.table t.frame ∧ t.sent ≤ t.frame.length ∧ t.handle ∈ s.usedHandles

/-- A Suspended task waits for a suspending attempt in flight, with its waker registered (R22, R23). -/
def TaskInv (s : State) : Prop :=
  s.task = .suspended → s.waitMode = .suspending ∧ ∃ t, s.tx = some t ∧ t.wakerBit = true

/-- An adapter's table is the one its registers give, and its order is legal (R14, R41, R48). -/
def TableInv (s : State) : Prop :=
  s.table.legal = true ∧
    (s.phase ≠ .unconstructed →
      computeTimings s.cfg.clockRate s.cfg.spec = some s.table ∧ orderLegal s.cfg.channelOrder = true)

/-! #### The operation in progress (R52, R53, R100): what is left to run is the rest of a call, never anything else -/

/-- A step of an encode pass between its BEGIN and its FINISH: PUSH of a data symbol, or an encoder's operation. -/
def passStep (cfg : Cfg) (table : TimingTable) : Instr → Bool
  | .push p => table.isData p
  | .encodeColor c => cfg.fits c
  | .encodeByte _ => true
  | .encodeBit _ => true
  | .new _ _ _ _ _ => false
  | .computeTimings _ _ => false
  | .beginBuf => false
  | .finish => false
  | .encodePass _ => false
  | .writeBlocking _ => false
  | .writeSuspending _ _ => false
  | .submit _ => false
  | .pollComplete _ => false
  | .onComplete _ _ => false
  | .periphDone => false
  | .resume => false
  | .code0 _ _ => false
  | .code1 _ _ => false
  | .resetCode _ => false

/-- The pulse code a step of an encode pass pushes. -/
def pushedCode : Instr → Option PulseCode
  | .push p => some p
  | .encodeColor _ => none
  | .encodeByte _ => none
  | .encodeBit _ => none
  | .new _ _ _ _ _ => none
  | .computeTimings _ _ => none
  | .beginBuf => none
  | .finish => none
  | .encodePass _ => none
  | .writeBlocking _ => none
  | .writeSuspending _ _ => none
  | .submit _ => none
  | .pollComplete _ => none
  | .onComplete _ _ => none
  | .periphDone => none
  | .resume => none
  | .code0 _ _ => none
  | .code1 _ _ => none
  | .resetCode _ => none

/-- What a WRITE runs after SUBMIT and before its wait, by its wait strategy (R82, R83): nothing, or the registration for the transmission that
SUBMIT will create. -/
def WaitParts (s : State) (wait : List Instr) : Prop :=
  (s.waitMode = .blocking ∧ wait = []) ∨
    (s.waitMode = .suspending ∧ ∃ w, wait = [.onComplete s.nextHandle w])

/-- Before the adapter: nothing, or a NEW and what it invokes first (R26, R89). -/
def NewPending (s : State) : Prop :=
  s.pending = [] ∨
    ∃ channel pin spec leds order, orderLegal order = true ∧
      (s.pending = [.new channel pin spec leds order] ∨
        s.pending = [.computeTimings channel.clockRate spec, .new channel pin spec leds order])

/-- In Idle: nothing, or a WRITE that has not begun its encode pass (R82, R83). -/
def IdlePending (s : State) : Prop :=
  s.pending = [] ∨
    ∃ colors wait, colors.all s.cfg.fits = true ∧ WaitParts s wait ∧ s.pending = writeParts colors wait s

/-- In Encoding: a pass whose BEGIN has run and of which `codes` are in BUF, or the frame FINISH returned, still to be submitted. Either way
`BUF[0 : CURSOR]` is a beginning of the frame that this attempt is to submit (R16, R76, R82, R83). -/
def EncodingPending (s : State) : Prop :=
  ∃ codes steps wait, codes.all s.table.isData = true ∧ steps.all (passStep s.cfg s.table) = true ∧ WaitParts s wait ∧
    let submitted : List Instr := .submit (codes ++ steps.filterMap pushedCode ++ [s.table.resetCode]) :: wait
    (s.filled = some codes ∧ s.pending = steps ++ .finish :: submitted) ∨
      (steps = [] ∧ s.filled = some (codes ++ [s.table.resetCode]) ∧ s.ret = .frame (codes ++ [s.table.resetCode]) ∧
        s.pending = submitted)

/-- In Transmitting: the blocked caller waits; or the task is suspended, or about to be, once the waker is registered (R82, R83). -/
def TransmittingPending (s : State) : Prop :=
  (s.waitMode = .blocking ∧ s.task = .running ∧ s.pending = []) ∨
    (s.waitMode = .suspending ∧ s.task = .suspended ∧ s.pending = []) ∨
    (s.waitMode = .suspending ∧ s.task = .running ∧ ∃ t w, s.tx = some t ∧ s.pending = [.onComplete t.handle w])

/-- What is left to run is the rest of a call of the caller's interface, as far as PHASE says it has come. -/
def PendingInv (s : State) : Prop :=
  match s.phase with
  | .unconstructed => NewPending s
  | .idle => IdlePending s
  | .encoding => EncodingPending s
  | .transmitting => TransmittingPending s

/-- An adapter's capacity is within BUFFER_LIMIT (R89); kept apart from `Inv`, since nothing is known of the limit. -/
def LimitInv (s : State) : Prop :=
  s.phase ≠ .unconstructed → allocFails Config.bufferLimit s.cfg.capacity = false

/-- The invariant of the machine. -/
def Inv (s : State) : Prop :=
  BufInv s ∧ CursorInv s ∧ TxInv s ∧ TaskInv s ∧ TableInv s ∧ PendingInv s

/-! ### Transitions of PHASE -/

/-- The transitions of R74, the pass as one step or as its parts, and staying in a phase. -/
def phaseStep : Phase → Phase → Bool
  | .unconstructed, .unconstructed => true
  | .unconstructed, .idle => true
  | .idle, .idle => true
  | .idle, .encoding => true
  | .idle, .transmitting => true
  | .encoding, .encoding => true
  | .encoding, .transmitting => true
  | .encoding, .idle => true
  | .transmitting, .transmitting => true
  | .transmitting, .idle => true
  | _, _ => false

/-! ### Runs -/

/-- An infinite run: every state's step answers the next one. -/
def IsRun (r : Nat → State) : Prop := ∀ n, step (r n) = .next (r (n + 1))

/-- PERIPH_LIVENESS for a blocking attempt in flight at `n` (D19): at some later point of the run its wait is over, or its status is no longer
Pending and the blocked caller polls. A premise of claims, never a rule of the machine. -/
def WaitServed (r : Nat → State) (n : Nat) : Prop :=
  ∃ m, n ≤ m ∧ ((r m).phase ≠ .transmitting ∨
    ∃ t rep rest, (r m).tx = some t ∧ t.status = .reported rep ∧ (r m).waitMode = .blocking ∧ (r m).pending = [] ∧
      (r m).inputs = .poll :: rest)

/-- PERIPH_LIVENESS for a suspending attempt in flight at `n` (D19, R81): at some later point of the run its wait is over, or its status is no
longer Pending, the registration has been made, and the scheduler runs RESUME. A premise of claims, never a rule of the machine. -/
def ResumeServed (r : Nat → State) (n : Nat) : Prop :=
  ∃ m, n ≤ m ∧ ((r m).phase ≠ .transmitting ∨
    ∃ t rep rest, (r m).tx = some t ∧ t.status = .reported rep ∧ (r m).waitMode = .suspending ∧ (r m).pending = [] ∧
      (r m).inputs = .resume :: rest)

end Sys2Proof.Machine
end

