-- ==== Sys2Proof/Certificates/Slice0/Obligations.lean ====
section
/-! DEFINITION. The statements for the provers. A statement about a value the spec's writer or the model chose names the decision or the log
entry in its docstring. -/

open Sys2Proof Sys2Proof.Machine

/-! ### Encodings -/

/-- Words written out from R44's layout and R52's numbers (D7, D16) decode to the instructions they stand for. The operand bytes, and that a first
byte with a high half other than zero is refused, are the model's (entry 2); that, outside a timing table, the word whose High part is the
shorter one reads as CODE_0 and the other as CODE_1 is the model's (entry 3), since R44 and R52 do not tell the two rows apart. -/
def Obligations.DecodeReadsSpecWords : Prop :=
  decodeOp [0x05] = .ok (.beginBuf, []) ∧
  decodeOp [0x02, 0x01] = .ok (.encodeBit true, []) ∧
  decodeOp [0x03, 0xB0] = .ok (.encodeByte 0xB0, []) ∧
  decodeOp [0x06, 0x1C, 0x80, 0x40, 0x00] = .ok (.push { l0 := .high, d0 := 28, l1 := .low, d1 := 64 }, []) ∧
  decodeOp [0x10] = .error .reservedOpcode ∧
  decodeTableWord 8 14 = some .periphDone ∧
  decodeTableWord 32 0x0040801C = some (.code0 28 64) ∧
  decodeTableWord 32 0x00308038 = some (.code1 56 48) ∧
  decodeTableWord 32 0x00005780 = some (.resetCode 22400)

/-- The packed word of R44 (D7): unpacking a packed pulse code gives it back, and packing an unpacked word gives it back. -/
def Obligations.PulseWordRoundTrip : Prop :=
  (∀ p : PulseCode, p.legal = true → unpackPulse (packPulse p) = p) ∧
  ∀ w : PulseWord, (unpackPulse w).legal = true ∧ packPulse (unpackPulse w) = w

/-- Every well-formed operation, with operands at every value, is read back from its encoding, whatever follows it (entry 2). -/
def Obligations.DecodeOfEncodeIsTheOperation : Prop :=
  ∀ (i : Instr) (rest : List Byte), i.wellFormed = true → symbolPulse i = none → decodeOp (encode i ++ rest) = .ok (i, rest)

/-- Bytes that decode are the encoding of the well-formed operation read, followed by the rest: no bytes have two readings (entry 2). -/
def Obligations.EncodeOfDecodeIsTheBytes : Prop :=
  ∀ (bs rest : List Byte) (i : Instr), decodeOp bs = .ok (i, rest) →
    i.wellFormed = true ∧ symbolPulse i = none ∧ bs = encode i ++ rest

/-- A symbol's word is read back as its pulse code, and the pulse code as the symbol the timing table says it is (R45, R46; entry 3: the
two data rows of the table share their bits). A pulse code that is read at all is read as a symbol with that very code and with legal
durations: one with a duration 0 where R54 calls it illegal is refused by name. -/
def Obligations.SymbolWordsDecode : Prop :=
  (∀ (i : Instr) (p code0 code1 : PulseCode) (rest : List Byte), i.wellFormed = true → symbolPulse i = some p →
    decodePulse (encode i ++ rest) = .ok (p, rest) ∧
    ((∃ high low, i = .code0 high low) → p = code0 → decodeSymbol code0 code1 p = .ok i) ∧
    ((∃ high low, i = .code1 high low) → p = code1 → code0 ≠ code1 → decodeSymbol code0 code1 p = .ok i) ∧
    ((∃ ticks, i = .resetCode ticks) → decodeSymbol code0 code1 p = .ok i)) ∧
  (∀ (i : Instr) (p code0 code1 : PulseCode), decodeSymbol code0 code1 p = .ok i →
    i.wellFormed = true ∧ symbolPulse i = some p) ∧
  ∀ (p code0 code1 : PulseCode), p.l1 = .low →
    (p.l0 = .high → p.d0 = 0 ∨ p.d1 = 0 → decodeSymbol code0 code1 p = .error .illegalDuration) ∧
    (p.l0 = .low → p.d1 = 0 → p.d0 = 0 → decodeSymbol code0 code1 p = .error .illegalDuration)

/-- A CHANNEL_ORDER is exactly a permutation of `[0,1,2]` or of `[0,1,2,3]`, and there are 30 (R48, D8). -/
def Obligations.ChannelOrdersAreThePermutations : Prop :=
  (∀ o : List Nat, orderLegal o = true ↔ o.Perm [0, 1, 2] ∨ o.Perm [0, 1, 2, 3]) ∧
  (∀ o : List Nat, orderLegal o = true ↔ o ∈ channelOrders) ∧ channelOrders.Nodup ∧ channelOrders.length = 30

/-- A step runs the instruction that comes next, and then what its invoker does next (entry 1). The next step of the operation in progress goes
first, unless the peripheral takes a turn while PHASE is Transmitting (R10, R83). With none in progress: a decoded call of the caller's
interface, which is NEW and the two WRITEs (R52); the blocked caller's poll; the scheduler's RESUME; the peripheral's report or next symbol.
A call of any other operation is refused, as are bytes that encode none, and with an empty schedule nothing moves. -/
def Obligations.StepRunsTheFetchedInstruction : Prop :=
  (∀ i : Instr, external i = true ↔
    (∃ channel pin spec leds order, i = .new channel pin spec leds order) ∨ (∃ colors, i = .writeBlocking colors) ∨
      ∃ colors w, i = .writeSuspending colors w) ∧
  ∀ (s : State) (rest : List Input),
    let run (i : Instr) (s' : State) : Host.Outcome State Fault Refusal :=
      match exec i s' with
      | .next t => .next (afterInstr i t)
      | .fault f => .fault f
      | .refused r => .refused r
    (∀ i ps, s.pending = i :: ps → s.inputs.head? ≠ some .split →
      ¬ (s.phase = .transmitting ∧ (s.inputs.head? = some .play ∨ s.inputs.head? = some .report)) →
      step s = run i { s with pending := ps }) ∧
    (s.pending = [] →
      (∀ bytes more i, s.inputs = .calls bytes :: rest → decodeOp bytes = .ok (i, more) →
        (external i = true → step s = run i { s with inputs := remaining more rest }) ∧
        (external i = false → step s = .refused .internalOperation)) ∧
      (∀ bytes e, s.inputs = .calls bytes :: rest → decodeOp bytes = .error e → step s = .refused .illegalEncoding) ∧
      (∀ x, s.inputs = .poll :: rest → s.tx = some x → s.waitMode = .blocking →
        step s = run (.pollComplete x.handle) { s with inputs := rest }) ∧
      (s.inputs = .resume :: rest → step s = run .resume { s with inputs := rest }) ∧
      (s.inputs = [] → step s = .next s)) ∧
    (s.pending = [] ∨ s.phase = .transmitting →
      (s.inputs = .report :: rest → step s = run .periphDone { s with inputs := rest }) ∧
      ∀ x p ps i, s.inputs = .play :: rest → s.tx = some x → x.frame.drop x.sent = p :: ps →
        decodeSymbol s.table.code0 s.table.code1 p = .ok i → step s = run i { s with inputs := rest })

/-! ### The timing table -/

/-- The properties of R57 (marked as derived there; rounding half up is D3): the tick count is the nearest integer, a tie goes up, it is
monotone in both arguments, and it is 0 exactly below half a tick. -/
def Obligations.TicksRoundToNearest : Prop :=
  ∀ d c : Nat,
    2 * 1000000000 * nsToTicks d c ≤ 2 * (d * c) + 1000000000 ∧
    2 * (d * c) < 2 * 1000000000 * nsToTicks d c + 1000000000 ∧
    (nsToTicks d c = 0 ↔ d * c < 500000000) ∧
    ∀ d' c', d ≤ d' → c ≤ c' → nsToTicks d c ≤ nsToTicks d' c'

/-- R58: the pulse codes' tick counts are within one tick of `duration_ns * clock_rate / 1e9`. -/
def Obligations.TimingsWithinOneTick : Prop :=
  ∀ (clock : Nat) (spec : ProtocolSpec) (t : TimingTable), computeTimings clock spec = some t →
    ∀ d ticks, (d, ticks) ∈ [(spec.t0h, t.code0.d0), (spec.t0l, t.code0.d1), (spec.t1h, t.code1.d0),
        (spec.t1l, t.code1.d1), (spec.reset, t.resetCode.d0)] →
      d * clock ≤ (ticks + 1) * 1000000000 ∧ ticks * 1000000000 ≤ d * clock + 1000000000

/-- R60: COMPUTE_TIMINGS fails exactly when a computed tick count is 0 or above TICK_MAX; else the symbols are R59's (their shapes: D5, D6). -/
def Obligations.TimingsFailExactlyOutOfRange : Prop :=
  ∀ (clock : Nat) (spec : ProtocolSpec),
    (computeTimings clock spec = none ↔
      ∃ d ∈ [spec.t0h, spec.t0l, spec.t1h, spec.t1l, spec.reset],
        nsToTicks d clock = 0 ∨ 32767 < nsToTicks d clock) ∧
    ∀ t, computeTimings clock spec = some t → t =
      { code0 := { l0 := .high, d0 := nsToTicks spec.t0h clock, l1 := .low, d1 := nsToTicks spec.t0l clock }
        code1 := { l0 := .high, d0 := nsToTicks spec.t1h clock, l1 := .low, d1 := nsToTicks spec.t1l clock }
        resetCode := { l0 := .low, d0 := nsToTicks spec.reset clock, l1 := .low, d1 := 0 } }

/-- R111 (marked as derived there): the clock rates the source's protocol spec admits. -/
def Obligations.SourceSpecClockRange : Prop :=
  ∀ clock : Nat,
    (computeTimings clock { t0h := 350, t0l := 800, t1h := 700, t1l := 600, reset := 280000 }).isSome = true ↔
      1428572 ≤ clock ∧ clock ≤ 117026785

/-- COMPUTE_TIMINGS as the part of a NEW returns what R59 and R60 give and changes nothing else (RET is entry 12). Anywhere else it has no step:
only NEW invokes it (R52), in Unconstructed only NEW is enabled (R26), and InvalidTiming arises only inside NEW (R60). That a NEW is in
progress when its step is the next one left to run is the model's (entry 10). -/
def Obligations.ComputeTimingsReturnsTheTable : Prop :=
  ∀ (clock : Nat) (spec : ProtocolSpec) (s : State),
    (∀ channel pin spec' leds order ps, s.pending = .new channel pin spec' leds order :: ps →
      exec (.computeTimings clock spec) s = .next { s with
        ret := match computeTimings clock spec with
          | some t => .timings t
          | none => .raised (.construct .invalidTiming) }) ∧
    ((∀ channel pin spec' leds order ps, s.pending ≠ .new channel pin spec' leds order :: ps) →
      exec (.computeTimings clock spec) s = .refused .internalOperation)

/-! ### Construction -/

/-- NEW in PHASE Unconstructed (R89; its decisions D10, D11, D12, D22). For every BUFFER_LIMIT: an adapter with the registers as given when
neither error applies; else ConstructFailed with the error that applies, or with either when both do, and nothing else but the draw. -/
def Obligations.NewConstructsOrFails : Prop :=
  ∀ (channel : Channel) (pin : Pin) (spec : ProtocolSpec) (leds : Nat) (order : List Nat) (s : State),
    s.phase = .unconstructed → orderLegal order = true →
    let cfg : Cfg :=
      { clockRate := channel.clockRate, t0hNs := spec.t0h, t0lNs := spec.t0l, t1hNs := spec.t1h, t1lNs := spec.t1l
        tresetNs := spec.reset, maxLedCount := leds, channelOrder := order, channel := channel, pin := pin }
    exec (.new channel pin spec leds order) s = .next (newAdapter Config.bufferLimit cfg s) ∧
    ∀ limit : Option Nat,
      let tooBig := ∃ l, limit = some l ∧ l < leds * (8 * order.length) + 1
      let failed (k : ConstructError) (n : Nat) : State :=
        { s with history := s.history ++ [.constructFailed k], ret := .raised (.construct k), draws := s.draws + n }
      (∀ t, ¬ tooBig → computeTimings channel.clockRate spec = some t → newAdapter limit cfg s =
        { s with
          cfg := cfg, table := t, buf := [], cursor := 0, tx := none, result := none, task := .running, phase := .idle
          history := s.history ++ [.constructed cfg t], usedHandles := [], ret := .adapter }) ∧
      (∀ t, tooBig → computeTimings channel.clockRate spec = some t →
        newAdapter limit cfg s = failed .allocationFailed 0) ∧
      (¬ tooBig → computeTimings channel.clockRate spec = none → newAdapter limit cfg s = failed .invalidTiming 0) ∧
      (tooBig → computeTimings channel.clockRate spec = none →
        newAdapter limit cfg s = failed .allocationFailed 1 ∨ newAdapter limit cfg s = failed .invalidTiming 1)

/-- NEW has no step once the adapter exists, nor with a list that is no CHANNEL_ORDER (R89's precondition, R54, D8). -/
def Obligations.NewOnlyBeforeTheAdapter : Prop :=
  ∀ (channel : Channel) (pin : Pin) (spec : ProtocolSpec) (leds : Nat) (order : List Nat) (s : State),
    (s.phase ≠ .unconstructed → exec (.new channel pin spec leds order) s = .refused .adapterExists) ∧
    (s.phase = .unconstructed → orderLegal order = false →
      exec (.new channel pin spec leds order) s = .refused .illegalOrder)

/-! ### The encoder -/

/-- R63. -/
def Obligations.EncodeBitSelectsTheSymbol : Prop :=
  ∀ (bit : Bool) (s : State), s.phase ≠ .unconstructed →
    exec (.encodeBit bit) s = .next { s with ret := .code (if bit = true then s.table.code1 else s.table.code0) }

/-- R64: exactly 8 pulse codes, that of bit 7 first. -/
def Obligations.EncodeByteMostSignificantFirst : Prop :=
  ∀ (b : Byte) (s : State), s.phase ≠ .unconstructed →
    ∃ ps : List PulseCode, exec (.encodeByte b) s = .next { s with ret := .codes ps } ∧ ps.length = 8 ∧
      ∀ j, j ≤ 7 → ps[7 - j]? = some (if b.getLsbD j = true then s.table.code1 else s.table.code0)

/-- R65: `8 * NCH` pulse codes, the bytes in CHANNEL_ORDER, every byte of the colour once and unchanged. -/
def Obligations.EncodeColorInChannelOrder : Prop :=
  ∀ (color : Color) (s : State), s.phase ≠ .unconstructed → orderLegal s.cfg.channelOrder = true →
    color.length = s.cfg.channelOrder.length →
    (∃ ps : List PulseCode, exec (.encodeColor color) s = .next { s with ret := .codes ps } ∧
      ps.length = 8 * s.cfg.channelOrder.length ∧
      ∀ k field b, s.cfg.channelOrder[k]? = some field → color[field]? = some b → ∀ j, j ≤ 7 →
        ps[8 * k + (7 - j)]? = some (if b.getLsbD j = true then s.table.code1 else s.table.code0)) ∧
    (wireBytes s.cfg.channelOrder color).Perm color

/-- R68's round-trip law, with the proviso `T1H > T0H` that R68 derives. -/
def Obligations.ByteRoundTripLaw : Prop :=
  ∀ (t : TimingTable) (b : Byte), t.code0.d0 < t.code1.d0 → decodePulses t (encodeByte t b) = b.toNat

/-! ### The buffer -/

/-- R69: CURSOR becomes 0, and BEGIN changes nothing else. -/
def Obligations.BeginResetsCursorOnly : Prop :=
  ∀ s : State, s.phase = .encoding → exec .beginBuf s = .next { s with cursor := 0, ret := .unit }

/-- R70, of any pulse code: with `CURSOR < CAPACITY` the code is stored at CURSOR and CURSOR advances by one; else PUSH raises BufferOverflow and
writes nothing, and the error is taken as R97 says (CURSOR 0 is D13, entry 11; nothing of the operation is left to run). -/
def Obligations.PushAppendsOrRaises : Prop :=
  ∀ (p : PulseCode) (s : State), s.phase = .encoding →
    (s.cursor < s.cfg.capacity →
      exec (.push p) s = .next { s with buf := Memory.write s.buf s.cursor p, cursor := s.cursor + 1, ret := .unit } ∧
      ∀ k, Memory.read (Memory.write s.buf s.cursor p) k = if k = s.cursor then some p else Memory.read s.buf k) ∧
    (s.cfg.capacity ≤ s.cursor →
      appendCode p s = none ∧ exec (.push p) s = .next { s with
        phase := .idle, cursor := 0, tx := none, task := .running, pending := []
        result := some (.failed .bufferOverflow)
        history := s.history ++ [.returned (.failed .bufferOverflow)]
        ret := .raised (.write .bufferOverflow) })

/-- R71: with room, the marker is stored at CURSOR, CURSOR advances, and the new filled prefix is returned; else FINISH raises
BufferOverflow and writes nothing, and the error is taken as R97 says (CURSOR 0 is D13, entry 11). A prefix with an entry that holds
`unwritten` is the model's fault (R35, D29). -/
def Obligations.FinishAppendsMarkerOrRaises : Prop :=
  ∀ s : State, s.phase = .encoding →
    (s.cursor < s.cfg.capacity → s.filled = none → exec .finish s = .fault .unwrittenRead) ∧
    (∀ pre, s.cursor < s.cfg.capacity → s.filled = some pre →
      exec .finish s = .next { s with
        buf := Memory.write s.buf s.cursor s.table.resetCode, cursor := s.cursor + 1
        ret := .frame (pre ++ [s.table.resetCode]) }) ∧
    (s.cfg.capacity ≤ s.cursor →
      appendCode s.table.resetCode s = none ∧ exec .finish s = .next { s with
        phase := .idle, cursor := 0, tx := none, task := .running, pending := []
        result := some (.failed .bufferOverflow)
        history := s.history ++ [.returned (.failed .bufferOverflow)]
        ret := .raised (.write .bufferOverflow) })

/-- R36: a read returns the last value stored in the entry; a store leaves every other entry alone and keeps the canonical form. -/
def Obligations.BufReadsTheLastWrite : Prop :=
  ∀ (m : Memory) (i k : Nat) (c d : PulseCode),
    Memory.read (Memory.write (Memory.write m i c) i d) i = some d ∧
    (k ≠ i → Memory.read (Memory.write m i c) k = Memory.read m k) ∧
    (Memory.wf m = true → Memory.wf (Memory.write m i c) = true)

/-- The boundary law (R73, marked as derived there; 90_conflicts.md C2): BEGIN, m PUSHes and FINISH succeed for m up to
DATA_CAPACITY; one more PUSH still succeeds, and the FINISH or PUSH after it raises BufferOverflow with nothing submitted. That the raise
ends the attempt in the same step is the model's (entry 11). -/
def Obligations.BoundaryLaw : Prop :=
  ∀ (codes : List PulseCode) (p : PulseCode) (s : State), s.phase = .encoding →
    (codes.length ≤ s.cfg.dataCapacity →
      ∃ t, runOps (.beginBuf :: codes.map .push ++ [.finish]) s = .next t ∧ t.phase = .encoding ∧
        t.ret = .frame (codes ++ [s.table.resetCode])) ∧
    (codes.length = s.cfg.dataCapacity + 1 →
      ∃ u, runOps (.beginBuf :: codes.map .push) s = .next u ∧ u.phase = .encoding ∧ u.cursor = u.cfg.capacity ∧
        ∀ i, i = .finish ∨ i = .push p →
          ∃ t, exec i u = .next t ∧ t.phase = .idle ∧ t.result = some (.failed .bufferOverflow) ∧
            t.history = s.history ++ [.returned (.failed .bufferOverflow)])

/-! ### The encode pass and the two WRITE operations -/

/-- R50's closed form (marked as derived there). -/
def Obligations.FrameClosedForm : Prop :=
  ∀ (cfg : Cfg) (t : TimingTable) (colors : List Color), orderLegal cfg.channelOrder = true →
    colors.all cfg.fits = true →
    (frameOf cfg t colors).length = colors.length * cfg.bitsPerColor + 1 ∧
    (frameOf cfg t colors)[colors.length * cfg.bitsPerColor]? = some t.resetCode ∧
    ∀ (i k j field : Nat) (color : Color) (b : Byte), colors[i]? = some color → cfg.channelOrder[k]? = some field →
      color[field]? = some b → j ≤ 7 →
      (frameOf cfg t colors)[i * cfg.bitsPerColor + 8 * k + (7 - j)]? =
        some (if b.getLsbD j = true then t.code1 else t.code0)

/-- ENCODE_PASS of at most MAX_LED_COUNT colours (R76): PHASE Encoding, BUF holds the frame from index 0 on and is otherwise unchanged,
CURSOR is its length, the frame is returned, the stream is consumed; nothing else changes. -/
def Obligations.EncodePassBuildsTheFrame : Prop :=
  ∀ (colors : List Color) (s : State), s.phase = .idle → colors.all s.cfg.fits = true →
    colors.length ≤ s.cfg.maxLedCount →
    ∃ m : Memory,
      exec (.encodePass colors) s = .next { s with
        phase := .encoding, stream := [], buf := m, cursor := colors.length * s.cfg.bitsPerColor + 1
        ret := .frame (frameOf s.cfg s.table colors) } ∧
      ∀ k, Memory.read m k =
        if k < colors.length * s.cfg.bitsPerColor + 1 then (frameOf s.cfg s.table colors)[k]? else Memory.read s.buf k

/-- ENCODE_PASS of more colours (R76; D13, D30): BufferOverflow at the second code of colour number MAX_LED_COUNT. BUF is full of data
codes, the colours after that one stay in the stream, the attempt has ended, and nothing is submitted. -/
def Obligations.EncodePassOverflow : Prop :=
  ∀ (colors : List Color) (s : State), s.phase = .idle → orderLegal s.cfg.channelOrder = true →
    colors.all s.cfg.fits = true → s.cfg.maxLedCount < colors.length →
    ∃ m : Memory,
      exec (.encodePass colors) s = .next { s with
        phase := .idle, stream := colors.drop (s.cfg.maxLedCount + 1), buf := m, cursor := 0, tx := none
        task := .running, pending := [], result := some (.failed .bufferOverflow)
        history := s.history ++ [.returned (.failed .bufferOverflow)]
        ret := .raised (.write .bufferOverflow) } ∧
      ∀ k, Memory.read m k =
        if k < s.cfg.capacity then (dataCodes s.cfg s.table colors)[k]? else Memory.read s.buf k

/-- The expansion of ENCODE_PASS (R53, R76, D23): as one step it leaves the state that BEGIN, one PUSH per data code and FINISH leave; and when the
machine runs it by its parts (entry 10), so many steps later it is in the state that the one step leaves, with what was left to run and
the rest of the schedule still to come. -/
def Obligations.EncodePassIsItsExpansion : Prop :=
  ∀ (colors : List Color) (s : State), s.phase = .idle → colors.all s.cfg.fits = true →
    colors.length ≤ s.cfg.maxLedCount →
    exec (.encodePass colors) s =
      runOps (.beginBuf :: (dataCodes s.cfg s.table colors).map .push ++ [.finish])
        { s with phase := .encoding, stream := [] } ∧
    ∀ (ps : List Instr) (rest : List Input), rest.head? ≠ some .split →
      ∃ n t, exec (.encodePass colors) s = .next t ∧
        runSteps n { s with pending := .encodePass colors :: ps, inputs := .split :: rest } =
          .next { t with pending := ps, inputs := rest }

/-- The expansions of the two WRITE operations up to their waits (R53, R82, R83): ENCODE_PASS, SUBMIT, and for the suspending variant
ON_COMPLETE with the handle SUBMIT returned, after which the task is Suspended. A call run by its parts (entry 10) has exactly these left to
run, with WAIT_MODE written. -/
def Obligations.WritesAreTheirExpansions : Prop :=
  ∀ (colors : List Color) (w : Waker) (s : State), s.phase = .idle → s.table.legal = true →
    colors.all s.cfg.fits = true →
    (colors.length ≤ s.cfg.maxLedCount →
      exec (.writeBlocking colors) s =
        runOps [.encodePass colors, .submit (frameOf s.cfg s.table colors)] { s with waitMode := .blocking } ∧
      ∃ t, runOps [.encodePass colors, .submit (frameOf s.cfg s.table colors), .onComplete s.nextHandle w]
          { s with waitMode := .suspending } = .next t ∧
        exec (.writeSuspending colors w) s = .next (afterInstr (.onComplete s.nextHandle w) t) ∧
        afterInstr (.onComplete s.nextHandle w) t = { t with task := .suspended }) ∧
    ∀ bytes more rest, s.pending = [] → s.inputs = .split :: .calls bytes :: rest →
      (decodeOp bytes = .ok (.writeBlocking colors, more) →
        step s = .next { s with
          waitMode := .blocking, inputs := remaining more rest
          pending := [.encodePass colors, .submit (frameOf s.cfg s.table colors)] }) ∧
      (decodeOp bytes = .ok (.writeSuspending colors w, more) →
        step s = .next { s with
          waitMode := .suspending, inputs := remaining more rest
          pending := [.encodePass colors, .submit (frameOf s.cfg s.table colors), .onComplete s.nextHandle w] })

/-- WRITE_BLOCKING that fits (R82): the frame is in BUF and in flight with status Pending, PHASE is Transmitting, WAIT_MODE Blocking. -/
def Obligations.WriteBlockingSubmitsTheFrame : Prop :=
  ∀ (colors : List Color) (s : State), s.phase = .idle → colors.all s.cfg.fits = true →
    colors.length ≤ s.cfg.maxLedCount →
    ∃ (m : Memory) (h : Handle), h ∉ s.usedHandles ∧
      exec (.writeBlocking colors) s = .next { s with
        waitMode := .blocking, phase := .transmitting, stream := [], buf := m
        cursor := colors.length * s.cfg.bitsPerColor + 1
        tx := some { handle := h, frame := frameOf s.cfg s.table colors, status := .pending, waker := none, sent := 0 }
        history := s.history ++ [.submit h (frameOf s.cfg s.table colors)]
        usedHandles := h :: s.usedHandles, draws := s.draws + 1, ret := .handle h } ∧
      ∀ k, Memory.read m k =
        if k < colors.length * s.cfg.bitsPerColor + 1 then (frameOf s.cfg s.table colors)[k]? else Memory.read s.buf k

/-- WRITE_SUSPENDING that fits (R83): as WRITE_BLOCKING, with WAIT_MODE Suspending, the waker registered and the task Suspended. -/
def Obligations.WriteSuspendingSubmitsAndSuspends : Prop :=
  ∀ (colors : List Color) (w : Waker) (s : State), s.phase = .idle → colors.all s.cfg.fits = true →
    colors.length ≤ s.cfg.maxLedCount →
    ∃ (m : Memory) (h : Handle), h ∉ s.usedHandles ∧
      exec (.writeSuspending colors w) s = .next { s with
        waitMode := .suspending, phase := .transmitting, stream := [], buf := m
        cursor := colors.length * s.cfg.bitsPerColor + 1
        tx := some { handle := h, frame := frameOf s.cfg s.table colors, status := .pending, waker := some w, sent := 0 }
        task := .suspended
        history := s.history ++ [.submit h (frameOf s.cfg s.table colors)]
        usedHandles := h :: s.usedHandles, draws := s.draws + 1, ret := .unit } ∧
      ∀ k, Memory.read m k =
        if k < colors.length * s.cfg.bitsPerColor + 1 then (frameOf s.cfg s.table colors)[k]? else Memory.read s.buf k

/-- A WRITE of too many colours (R76, R97): it returns BufferOverflow, nothing is submitted or transmitted, no task is suspended, and the
adapter is in Idle with CURSOR 0 (D13) and BUF full of data codes. -/
def Obligations.WriteOverflowTransmitsNothing : Prop :=
  ∀ (colors : List Color) (w : Waker) (s : State), s.phase = .idle → orderLegal s.cfg.channelOrder = true →
    colors.all s.cfg.fits = true → s.cfg.maxLedCount < colors.length →
    ∃ m : Memory, (∀ k, Memory.read m k =
        if k < s.cfg.capacity then (dataCodes s.cfg s.table colors)[k]? else Memory.read s.buf k) ∧
      ∀ i mode, (i = .writeBlocking colors ∧ mode = .blocking) ∨ (i = .writeSuspending colors w ∧ mode = .suspending) →
      exec i s = .next { s with
        waitMode := mode, phase := .idle, stream := colors.drop (s.cfg.maxLedCount + 1), buf := m, cursor := 0
        tx := none, task := .running, pending := [], result := some (.failed .bufferOverflow)
        history := s.history ++ [.returned (.failed .bufferOverflow)]
        ret := .raised (.write .bufferOverflow) }

/-- The two variants are one algorithm with two wait strategies (R84): from one state, with the same draws, they submit the same frame from
the same BUF and, when the peripheral has reported, end in states that differ in WAIT_MODE only. That a WRITE's step ends where it waits,
and that the poll and RESUME are later steps, is the model's (entry 9). -/
def Obligations.WriteVariantsAgree : Prop :=
  ∀ (colors : List Color) (w : Waker) (s : State), s.phase = .idle → s.task = .running → colors.all s.cfg.fits = true →
    colors.length ≤ s.cfg.maxLedCount →
    ∃ (b1 b2 b3 u1 u2 u3 : State) (h : Handle),
      exec (.writeBlocking colors) s = .next b1 ∧ exec .periphDone b1 = .next b2 ∧ exec (.pollComplete h) b2 = .next b3 ∧
      exec (.writeSuspending colors w) s = .next u1 ∧ exec .periphDone u1 = .next u2 ∧ exec .resume u2 = .next u3 ∧
      b1.buf = u1.buf ∧ b1.cursor = u1.cursor ∧ b1.history = u1.history ∧
      b1.tx.map Tx.frame = u1.tx.map Tx.frame ∧
      (afterInstr (.pollComplete h) b3).phase = .idle ∧
      u3 = { afterInstr (.pollComplete h) b3 with waitMode := .suspending }

/-- R67: the ENCODE operations are functions of their operand and of CODE_0, CODE_1 and CHANNEL_ORDER alone and write nothing; what an
encode pass puts in BUF and returns depends on the registers and the colours only, not on what earlier attempts left. -/
def Obligations.FramesDependOnlyOnTheColours : Prop :=
  (∀ (bit : Bool) (b : Byte) (c : Color) (i : Instr) (s1 s2 t1 : State),
    i ∈ [.encodeBit bit, .encodeByte b, .encodeColor c] → s1.phase ≠ .unconstructed → s2.phase ≠ .unconstructed →
    s1.table.code0 = s2.table.code0 → s1.table.code1 = s2.table.code1 → s1.cfg.channelOrder = s2.cfg.channelOrder →
    exec i s1 = .next t1 →
    t1 = { s1 with ret := t1.ret } ∧ exec i s2 = .next { s2 with ret := t1.ret }) ∧
  ∀ (colors : List Color) (s1 s2 t1 t2 : State), s1.cfg = s2.cfg → s1.table = s2.table →
    exec (.encodePass colors) s1 = .next t1 → exec (.encodePass colors) s2 = .next t2 →
    t1.phase = t2.phase ∧ t1.cursor = t2.cursor ∧ t1.ret = t2.ret ∧ t1.filled = t2.filled

/-- Where the operations have no step. An attempt starts only in Idle and only with colours of NCH bytes (R75, D15, R26, D9). Before NEW no encoder's
operation has one either ("The only operation enabled in `Unconstructed` is NEW", R26; of COMPUTE_TIMINGS, a part of NEW, see
ComputeTimingsReturnsTheTable). BEGIN, PUSH and FINISH act "only while PHASE is Encoding" (42_pulse_buffer.md), and SUBMIT with them (R74);
POLL_COMPLETE, ON_COMPLETE, PERIPH_DONE and RESUME need a transmission in flight (R78 to R81). ENCODE_COLOR of a colour that is not NCH bytes has no
step either (R54, D9). The spec gives the symbols no step of their own: that they need a transmission in flight is entry 4, and that one with
illegal durations has none in any state is entry 21. -/
def Obligations.AttemptsStartOnlyInIdle : Prop :=
  (∀ (colors : List Color) (w : Waker) (s : State) (i : Instr),
    i = .encodePass colors ∨ i = .writeBlocking colors ∨ i = .writeSuspending colors w →
    (s.phase = .unconstructed → exec i s = .refused .noAdapter) ∧
    (s.busy = true → exec i s = .refused .busy) ∧
    (s.phase = .idle → (∃ c ∈ colors, c.length ≠ s.cfg.channelOrder.length) → exec i s = .refused .colorWidth)) ∧
  (∀ (bit : Bool) (b : Byte) (c : Color) (s : State) (i : Instr), i ∈ [.encodeBit bit, .encodeByte b, .encodeColor c] →
    s.phase = .unconstructed → exec i s = .refused .noAdapter) ∧
  (∀ (c : Color) (s : State), s.phase ≠ .unconstructed → c.length ≠ s.cfg.channelOrder.length →
    exec (.encodeColor c) s = .refused .colorWidth) ∧
  (∀ (p : PulseCode) (frame : List PulseCode) (s : State) (i : Instr), i ∈ [.beginBuf, .push p, .finish, .submit frame] →
    s.phase ≠ .encoding → exec i s = .refused .notEncoding) ∧
  (∀ (h : Handle) (w : Waker) (s : State) (i : Instr), i ∈ [.pollComplete h, .onComplete h w, .periphDone, .resume] →
    s.tx = none → exec i s = .refused .noTransmission) ∧
  ∀ (s : State) (i : Instr), symbolPulse i ≠ none →
    (i.wellFormed = true → s.tx = none → exec i s = .refused .noTransmission) ∧
    (i.wellFormed = false → exec i s = .refused .illegalPulse)

/-! ### The peripheral's interface -/

/-- SUBMIT of the frame FINISH returned (R77): TX holds it with a handle not used before, status Pending and waker 0; PHASE is
Transmitting; the history has a Submit entry. Freshness of the handle is D20. -/
def Obligations.SubmitHandsTheFrameOver : Prop :=
  ∀ (frame : List PulseCode) (s : State), s.phase = .encoding → frame.all PulseCode.legal = true → s.ret = .frame frame →
    ∃ h, h ∉ s.usedHandles ∧
      exec (.submit frame) s = .next { s with
        tx := some { handle := h, frame := frame, status := .pending, waker := none, sent := 0 }
        phase := .transmitting, history := s.history ++ [.submit h frame]
        usedHandles := h :: s.usedHandles, draws := s.draws + 1, ret := .handle h }

/-- POLL_COMPLETE with the handle in flight returns TX.status and writes nothing (R79); with another it has no step (U20). -/
def Obligations.PollReturnsTheStatus : Prop :=
  ∀ (h : Handle) (x : Tx) (s : State), s.tx = some x →
    (x.handle = h → exec (.pollComplete h) s = .next { s with ret := .status x.status }) ∧
    (x.handle ≠ h → exec (.pollComplete h) s = .refused .staleHandle)

/-- ON_COMPLETE with the handle in flight sets the waker bit, whatever the status (R80; level-sensitive by D18), for the task the waker
identifies (entry 14). -/
def Obligations.OnCompleteRegistersTheWaker : Prop :=
  ∀ (h : Handle) (w : Waker) (x : Tx) (s : State), s.tx = some x →
    (x.handle = h → exec (.onComplete h w) s = .next { s with tx := some { x with waker := some w }, ret := .unit }) ∧
    (x.handle ≠ h → exec (.onComplete h w) s = .refused .staleHandle)

/-- PERIPH_DONE while Pending (R78): some report, which one is free (entry 18); TX.status and the history get it. On Complete the rest of
the frame's waveform has gone out and the pin rests Low (R87); on an error some part of it has (U7, entry 20): when that is all of it, the pin
rests Low too, and when the output was cut short, at which level the pin is left is free (entry 25). Otherwise it has no step. -/
def Obligations.PeriphDoneReports : Prop :=
  ∀ (x : Tx) (s : State), s.tx = some x →
    (x.status = .pending →
      ∃ (r : Report) (n : Nat) (l : Level), exec .periphDone s = .next { s with
        tx := some { x with
          status := .reported r
          sent := match r with
            | .complete => x.frame.length
            | .error _ => x.sent }
        history := s.history ++ [.done x.handle r]
        wire := s.wire ++ (match r with
          | .complete => waveform (x.frame.drop x.sent)
          | .error _ => cutTicks n (waveform (x.frame.drop x.sent)))
        line := match r with
          | .complete => .low
          | .error _ => if totalTicks (waveform (x.frame.drop x.sent)) ≤ n then .low else l
        draws := s.draws + 1, ret := .unit }) ∧
    (∀ r, x.status = .reported r → exec .periphDone s = .refused .alreadyReported)

/-- RESUME (R81): enabled by the level of the status, the waker and the suspended task (D18), it ends the attempt with what was reported, and
then it is not enabled again, so the task resumes exactly once; with anything less it has no step. -/
def Obligations.ResumeEndsTheAttempt : Prop :=
  ∀ (x : Tx) (s : State), s.tx = some x →
    (∀ r, x.status = .reported r → x.wakerBit = true → s.task = .suspended →
      ∃ result ret t, exec .resume s = .next t ∧
        t = { s with
          tx := none, task := .running, phase := .idle, pending := [], result := some result
          history := s.history ++ [.returned result], ret := ret } ∧
        (r = .complete → result = .ok ∧ ret = .ok) ∧
        (∀ e, r = .error e → result = .failed (.peripheralError e) ∧ ret = .raised (.write (.peripheralError e))) ∧
        exec .resume t = .refused .noTransmission) ∧
    (x.status = .pending ∨ x.wakerBit = false ∨ s.task = .running → exec .resume s = .refused .notResumable)

/-- The blocked caller's poll (R82): while Pending it changes nothing but what was returned, and once the status is reported the attempt ends
with the result. -/
def Obligations.BlockingPollEndsTheAttempt : Prop :=
  ∀ (x : Tx) (rest : List Input) (s : State), s.tx = some x → s.phase = .transmitting → s.waitMode = .blocking →
    s.pending = [] → s.inputs = .poll :: rest →
    (x.status = .pending → step s = .next { s with inputs := rest, ret := .status .pending }) ∧
    (x.status = .reported .complete → step s = .next { s with
      inputs := rest, tx := none, task := .running, phase := .idle, result := some .ok
      history := s.history ++ [.returned .ok], ret := .ok }) ∧
    (∀ e, x.status = .reported (.error e) → step s = .next { s with
      inputs := rest, tx := none, task := .running, phase := .idle, result := some (.failed (.peripheralError e))
      history := s.history ++ [.returned (.failed (.peripheralError e))]
      ret := .raised (.write (.peripheralError e)) })

/-! ### The wire -/

/-- The symbols on the wire (R43, R45, R46, R87; entry 4): the next pulse code of the frame in flight is played, a data symbol as High then
Low, the end symbol as Low, after which nothing of the frame is left and the pin rests Low. -/
def Obligations.SymbolsDriveTheWire : Prop :=
  ∀ (x : Tx) (s : State), s.tx = some x → x.status = .pending →
    (∀ high low, 1 ≤ high → high ≤ 32767 → 1 ≤ low → low ≤ 32767 →
      x.frame[x.sent]? = some { l0 := .high, d0 := high, l1 := .low, d1 := low } →
      ∀ i, i = .code0 high low ∨ i = .code1 high low →
        exec i s = .next { s with
          wire := s.wire ++ [{ level := .high, ticks := high }, { level := .low, ticks := low }]
          line := .low, tx := some { x with sent := x.sent + 1 }, ret := .unit }) ∧
    (∀ ticks, 1 ≤ ticks → ticks ≤ 32767 → x.frame[x.sent]? = some { l0 := .low, d0 := ticks, l1 := .low, d1 := 0 } →
      exec (.resetCode ticks) s = .next { s with
        wire := s.wire ++ [{ level := .low, ticks := ticks }]
        line := .low, tx := some { x with sent := x.frame.length }, ret := .unit })

/-- Playing a symbol moves its stretch of the waveform from what is to come to what has been driven, leaves the pin Low, and changes nothing else
(R87, entry 4). -/
def Obligations.PlayingKeepsTheWaveform : Prop :=
  ∀ (i : Instr) (s t : State), symbolPulse i ≠ none → exec i s = .next t →
    ∃ x y, s.tx = some x ∧ t.tx = some y ∧ x.sent < y.sent ∧
      s.wire ++ waveform (x.frame.drop x.sent) = t.wire ++ waveform (y.frame.drop y.sent) ∧
      t.line = .low ∧ t = { s with wire := t.wire, line := t.line, tx := some { x with sent := y.sent }, ret := .unit }

/-- The waveform of a frame this block builds (R87; the playing conventions are D27, entry 4), how long it lasts (R117, marked as derived
there), and the level of the pin at every tick: inside a segment that segment's level, and "from then on the pin rests Low". -/
def Obligations.FrameWaveform : Prop :=
  (∀ (cfg : Cfg) (t : TimingTable) (colors : List Color), computeTimings cfg.clockRate cfg.spec = some t →
    waveform (frameOf cfg t colors) =
      (wireBits cfg colors).flatMap (fun bit =>
        if bit = true then [{ level := .high, ticks := t.code1.d0 }, { level := .low, ticks := t.code1.d1 }]
        else [{ level := .high, ticks := t.code0.d0 }, { level := .low, ticks := t.code0.d1 }]) ++
      [{ level := .low, ticks := t.resetCode.d0 }] ∧
    totalTicks (waveform (frameOf cfg t colors)) =
      (wireBits cfg colors).count false * (t.code0.d0 + t.code0.d1) +
        (wireBits cfg colors).count true * (t.code1.d0 + t.code1.d1) + t.resetCode.d0) ∧
  ∀ frame : List PulseCode,
    (∀ n, totalTicks (waveform frame) ≤ n → levelAt (waveform frame) n = .low) ∧
    ∀ pre g post n, waveform frame = pre ++ g :: post → n < g.ticks →
      levelAt (waveform frame) (totalTicks pre + n) = g.level

/-! ### Frames of the instructions -/

/-- What the instructions that store nothing leave alone: every entry of BUF, the configuration and timing registers, WAIT_MODE, the stream,
the schedule, and every other element but those named beside the instructions that write it. -/
def Obligations.FrameOfNonStoringInstructions : Prop :=
  ∀ (clock : Nat) (spec : ProtocolSpec) (bit : Bool) (b : Byte) (c : Color) (frame : List PulseCode) (h : Handle) (w : Waker)
    (high low : Nat) (i : Instr) (s t : State),
    i ∈ [.computeTimings clock spec, .encodeBit bit, .encodeByte b, .encodeColor c, .beginBuf, .submit frame, .pollComplete h,
      .onComplete h w, .periphDone, .resume, .code0 high low, .code1 high low, .resetCode high] →
    exec i s = .next t →
    (∀ k, Memory.read t.buf k = Memory.read s.buf k) ∧ t.cfg = s.cfg ∧ t.table = s.table ∧ t.waitMode = s.waitMode ∧
      t.stream = s.stream ∧ t.inputs = s.inputs ∧
    (i ≠ .resume → t.pending = s.pending) ∧
    (i ≠ .beginBuf → t.cursor = s.cursor) ∧
    (i ∉ [.submit frame, .resume] → t.phase = s.phase) ∧
    (i ≠ .resume → t.result = s.result ∧ t.task = s.task) ∧
    (i ∉ [.submit frame, .onComplete h w, .periphDone, .resume, .code0 high low, .code1 high low, .resetCode high] →
      t.tx = s.tx) ∧
    (i ∉ [.submit frame, .periphDone, .resume] → t.history = s.history) ∧
    (i ∉ [.periphDone, .code0 high low, .code1 high low, .resetCode high] → t.wire = s.wire ∧ t.line = s.line) ∧
    (i ≠ .submit frame → t.usedHandles = s.usedHandles) ∧
    (i ∉ [.submit frame, .periphDone] → t.draws = s.draws)

/-- What the storing instructions leave alone: PUSH and FINISH store at CURSOR only, ENCODE_PASS and the WRITEs store at the indices from 0
up to the frame's length or CAPACITY only; none touches the configuration and timing registers, the wire or the schedule. -/
def Obligations.FrameOfStoringInstructions : Prop :=
  ∀ (p : PulseCode) (colors : List Color) (w : Waker) (i : Instr) (s t : State), exec i s = .next t →
    (i ∈ [.push p, .finish] →
      (∀ k, k ≠ s.cursor → Memory.read t.buf k = Memory.read s.buf k) ∧
        t.cfg = s.cfg ∧ t.table = s.table ∧ t.wire = s.wire ∧ t.line = s.line ∧ t.inputs = s.inputs ∧ t.waitMode = s.waitMode ∧
        t.stream = s.stream ∧ t.usedHandles = s.usedHandles ∧ t.draws = s.draws ∧
        (s.cursor < s.cfg.capacity →
          t.phase = s.phase ∧ t.result = s.result ∧ t.tx = s.tx ∧ t.task = s.task ∧ t.history = s.history ∧
            t.pending = s.pending)) ∧
    (i ∈ [.encodePass colors, .writeBlocking colors, .writeSuspending colors w] →
      (∀ k, ¬ k < min (colors.length * s.cfg.bitsPerColor + 1) s.cfg.capacity →
        Memory.read t.buf k = Memory.read s.buf k) ∧
        t.cfg = s.cfg ∧ t.table = s.table ∧ t.wire = s.wire ∧ t.line = s.line ∧ t.inputs = s.inputs ∧
        (t.phase ≠ .idle → t.pending = s.pending) ∧
        (i = .encodePass colors → t.waitMode = s.waitMode ∧ t.usedHandles = s.usedHandles ∧ t.draws = s.draws) ∧
        (i = .encodePass colors → t.phase = .encoding → t.result = s.result ∧ t.tx = s.tx ∧ t.task = s.task ∧
          t.history = s.history) ∧
        (t.phase = .transmitting → t.result = s.result))

/-! ### The whole machine -/

/-- The power-on state (R26, R105, D26): PHASE Unconstructed, nothing in flight, no result, no entry of BUF written (before NEW that is
entry 8), nothing in the history, no operation in progress, and the pin Low (the pin is entry 25). -/
def Obligations.ResetIsUnconstructed : Prop :=
  State.reset.phase = .unconstructed ∧ State.reset.tx = none ∧ State.reset.result = none ∧ State.reset.task = .running ∧
    State.reset.history = [] ∧ (∀ k, Memory.read State.reset.buf k = none) ∧ State.reset.busy = false ∧
    State.reset.pending = [] ∧ State.reset.line = .low

/-- The invariant holds in the power-on state (whose registers and BUF before NEW are entries 6 and 8). -/
def Obligations.ResetSatisfiesTheInvariant : Prop := Inv State.reset ∧ LimitInv State.reset

/-- Every step keeps the invariant: BUF canonical, inside CAPACITY and holding CODE_0, CODE_1 and RESET_CODE only, the filled prefix written, TX
there exactly while Transmitting and holding that prefix, data symbols with RESET_CODE at the end and nowhere else, a suspended task
registered, the timing table coherent with the registers, and what is left to run the rest of a call of the caller's interface, so that BUF is
reached through a WRITE only (R15, R16, R22, R23, R34, R38, R41, R54, R100). What is left to run, as state, is entry 10. -/
def Obligations.StepKeepsTheInvariant : Prop :=
  ∀ s t : State, Inv s → step s = .next t → Inv t

/-- Every step from a state with the invariant keeps an adapter's capacity within BUFFER_LIMIT, whatever the limit is (R72, R89, D10). -/
def Obligations.CapacityStaysWithinTheLimit : Prop :=
  ∀ s t : State, Inv s → LimitInv s → step s = .next t → LimitInv t

/-- Under the invariant no step faults: no entry that holds `unwritten` is ever read (R35). And the operation in progress always goes on: unless it
is the peripheral's turn, the step answers next, so that no part of a call is ever refused (R53; the parts are entry 10). -/
def Obligations.InvariantExcludesTheFault : Prop :=
  (∀ (s : State) (f : Fault), Inv s → step s ≠ .fault f) ∧
  ∀ s : State, Inv s → s.pending ≠ [] → s.peripheralTurn = false → ∃ t, step s = .next t

/-- All transitions of PHASE (R74): a step follows the table, and the transitions that construct, submit or abort leave their entry in the
history. R16 (marked as derived there): a step that enters Encoding has reset CURSOR or stored its whole frame, and in Encoding
`BUF[0 : CURSOR]` only grows, so no entry of an earlier attempt is ever in it. That a pass may run as one step or by its parts is D23 (entries 9 and 10). -/
def Obligations.StepFollowsThePhaseDiagram : Prop :=
  ∀ s t : State, Inv s → step s = .next t →
    phaseStep s.phase t.phase = true ∧
    (s.phase = .unconstructed → t.phase = .idle → t.history = s.history ++ [.constructed t.cfg t.table]) ∧
    (s.phase ≠ .transmitting → t.phase = .transmitting →
      ∃ x, t.tx = some x ∧ t.history = s.history ++ [.submit x.handle x.frame]) ∧
    (s.phase = .encoding → t.phase = .idle → t.history = s.history ++ [.returned (.failed .bufferOverflow)]) ∧
    (s.phase = .idle → t.phase = .encoding → t.filled = some [] ∨
      ∃ colors, t.ret = .frame (frameOf s.cfg s.table colors) ∧ t.filled = some (frameOf s.cfg s.table colors)) ∧
    (s.phase = .encoding → t.phase ≠ .idle → ∃ old new, s.filled = some old ∧ t.filled = some (old ++ new))

/-- NEW alone writes the configuration and timing registers, once (R12, R14, R90): an adapter's registers never change and it never goes
away; before there is one, they change only with its construction. -/
def Obligations.OnlyNewWritesTheRegisters : Prop :=
  ∀ s t : State, step s = .next t →
    (s.phase ≠ .unconstructed → t.cfg = s.cfg ∧ t.table = s.table ∧ t.phase ≠ .unconstructed) ∧
    (t.cfg ≠ s.cfg ∨ t.table ≠ s.table →
      t.history = s.history ++ [.constructed t.cfg t.table] ∧ computeTimings t.cfg.clockRate t.cfg.spec = some t.table)

/-- The history only grows, by at most one entry a step (R24, D25). -/
def Obligations.HistoryOnlyGrows : Prop :=
  ∀ s t : State, step s = .next t → ∃ events, t.history = s.history ++ events ∧ events.length ≤ 1

/-- No rule reads the history (R24, D25): with another history every instruction does the same, and adds the same entries to it. -/
def Obligations.HistoryIsNeverRead : Prop :=
  ∀ (i : Instr) (h : List Event) (s : State),
    exec i { s with history := h } = match exec i s with
      | .next t => .next { t with history := h ++ t.history.drop s.history.length }
      | .fault f => .fault f
      | .refused r => .refused r

/-- While PHASE is Transmitting the buffer belongs to the peripheral (R38, R109): no step changes BUF or CURSOR, and the frame in flight
stays what was handed over. -/
def Obligations.BufIsFrozenWhileTransmitting : Prop :=
  ∀ s t : State, s.phase = .transmitting → step s = .next t →
    t.buf = s.buf ∧ t.cursor = s.cursor ∧ ∀ x y, s.tx = some x → t.tx = some y → y.frame = x.frame ∧ y.handle = x.handle

/-- No cancellation and no timeout (R85, R113): PHASE leaves Transmitting only when the peripheral has reported, and then the attempt ends
in Idle with that result (R86). -/
def Obligations.TransmissionEndsOnlyWhenReported : Prop :=
  ∀ s t : State, Inv s → step s = .next t → s.phase = .transmitting → t.phase ≠ .transmitting →
    ∃ x r, s.tx = some x ∧ x.status = .reported r ∧ t.phase = .idle ∧ t.tx = none ∧ t.task = .running ∧
      t.result = some (match r with
        | .complete => .ok
        | .error e => .failed (.peripheralError e)) ∧
      ∃ result, t.result = some result ∧ t.history = s.history ++ [.returned result]

/-- Completion is a level (D18, R79): a reported status stays what it is until the attempt ends. -/
def Obligations.ReportedStatusIsLatched : Prop :=
  ∀ (s t : State) (x : Tx) (r : Report), Inv s → step s = .next t → s.tx = some x → x.status = .reported r →
    t.tx = none ∨ ∃ y, t.tx = some y ∧ y.status = .reported r ∧ y.handle = x.handle ∧ y.frame = x.frame

/-- Every error reaches the caller and leaves the adapter reusable (R94, R97). When running an instruction, with what its invoker does next (the end
of a blocking wait, entry 9), raises an error of a WRITE, the adapter is in Idle with that error in RESULT and in a new Return entry; an error
of construction leaves everything as it was but the history, which gains NEW's ConstructFailed entry (COMPUTE_TIMINGS alone, the part of a NEW,
raises InvalidTiming without one: the entry is its NEW's). And no error is swallowed: an entry that reports one was raised to the invoker. -/
def Obligations.ErrorsLeaveTheAdapterReusable : Prop :=
  ∀ (i : Instr) (s u t : State), exec i s = .next u → t = afterInstr i u →
    (∀ e, t.ret = .raised (.write e) →
      t.phase = .idle ∧ t.tx = none ∧ t.task = .running ∧ t.result = some (.failed e) ∧
        t.history = s.history ++ [.returned (.failed e)] ∧ (e = .bufferOverflow → t.cursor = 0)) ∧
    (∀ k, t.ret = .raised (.construct k) →
      t = { s with history := t.history, draws := t.draws, ret := t.ret } ∧
      (((∃ channel pin spec leds order, i = .new channel pin spec leds order) ∧ t.history = s.history ++ [.constructFailed k]) ∨
        ((∃ clock spec, i = .computeTimings clock spec) ∧ t.history = s.history))) ∧
    (∀ e, t.history = s.history ++ [.returned (.failed e)] → t.ret = .raised (.write e)) ∧
    ∀ k, t.history = s.history ++ [.constructFailed k] → t.ret = .raised (.construct k)

/-- A blocking attempt ends, given PERIPH_LIVENESS for it (D19, R82, R113): in a run where its wait is served, PHASE is Idle again. That the wait is
served by a poll at the front of the schedule is the model's (entries 1 and 9). Suspending attempts: SuspendingAttemptEnds. -/
def Obligations.BlockingAttemptEnds : Prop :=
  ∀ (r : Nat → State) (n : Nat), IsRun r → (r n).phase = .transmitting → WaitServed r n →
    ∃ m, n ≤ m ∧ (r m).phase = .idle

/-- A suspending attempt ends, given PERIPH_LIVENESS for it (D19, R81, R83, R113: the scheduler eventually runs an enabled RESUME): in a run whose
state has the invariant and where the report and RESUME come, PHASE is Idle again. That RESUME comes from the schedule is entry 1. -/
def Obligations.SuspendingAttemptEnds : Prop :=
  ∀ (r : Nat → State) (n : Nat), IsRun r → Inv (r n) → (r n).phase = .transmitting → ResumeServed r n →
    ∃ m, n ≤ m ∧ (r m).phase = .idle
end

