-- ==== Sys2Proof/Laws/Decode.lean ====
section
/-! SUPPORT. The decoder reads back what the encoder writes, operand by operand; and what it reads is well formed. -/

namespace Sys2Proof

@[simp] theorem parseThen_ok {α β : Type} (a : α) (bs : List Byte) (f : α → List Byte → Parsed β) :
    parseThen (.ok (a, bs)) f = f a bs := rfl

@[simp] theorem parseThen_error {α β : Type} (e : DecodeError) (f : α → List Byte → Parsed β) :
    parseThen (.error e : Parsed α) f = .error e := rfl

/-- A reading that succeeds went through its first part. -/
theorem parseThen_eq_ok {α β : Type} {x : Parsed α} {f : α → List Byte → Parsed β} {r : β × List Byte} :
    parseThen x f = .ok r ↔ ∃ a bs, x = .ok (a, bs) ∧ f a bs = .ok r := by
  constructor
  · intro h
    match x, h with
    | .ok (a, bs), h => exact ⟨a, bs, rfl, h⟩
  · rintro ⟨a, bs, rfl, h⟩
    exact h

/-! ### Numbers -/

theorem decodeNat_encodeNatFuel (fuel n : Nat) (rest : List Byte) (h : n < 2 ^ fuel * 128) :
    decodeNat (encodeNatFuel fuel n ++ rest) = .ok (n, rest) := by
  induction fuel generalizing n with
  | zero =>
    have h1 : n < 128 := by simpa using h
    have h2 : n % 256 = n := Nat.mod_eq_of_lt (by omega)
    simp [encodeNatFuel, decodeNat, h1, h2]
  | succ f ih =>
    by_cases h1 : n < 128
    · have h2 : n % 256 = n := Nat.mod_eq_of_lt (by omega)
      simp [encodeNatFuel, decodeNat, h1, h2]
    · have h2 : (128 + n % 128) % 256 = 128 + n % 128 := Nat.mod_eq_of_lt (by omega)
      have h3 : n / 128 < 2 ^ f * 128 := by
        rw [Nat.div_lt_iff_lt_mul (by decide)]
        rw [pow_succ] at h
        calc n < 2 ^ f * 2 * 128 := h
          _ ≤ 2 ^ f * 128 * 128 := by
            have := Nat.zero_le (2 ^ f)
            nlinarith
      have h4 : ¬ n / 128 = 0 := by omega
      have h5 : n % 128 + 128 * (n / 128) = n := Nat.mod_add_div n 128
      simp [encodeNatFuel, h1, decodeNat, h2, ih _ h3, h4, h5]

@[simp] theorem decodeNat_encodeNat (n : Nat) (rest : List Byte) :
    decodeNat (encodeNat n ++ rest) = .ok (n, rest) := by
  refine decodeNat_encodeNatFuel _ _ _ ?_
  have := @Nat.lt_log2_self n
  omega

@[simp] theorem natOfBytes_bytesOfNat (k n : Nat) (h : n < 256 ^ k) : natOfBytes (bytesOfNat k n) = n := by
  induction k generalizing n with
  | zero => simp at h; simp [bytesOfNat, natOfBytes, h]
  | succ k ih =>
    have h1 : n / 256 < 256 ^ k := by
      rw [Nat.div_lt_iff_lt_mul (by decide)]; rwa [pow_succ] at h
    simp only [bytesOfNat, natOfBytes, ih _ h1, BitVec.toNat_ofNat]
    have := Nat.mod_add_div n 256
    norm_num; omega

/-! ### Lists -/

theorem decodeMany_flatMap {α : Type} (enc : α → List Byte) (dec : List Byte → Parsed α) (as : List α) (rest : List Byte)
    (h : ∀ a ∈ as, ∀ r, dec (enc a ++ r) = .ok (a, r)) :
    decodeMany dec as.length (as.flatMap enc ++ rest) = .ok (as, rest) := by
  induction as with
  | nil => rfl
  | cons a as ih =>
    have h1 := h a (by simp) (as.flatMap enc ++ rest)
    have h2 := ih (fun b hb => h b (by simp [hb]))
    simp [decodeMany, h1, h2]

theorem decodeList_encodeList {α : Type} (enc : α → List Byte) (dec : List Byte → Parsed α) (as : List α) (rest : List Byte)
    (h : ∀ a ∈ as, ∀ r, dec (enc a ++ r) = .ok (a, r)) :
    decodeList dec (encodeList enc as ++ rest) = .ok (as, rest) := by
  simp [decodeList, encodeList, decodeMany_flatMap enc dec as rest h]

/-! ### Operands -/

theorem decodeMany_decodeByte (bs rest : List Byte) : decodeMany decodeByte bs.length (bs ++ rest) = .ok (bs, rest) := by
  induction bs with
  | nil => rfl
  | cons b bs ih => simp [decodeMany, decodeByte, ih]

theorem decodeColorOperand_encode (c : Color) (rest : List Byte) (h : colorLegal c = true) :
    decodeColorOperand (encodeColorOperand c ++ rest) = .ok (c, rest) := by
  have := decodeMany_decodeByte c rest
  simp only [colorLegal, Bool.or_eq_true, beq_iff_eq] at h
  rcases h with h | h
  · rw [h] at this; simp [encodeColorOperand, decodeColorOperand, h, this]
  · rw [h] at this; simp [encodeColorOperand, decodeColorOperand, h, this]

theorem decodeColorList_encode (cs : List Color) (rest : List Byte) (h : cs.all colorLegal = true) :
    decodeColorList (encodeColorList cs ++ rest) = .ok (cs, rest) :=
  decodeList_encodeList _ _ _ _ fun c hc r => decodeColorOperand_encode c r (List.all_eq_true.1 h c hc)

/-- The three-channel half of the legal orders, by trying every index. -/
theorem threeChannelOrders : ∀ a b c : Fin 3,
    ([0, 1, 2].all [a.val, b.val, c.val].contains) = true → [a.val, b.val, c.val] ∈ channelOrders := by
  decide

/-- The four-channel half of the legal orders, by trying every index. -/
theorem fourChannelOrders : ∀ a b c d : Fin 4,
    ([0, 1, 2, 3].all [a.val, b.val, c.val, d.val].contains) = true → [a.val, b.val, c.val, d.val] ∈ channelOrders := by
  decide

/-- The legal channel orders are those of R48's table. -/
theorem orderLegal_iff (o : List Nat) : orderLegal o = true ↔ o ∈ channelOrders := by
  constructor
  · intro h
    simp only [orderLegal, Bool.or_eq_true, Bool.and_eq_true, beq_iff_eq] at h
    rcases h with ⟨hl, h⟩ | ⟨hl, h⟩
    · obtain ⟨a, b, c, rfl⟩ := List.length_eq_three.1 hl
      have hb := h
      simp only [List.all_cons, List.contains_cons, List.contains_nil, List.all_nil, Bool.and_true, Bool.or_false,
        Bool.and_eq_true, Bool.or_eq_true, beq_iff_eq] at hb
      obtain ⟨h0, h1, h2⟩ := hb
      exact threeChannelOrders ⟨a, by omega⟩ ⟨b, by omega⟩ ⟨c, by omega⟩ h
    · match o, hl with
      | [a, b, c, d], _ =>
        have hb := h
        simp only [List.all_cons, List.contains_cons, List.contains_nil, List.all_nil, Bool.and_true, Bool.or_false,
          Bool.and_eq_true, Bool.or_eq_true, beq_iff_eq] at hb
        obtain ⟨h0, h1, h2, h3⟩ := hb
        exact fourChannelOrders ⟨a, by omega⟩ ⟨b, by omega⟩ ⟨c, by omega⟩ ⟨d, by omega⟩ h
  · intro h
    have : ∀ o ∈ channelOrders, orderLegal o = true := by decide
    exact this o h

theorem decodeOrder_encode (o : List Nat) (rest : List Byte) (h : orderLegal o = true) :
    decodeOrder (encodeOrder o ++ rest) = .ok (o, rest) := by
  have : ∀ o ∈ channelOrders, channelOrders[(BitVec.ofNat 8 (channelOrders.idxOf o)).toNat]? = some o := by decide
  have h1 := this o ((orderLegal_iff o).1 h)
  simp only [encodeOrder, List.cons_append, List.nil_append, decodeOrder, h1]

theorem decodeBitOperand_encode (b : Bool) (rest : List Byte) :
    decodeBitOperand (encodeBitOperand b ++ rest) = .ok (b, rest) := by
  cases b <;> rfl

theorem decodeSpec_encode (p : ProtocolSpec) (rest : List Byte) : decodeSpec (encodeSpec p ++ rest) = .ok (p, rest) := by
  simp [decodeSpec, encodeSpec, List.append_assoc]

theorem decodeChannel_encode (c : Channel) (rest : List Byte) :
    decodeChannel (encodeChannel c ++ rest) = .ok (c, rest) := by
  simp [decodeChannel, encodeChannel, List.append_assoc]

/-! ### Pulse codes -/

theorem Level.bit_le (l : Level) : l.bit ≤ 1 := by cases l <;> simp [Level.bit]

theorem packPulse_toNat (p : PulseCode) (h : p.legal = true) :
    (packPulse p).toNat = p.d0 + 2 ^ 15 * p.l0.bit + 2 ^ 16 * p.d1 + 2 ^ 31 * p.l1.bit := by
  simp only [PulseCode.legal, Bool.and_eq_true, Config.tickMax] at h
  have h0 := Level.bit_le p.l0
  have h1 := Level.bit_le p.l1
  simp only [packPulse, BitVec.toNat_ofNat]
  exact Nat.mod_eq_of_lt (by norm_num at h ⊢; omega)

theorem levelOfBool_bit (l : Level) : levelOfBool (decide (l.bit = 1)) = l := by cases l <;> rfl

/-- Unpacking a packed pulse code gives it back (R44). -/
theorem unpackPulse_packPulse (p : PulseCode) (h : p.legal = true) : unpackPulse (packPulse p) = p := by
  have hn := packPulse_toNat p h
  simp only [PulseCode.legal, Bool.and_eq_true, Config.tickMax] at h
  norm_num at h
  have h0 := Level.bit_le p.l0
  have h1 := Level.bit_le p.l1
  have b15 : (packPulse p).getLsbD 15 = decide (p.l0.bit = 1) := by
    rw [BitVec.getLsbD, hn, Nat.testBit_eq_decide_div_mod_eq]
    congr 1
    apply propext
    norm_num
    omega
  have b31 : (packPulse p).getLsbD 31 = decide (p.l1.bit = 1) := by
    rw [BitVec.getLsbD, hn, Nat.testBit_eq_decide_div_mod_eq]
    congr 1
    apply propext
    norm_num
    omega
  have d0 : (packPulse p).toNat % 2 ^ 15 = p.d0 := by rw [hn]; norm_num; omega
  have d1 : (packPulse p).toNat / 2 ^ 16 % 2 ^ 15 = p.d1 := by rw [hn]; norm_num; omega
  simp only [unpackPulse, b15, b31, d0, d1, levelOfBool_bit]

theorem decodePulse_encode (p : PulseCode) (rest : List Byte) (h : p.legal = true) :
    decodePulse (encodePulse p ++ rest) = .ok (p, rest) := by
  have h1 : natOfBytes (bytesOfNat 4 (packPulse p).toNat) = (packPulse p).toNat :=
    natOfBytes_bytesOfNat 4 _ (by have := (packPulse p).isLt; norm_num at this ⊢; exact this)
  have h2 : decodePulse (encodePulse p ++ rest)
      = .ok (unpackPulse (BitVec.ofNat 32 (natOfBytes (bytesOfNat 4 (packPulse p).toNat))), rest) := rfl
  rw [h2, h1, BitVec.ofNat_toNat, BitVec.setWidth_eq, unpackPulse_packPulse p h]

/-- Every word unpacks to a pulse code. -/
theorem unpackPulse_legal (w : PulseWord) : (unpackPulse w).legal = true := by
  simp only [PulseCode.legal, unpackPulse, Config.tickMax, Bool.and_eq_true]
  norm_num
  omega

end Sys2Proof
end

