-- ==== Sys2Proof/Laws/Memory.lean ====
section
/-! SUPPORT. The laws of BUF's memory: read after write, the canonical form, ranges. -/

namespace Sys2Proof.Machine

theorem Memory.read_write_same (m : Memory) (i : Nat) (c : PulseCode) :
    Memory.read (Memory.write m i c) i = some c := by
  induction m with
  | nil => simp [Memory.write, Memory.read]
  | cons e rest ih =>
    obtain ⟨j, d⟩ := e
    by_cases h1 : i < j
    · simp [Memory.write, Memory.read, h1]
    · by_cases h2 : i = j
      · simp [Memory.write, Memory.read, h2]
      · simp [Memory.write, Memory.read, h1, h2, ih, Ne.symm h2]

theorem Memory.read_write_other (m : Memory) (i k : Nat) (c : PulseCode) (h : k ≠ i) :
    Memory.read (Memory.write m i c) k = Memory.read m k := by
  induction m with
  | nil => simp [Memory.write, Memory.read, Ne.symm h]
  | cons e rest ih =>
    obtain ⟨j, d⟩ := e
    by_cases h1 : i < j
    · simp [Memory.write, Memory.read, h1, Ne.symm h]
    · by_cases h2 : i = j
      · subst h2
        simp [Memory.write, Memory.read, Ne.symm h]
      · by_cases h3 : j = k
        · subst h3
          simp [Memory.write, Memory.read, h1, h2]
        · simp [Memory.write, Memory.read, h1, h2, h3, ih]

theorem Memory.read_write (m : Memory) (i k : Nat) (c : PulseCode) :
    Memory.read (Memory.write m i c) k = if k = i then some c else Memory.read m k := by
  by_cases h : k = i
  · simp [h, Memory.read_write_same]
  · simp [h, Memory.read_write_other]

/-- The first entry's index is below the rest's: what `wf` says of a memory with that head. -/
theorem Memory.wf_cons (i : Nat) (c : PulseCode) (m : Memory) :
    Memory.wf ((i, c) :: m) = true ↔ (∀ j d, m.head? = some (j, d) → i < j) ∧ Memory.wf m = true := by
  cases m with
  | nil => simp [Memory.wf]
  | cons e rest => obtain ⟨j, d⟩ := e; simp [Memory.wf]

/-- A write keeps the canonical form. -/
theorem Memory.write_wf (m : Memory) (i : Nat) (c : PulseCode) (h : Memory.wf m = true) :
    Memory.wf (Memory.write m i c) = true := by
  induction m with
  | nil => simp [Memory.write, Memory.wf]
  | cons e rest ih =>
    obtain ⟨j, d⟩ := e
    rw [Memory.wf_cons] at h
    by_cases h1 : i < j
    · simp only [Memory.write, h1, if_true]
      rw [Memory.wf_cons, Memory.wf_cons]
      exact ⟨by simp; omega, h.1, h.2⟩
    · by_cases h2 : i = j
      · subst h2
        simp only [Memory.write, lt_irrefl, if_false, if_true]
        rw [Memory.wf_cons]; exact h
      · simp only [Memory.write, h1, h2, if_false]
        rw [Memory.wf_cons]
        refine ⟨?_, ih h.2⟩
        intro k e hk
        cases rest with
        | nil => simp [Memory.write] at hk; omega
        | cons f rest' =>
          obtain ⟨j', d'⟩ := f
          have := h.1 j' d' (by simp)
          by_cases h3 : i < j'
          · simp [Memory.write, h3] at hk; omega
          · by_cases h4 : i = j'
            · simp [Memory.write, h4] at hk; omega
            · simp [Memory.write, h3, h4] at hk; omega

/-- Consecutive entries stored from index `i` on. -/
def Memory.writeAll (m : Memory) : Nat → List PulseCode → Memory
  | _, [] => m
  | i, c :: cs => Memory.writeAll (Memory.write m i c) (i + 1) cs

theorem Memory.writeAll_append (m : Memory) (i : Nat) (cs ds : List PulseCode) :
    Memory.writeAll m i (cs ++ ds) = Memory.writeAll (Memory.writeAll m i cs) (i + cs.length) ds := by
  induction cs generalizing m i with
  | nil => simp [Memory.writeAll]
  | cons c cs ih => simp [Memory.writeAll, ih, Nat.add_assoc, Nat.add_comm 1]

theorem Memory.writeAll_wf (m : Memory) (i : Nat) (cs : List PulseCode) (h : Memory.wf m = true) :
    Memory.wf (Memory.writeAll m i cs) = true := by
  induction cs generalizing m i with
  | nil => exact h
  | cons c cs ih => exact ih _ _ (Memory.write_wf _ _ _ h)

/-- What a run of stores leaves at an index: the code stored there, or what was there. -/
theorem Memory.read_writeAll (m : Memory) (i k : Nat) (cs : List PulseCode) :
    Memory.read (Memory.writeAll m i cs) k =
      if i ≤ k ∧ k < i + cs.length then cs[k - i]? else Memory.read m k := by
  induction cs generalizing m i with
  | nil => simp [Memory.writeAll]
  | cons c cs ih =>
    simp only [Memory.writeAll, ih, Memory.read_write, List.length_cons]
    by_cases h1 : k = i
    · subst h1; simp
    · by_cases h2 : i + 1 ≤ k ∧ k < i + 1 + cs.length
      · have h3 : i ≤ k ∧ k < i + (cs.length + 1) := by omega
        have h4 : k - i = (k - (i + 1)) + 1 := by omega
        simp [h2, h3, h4]
      · have h3 : ¬ (i ≤ k ∧ k < i + (cs.length + 1)) := by omega
        rw [if_neg h2, if_neg h3, if_neg h1]

/-- A range reads as a list exactly when each of its entries does. -/
theorem Memory.readRange_eq_some (m : Memory) (i n : Nat) (cs : List PulseCode) :
    Memory.readRange m i n = some cs ↔ cs.length = n ∧ ∀ k, k < n → Memory.read m (i + k) = cs[k]? := by
  induction n generalizing i cs with
  | zero => cases cs <;> simp [Memory.readRange]
  | succ n ih =>
    constructor
    · intro h
      simp only [Memory.readRange] at h
      split at h
      · rename_i c ds h1 h2
        cases h
        obtain ⟨h3, h4⟩ := (ih _ _).1 h2
        refine ⟨by simp [h3], ?_⟩
        intro k hk
        cases k with
        | zero => simpa using h1
        | succ k => simpa [Nat.add_assoc, Nat.add_comm 1] using h4 k (by omega)
      · cases h
    · rintro ⟨h1, h2⟩
      cases cs with
      | nil => simp at h1
      | cons c cs =>
        have h3 : Memory.read m i = some c := by simpa using h2 0 (by omega)
        have h4 : Memory.readRange m (i + 1) n = some cs := by
          rw [ih]
          refine ⟨by simpa using h1, fun k hk => ?_⟩
          simpa [Nat.add_assoc, Nat.add_comm 1] using h2 (k + 1) (by omega)
        simp [Memory.readRange, h3, h4]

/-- Whether a range can be read depends on whether its entries are written. -/
theorem Memory.readRange_isSome (m : Memory) (i n : Nat) :
    (Memory.readRange m i n).isSome = true ↔ ∀ k, k < n → (Memory.read m (i + k)).isSome = true := by
  induction n generalizing i with
  | zero => simp [Memory.readRange]
  | succ n ih =>
    constructor
    · intro h k hk
      simp only [Memory.readRange] at h
      split at h
      · rename_i c ds h1 h2
        cases k with
        | zero => simp [h1]
        | succ k =>
          have := (ih (i + 1)).1 (by simp [h2]) k (by omega)
          simpa [Nat.add_assoc, Nat.add_comm 1] using this
      · simp at h
    · intro h
      have h1 := h 0 (by omega)
      have h2 : (Memory.readRange m (i + 1) n).isSome = true := by
        rw [ih]; intro k hk
        simpa [Nat.add_assoc, Nat.add_comm 1] using h (k + 1) (by omega)
      obtain ⟨c, hc⟩ := Option.isSome_iff_exists.1 h1
      obtain ⟨cs, hcs⟩ := Option.isSome_iff_exists.1 h2
      simp at hc
      simp [Memory.readRange, hc, hcs]

/-- What a run of stores wrote can be read back whole. -/
theorem Memory.readRange_writeAll (m : Memory) (i : Nat) (cs : List PulseCode) :
    Memory.readRange (Memory.writeAll m i cs) i cs.length = some cs := by
  rw [Memory.readRange_eq_some]
  refine ⟨rfl, fun k hk => ?_⟩
  rw [Memory.read_writeAll]
  have : i ≤ i + k ∧ i + k < i + cs.length := by omega
  simp [this]

/-- Memories that agree on a range read the same there. -/
theorem Memory.readRange_congr (m m' : Memory) (i n : Nat)
    (h : ∀ k, k < n → Memory.read m (i + k) = Memory.read m' (i + k)) :
    Memory.readRange m i n = Memory.readRange m' i n := by
  induction n generalizing i with
  | zero => rfl
  | succ n ih =>
    have h0 : Memory.read m i = Memory.read m' i := by simpa using h 0 (by omega)
    have h1 := ih (i + 1) (fun k hk => by
      simpa [Nat.add_assoc, Nat.add_comm 1] using h (k + 1) (by omega))
    simp [Memory.readRange, h0, h1]

theorem reset_memory_wf : Memory.wf State.reset.buf = true := rfl

end Sys2Proof.Machine
end

