-- ==== Sys2Proof/Laws/State.lean ====
section
/-! SUPPORT. One lemma per field for each named update of State, all by definition, so that no later proof unfolds a record update. -/

namespace Sys2Proof.Machine

/-! ### setRet -/

@[simp] theorem setRet_cfg (r : Ret) (s : State) : (setRet r s).cfg = s.cfg := rfl
@[simp] theorem setRet_table (r : Ret) (s : State) : (setRet r s).table = s.table := rfl
@[simp] theorem setRet_buf (r : Ret) (s : State) : (setRet r s).buf = s.buf := rfl
@[simp] theorem setRet_cursor (r : Ret) (s : State) : (setRet r s).cursor = s.cursor := rfl
@[simp] theorem setRet_phase (r : Ret) (s : State) : (setRet r s).phase = s.phase := rfl
@[simp] theorem setRet_waitMode (r : Ret) (s : State) : (setRet r s).waitMode = s.waitMode := rfl
@[simp] theorem setRet_result (r : Ret) (s : State) : (setRet r s).result = s.result := rfl
@[simp] theorem setRet_tx (r : Ret) (s : State) : (setRet r s).tx = s.tx := rfl
@[simp] theorem setRet_task (r : Ret) (s : State) : (setRet r s).task = s.task := rfl
@[simp] theorem setRet_history (r : Ret) (s : State) : (setRet r s).history = s.history := rfl
@[simp] theorem setRet_stream (r : Ret) (s : State) : (setRet r s).stream = s.stream := rfl
@[simp] theorem setRet_wire (r : Ret) (s : State) : (setRet r s).wire = s.wire := rfl
@[simp] theorem setRet_line (r : Ret) (s : State) : (setRet r s).line = s.line := rfl
@[simp] theorem setRet_pending (r : Ret) (s : State) : (setRet r s).pending = s.pending := rfl
@[simp] theorem setRet_usedHandles (r : Ret) (s : State) : (setRet r s).usedHandles = s.usedHandles := rfl
@[simp] theorem setRet_inputs (r : Ret) (s : State) : (setRet r s).inputs = s.inputs := rfl
@[simp] theorem setRet_ret (r : Ret) (s : State) : (setRet r s).ret = r := rfl
@[simp] theorem setRet_draws (r : Ret) (s : State) : (setRet r s).draws = s.draws := rfl

/-! ### endAttempt -/

@[simp] theorem endAttempt_cfg (r : AttemptResult) (s : State) : (endAttempt r s).cfg = s.cfg := rfl
@[simp] theorem endAttempt_table (r : AttemptResult) (s : State) : (endAttempt r s).table = s.table := rfl
@[simp] theorem endAttempt_buf (r : AttemptResult) (s : State) : (endAttempt r s).buf = s.buf := rfl
@[simp] theorem endAttempt_cursor (r : AttemptResult) (s : State) : (endAttempt r s).cursor = s.cursor := rfl
@[simp] theorem endAttempt_phase (r : AttemptResult) (s : State) : (endAttempt r s).phase = .idle := rfl
@[simp] theorem endAttempt_waitMode (r : AttemptResult) (s : State) : (endAttempt r s).waitMode = s.waitMode := rfl
@[simp] theorem endAttempt_result (r : AttemptResult) (s : State) : (endAttempt r s).result = some r := rfl
@[simp] theorem endAttempt_tx (r : AttemptResult) (s : State) : (endAttempt r s).tx = none := rfl
@[simp] theorem endAttempt_task (r : AttemptResult) (s : State) : (endAttempt r s).task = .running := rfl
@[simp] theorem endAttempt_history (r : AttemptResult) (s : State) : (endAttempt r s).history = s.history ++ [.returned r] := rfl
@[simp] theorem endAttempt_stream (r : AttemptResult) (s : State) : (endAttempt r s).stream = s.stream := rfl
@[simp] theorem endAttempt_wire (r : AttemptResult) (s : State) : (endAttempt r s).wire = s.wire := rfl
@[simp] theorem endAttempt_line (r : AttemptResult) (s : State) : (endAttempt r s).line = s.line := rfl
@[simp] theorem endAttempt_pending (r : AttemptResult) (s : State) : (endAttempt r s).pending = [] := rfl
@[simp] theorem endAttempt_usedHandles (r : AttemptResult) (s : State) : (endAttempt r s).usedHandles = s.usedHandles := rfl
@[simp] theorem endAttempt_inputs (r : AttemptResult) (s : State) : (endAttempt r s).inputs = s.inputs := rfl
@[simp] theorem endAttempt_ret (r : AttemptResult) (s : State) : (endAttempt r s).ret = r.ret := rfl
@[simp] theorem endAttempt_draws (r : AttemptResult) (s : State) : (endAttempt r s).draws = s.draws := rfl

/-! ### resetCursor -/

@[simp] theorem resetCursor_cfg (s : State) : (resetCursor s).cfg = s.cfg := rfl
@[simp] theorem resetCursor_table (s : State) : (resetCursor s).table = s.table := rfl
@[simp] theorem resetCursor_buf (s : State) : (resetCursor s).buf = s.buf := rfl
@[simp] theorem resetCursor_cursor (s : State) : (resetCursor s).cursor = 0 := rfl
@[simp] theorem resetCursor_phase (s : State) : (resetCursor s).phase = s.phase := rfl
@[simp] theorem resetCursor_waitMode (s : State) : (resetCursor s).waitMode = s.waitMode := rfl
@[simp] theorem resetCursor_result (s : State) : (resetCursor s).result = s.result := rfl
@[simp] theorem resetCursor_tx (s : State) : (resetCursor s).tx = s.tx := rfl
@[simp] theorem resetCursor_task (s : State) : (resetCursor s).task = s.task := rfl
@[simp] theorem resetCursor_history (s : State) : (resetCursor s).history = s.history := rfl
@[simp] theorem resetCursor_stream (s : State) : (resetCursor s).stream = s.stream := rfl
@[simp] theorem resetCursor_wire (s : State) : (resetCursor s).wire = s.wire := rfl
@[simp] theorem resetCursor_line (s : State) : (resetCursor s).line = s.line := rfl
@[simp] theorem resetCursor_pending (s : State) : (resetCursor s).pending = s.pending := rfl
@[simp] theorem resetCursor_usedHandles (s : State) : (resetCursor s).usedHandles = s.usedHandles := rfl
@[simp] theorem resetCursor_inputs (s : State) : (resetCursor s).inputs = s.inputs := rfl
@[simp] theorem resetCursor_ret (s : State) : (resetCursor s).ret = s.ret := rfl
@[simp] theorem resetCursor_draws (s : State) : (resetCursor s).draws = s.draws := rfl

/-! ### beginBuf -/

@[simp] theorem beginBuf_cfg (s : State) : (beginBuf s).cfg = s.cfg := rfl
@[simp] theorem beginBuf_table (s : State) : (beginBuf s).table = s.table := rfl
@[simp] theorem beginBuf_buf (s : State) : (beginBuf s).buf = s.buf := rfl
@[simp] theorem beginBuf_cursor (s : State) : (beginBuf s).cursor = 0 := rfl
@[simp] theorem beginBuf_phase (s : State) : (beginBuf s).phase = s.phase := rfl
@[simp] theorem beginBuf_waitMode (s : State) : (beginBuf s).waitMode = s.waitMode := rfl
@[simp] theorem beginBuf_result (s : State) : (beginBuf s).result = s.result := rfl
@[simp] theorem beginBuf_tx (s : State) : (beginBuf s).tx = s.tx := rfl
@[simp] theorem beginBuf_task (s : State) : (beginBuf s).task = s.task := rfl
@[simp] theorem beginBuf_history (s : State) : (beginBuf s).history = s.history := rfl
@[simp] theorem beginBuf_stream (s : State) : (beginBuf s).stream = s.stream := rfl
@[simp] theorem beginBuf_wire (s : State) : (beginBuf s).wire = s.wire := rfl
@[simp] theorem beginBuf_line (s : State) : (beginBuf s).line = s.line := rfl
@[simp] theorem beginBuf_pending (s : State) : (beginBuf s).pending = s.pending := rfl
@[simp] theorem beginBuf_usedHandles (s : State) : (beginBuf s).usedHandles = s.usedHandles := rfl
@[simp] theorem beginBuf_inputs (s : State) : (beginBuf s).inputs = s.inputs := rfl
@[simp] theorem beginBuf_ret (s : State) : (beginBuf s).ret = .unit := rfl
@[simp] theorem beginBuf_draws (s : State) : (beginBuf s).draws = s.draws := rfl

/-! ### storeCode -/

@[simp] theorem storeCode_cfg (c : PulseCode) (s : State) : (storeCode c s).cfg = s.cfg := rfl
@[simp] theorem storeCode_table (c : PulseCode) (s : State) : (storeCode c s).table = s.table := rfl
@[simp] theorem storeCode_buf (c : PulseCode) (s : State) : (storeCode c s).buf = Memory.write s.buf s.cursor c := rfl
@[simp] theorem storeCode_cursor (c : PulseCode) (s : State) : (storeCode c s).cursor = s.cursor + 1 := rfl
@[simp] theorem storeCode_phase (c : PulseCode) (s : State) : (storeCode c s).phase = s.phase := rfl
@[simp] theorem storeCode_waitMode (c : PulseCode) (s : State) : (storeCode c s).waitMode = s.waitMode := rfl
@[simp] theorem storeCode_result (c : PulseCode) (s : State) : (storeCode c s).result = s.result := rfl
@[simp] theorem storeCode_tx (c : PulseCode) (s : State) : (storeCode c s).tx = s.tx := rfl
@[simp] theorem storeCode_task (c : PulseCode) (s : State) : (storeCode c s).task = s.task := rfl
@[simp] theorem storeCode_history (c : PulseCode) (s : State) : (storeCode c s).history = s.history := rfl
@[simp] theorem storeCode_stream (c : PulseCode) (s : State) : (storeCode c s).stream = s.stream := rfl
@[simp] theorem storeCode_wire (c : PulseCode) (s : State) : (storeCode c s).wire = s.wire := rfl
@[simp] theorem storeCode_line (c : PulseCode) (s : State) : (storeCode c s).line = s.line := rfl
@[simp] theorem storeCode_pending (c : PulseCode) (s : State) : (storeCode c s).pending = s.pending := rfl
@[simp] theorem storeCode_usedHandles (c : PulseCode) (s : State) : (storeCode c s).usedHandles = s.usedHandles := rfl
@[simp] theorem storeCode_inputs (c : PulseCode) (s : State) : (storeCode c s).inputs = s.inputs := rfl
@[simp] theorem storeCode_ret (c : PulseCode) (s : State) : (storeCode c s).ret = s.ret := rfl
@[simp] theorem storeCode_draws (c : PulseCode) (s : State) : (storeCode c s).draws = s.draws := rfl

/-! ### submitFrame -/

@[simp] theorem submitFrame_cfg (frame : List PulseCode) (s : State) : (submitFrame frame s).cfg = s.cfg := rfl
@[simp] theorem submitFrame_table (frame : List PulseCode) (s : State) : (submitFrame frame s).table = s.table := rfl
@[simp] theorem submitFrame_buf (frame : List PulseCode) (s : State) : (submitFrame frame s).buf = s.buf := rfl
@[simp] theorem submitFrame_cursor (frame : List PulseCode) (s : State) : (submitFrame frame s).cursor = s.cursor := rfl
@[simp] theorem submitFrame_phase (frame : List PulseCode) (s : State) : (submitFrame frame s).phase = .transmitting := rfl
@[simp] theorem submitFrame_waitMode (frame : List PulseCode) (s : State) : (submitFrame frame s).waitMode = s.waitMode := rfl
@[simp] theorem submitFrame_result (frame : List PulseCode) (s : State) : (submitFrame frame s).result = s.result := rfl
@[simp] theorem submitFrame_tx (frame : List PulseCode) (s : State) : (submitFrame frame s).tx = some (newTx s.nextHandle frame) := rfl
@[simp] theorem submitFrame_task (frame : List PulseCode) (s : State) : (submitFrame frame s).task = s.task := rfl
@[simp] theorem submitFrame_history (frame : List PulseCode) (s : State) : (submitFrame frame s).history = s.history ++ [.submit s.nextHandle frame] := rfl
@[simp] theorem submitFrame_stream (frame : List PulseCode) (s : State) : (submitFrame frame s).stream = s.stream := rfl
@[simp] theorem submitFrame_wire (frame : List PulseCode) (s : State) : (submitFrame frame s).wire = s.wire := rfl
@[simp] theorem submitFrame_line (frame : List PulseCode) (s : State) : (submitFrame frame s).line = s.line := rfl
@[simp] theorem submitFrame_pending (frame : List PulseCode) (s : State) : (submitFrame frame s).pending = s.pending := rfl
@[simp] theorem submitFrame_usedHandles (frame : List PulseCode) (s : State) : (submitFrame frame s).usedHandles = s.nextHandle :: s.usedHandles := rfl
@[simp] theorem submitFrame_inputs (frame : List PulseCode) (s : State) : (submitFrame frame s).inputs = s.inputs := rfl
@[simp] theorem submitFrame_ret (frame : List PulseCode) (s : State) : (submitFrame frame s).ret = .handle s.nextHandle := rfl
@[simp] theorem submitFrame_draws (frame : List PulseCode) (s : State) : (submitFrame frame s).draws = s.draws + 1 := rfl

/-! ### registerWaker -/

@[simp] theorem registerWaker_cfg (t : Tx) (w : Waker) (s : State) : (registerWaker t w s).cfg = s.cfg := rfl
@[simp] theorem registerWaker_table (t : Tx) (w : Waker) (s : State) : (registerWaker t w s).table = s.table := rfl
@[simp] theorem registerWaker_buf (t : Tx) (w : Waker) (s : State) : (registerWaker t w s).buf = s.buf := rfl
@[simp] theorem registerWaker_cursor (t : Tx) (w : Waker) (s : State) : (registerWaker t w s).cursor = s.cursor := rfl
@[simp] theorem registerWaker_phase (t : Tx) (w : Waker) (s : State) : (registerWaker t w s).phase = s.phase := rfl
@[simp] theorem registerWaker_waitMode (t : Tx) (w : Waker) (s : State) : (registerWaker t w s).waitMode = s.waitMode := rfl
@[simp] theorem registerWaker_result (t : Tx) (w : Waker) (s : State) : (registerWaker t w s).result = s.result := rfl
@[simp] theorem registerWaker_tx (t : Tx) (w : Waker) (s : State) : (registerWaker t w s).tx = some { t with waker := some w } := rfl
@[simp] theorem registerWaker_task (t : Tx) (w : Waker) (s : State) : (registerWaker t w s).task = s.task := rfl
@[simp] theorem registerWaker_history (t : Tx) (w : Waker) (s : State) : (registerWaker t w s).history = s.history := rfl
@[simp] theorem registerWaker_stream (t : Tx) (w : Waker) (s : State) : (registerWaker t w s).stream = s.stream := rfl
@[simp] theorem registerWaker_wire (t : Tx) (w : Waker) (s : State) : (registerWaker t w s).wire = s.wire := rfl
@[simp] theorem registerWaker_line (t : Tx) (w : Waker) (s : State) : (registerWaker t w s).line = s.line := rfl
@[simp] theorem registerWaker_pending (t : Tx) (w : Waker) (s : State) : (registerWaker t w s).pending = s.pending := rfl
@[simp] theorem registerWaker_usedHandles (t : Tx) (w : Waker) (s : State) : (registerWaker t w s).usedHandles = s.usedHandles := rfl
@[simp] theorem registerWaker_inputs (t : Tx) (w : Waker) (s : State) : (registerWaker t w s).inputs = s.inputs := rfl
@[simp] theorem registerWaker_ret (t : Tx) (w : Waker) (s : State) : (registerWaker t w s).ret = .unit := rfl
@[simp] theorem registerWaker_draws (t : Tx) (w : Waker) (s : State) : (registerWaker t w s).draws = s.draws := rfl

/-! ### startPass -/

@[simp] theorem startPass_cfg (colors : List Color) (s : State) : (startPass colors s).cfg = s.cfg := rfl
@[simp] theorem startPass_table (colors : List Color) (s : State) : (startPass colors s).table = s.table := rfl
@[simp] theorem startPass_buf (colors : List Color) (s : State) : (startPass colors s).buf = s.buf := rfl
@[simp] theorem startPass_cursor (colors : List Color) (s : State) : (startPass colors s).cursor = 0 := rfl
@[simp] theorem startPass_phase (colors : List Color) (s : State) : (startPass colors s).phase = .encoding := rfl
@[simp] theorem startPass_waitMode (colors : List Color) (s : State) : (startPass colors s).waitMode = s.waitMode := rfl
@[simp] theorem startPass_result (colors : List Color) (s : State) : (startPass colors s).result = s.result := rfl
@[simp] theorem startPass_tx (colors : List Color) (s : State) : (startPass colors s).tx = s.tx := rfl
@[simp] theorem startPass_task (colors : List Color) (s : State) : (startPass colors s).task = s.task := rfl
@[simp] theorem startPass_history (colors : List Color) (s : State) : (startPass colors s).history = s.history := rfl
@[simp] theorem startPass_stream (colors : List Color) (s : State) : (startPass colors s).stream = colors := rfl
@[simp] theorem startPass_wire (colors : List Color) (s : State) : (startPass colors s).wire = s.wire := rfl
@[simp] theorem startPass_line (colors : List Color) (s : State) : (startPass colors s).line = s.line := rfl
@[simp] theorem startPass_pending (colors : List Color) (s : State) : (startPass colors s).pending = s.pending := rfl
@[simp] theorem startPass_usedHandles (colors : List Color) (s : State) : (startPass colors s).usedHandles = s.usedHandles := rfl
@[simp] theorem startPass_inputs (colors : List Color) (s : State) : (startPass colors s).inputs = s.inputs := rfl
@[simp] theorem startPass_ret (colors : List Color) (s : State) : (startPass colors s).ret = .unit := rfl
@[simp] theorem startPass_draws (colors : List Color) (s : State) : (startPass colors s).draws = s.draws := rfl

/-! ### construct -/

@[simp] theorem construct_cfg (cfg : Cfg) (table : TimingTable) (s : State) : (construct cfg table s).cfg = cfg := rfl
@[simp] theorem construct_table (cfg : Cfg) (table : TimingTable) (s : State) : (construct cfg table s).table = table := rfl
@[simp] theorem construct_buf (cfg : Cfg) (table : TimingTable) (s : State) : (construct cfg table s).buf = [] := rfl
@[simp] theorem construct_cursor (cfg : Cfg) (table : TimingTable) (s : State) : (construct cfg table s).cursor = 0 := rfl
@[simp] theorem construct_phase (cfg : Cfg) (table : TimingTable) (s : State) : (construct cfg table s).phase = .idle := rfl
@[simp] theorem construct_waitMode (cfg : Cfg) (table : TimingTable) (s : State) : (construct cfg table s).waitMode = s.waitMode := rfl
@[simp] theorem construct_result (cfg : Cfg) (table : TimingTable) (s : State) : (construct cfg table s).result = none := rfl
@[simp] theorem construct_tx (cfg : Cfg) (table : TimingTable) (s : State) : (construct cfg table s).tx = none := rfl
@[simp] theorem construct_task (cfg : Cfg) (table : TimingTable) (s : State) : (construct cfg table s).task = .running := rfl
@[simp] theorem construct_history (cfg : Cfg) (table : TimingTable) (s : State) : (construct cfg table s).history = s.history ++ [.constructed cfg table] := rfl
@[simp] theorem construct_stream (cfg : Cfg) (table : TimingTable) (s : State) : (construct cfg table s).stream = s.stream := rfl
@[simp] theorem construct_wire (cfg : Cfg) (table : TimingTable) (s : State) : (construct cfg table s).wire = s.wire := rfl
@[simp] theorem construct_line (cfg : Cfg) (table : TimingTable) (s : State) : (construct cfg table s).line = s.line := rfl
@[simp] theorem construct_pending (cfg : Cfg) (table : TimingTable) (s : State) : (construct cfg table s).pending = s.pending := rfl
@[simp] theorem construct_usedHandles (cfg : Cfg) (table : TimingTable) (s : State) : (construct cfg table s).usedHandles = [] := rfl
@[simp] theorem construct_inputs (cfg : Cfg) (table : TimingTable) (s : State) : (construct cfg table s).inputs = s.inputs := rfl
@[simp] theorem construct_ret (cfg : Cfg) (table : TimingTable) (s : State) : (construct cfg table s).ret = .adapter := rfl
@[simp] theorem construct_draws (cfg : Cfg) (table : TimingTable) (s : State) : (construct cfg table s).draws = s.draws := rfl

/-! ### reportDone -/

@[simp] theorem reportDone_cfg (r : Report) (t : Tx) (s : State) : (reportDone r t s).cfg = s.cfg := rfl
@[simp] theorem reportDone_table (r : Report) (t : Tx) (s : State) : (reportDone r t s).table = s.table := rfl
@[simp] theorem reportDone_buf (r : Report) (t : Tx) (s : State) : (reportDone r t s).buf = s.buf := rfl
@[simp] theorem reportDone_cursor (r : Report) (t : Tx) (s : State) : (reportDone r t s).cursor = s.cursor := rfl
@[simp] theorem reportDone_phase (r : Report) (t : Tx) (s : State) : (reportDone r t s).phase = s.phase := rfl
@[simp] theorem reportDone_waitMode (r : Report) (t : Tx) (s : State) : (reportDone r t s).waitMode = s.waitMode := rfl
@[simp] theorem reportDone_result (r : Report) (t : Tx) (s : State) : (reportDone r t s).result = s.result := rfl
@[simp] theorem reportDone_tx (r : Report) (t : Tx) (s : State) : (reportDone r t s).tx = some (reportedTx r t) := rfl
@[simp] theorem reportDone_task (r : Report) (t : Tx) (s : State) : (reportDone r t s).task = s.task := rfl
@[simp] theorem reportDone_history (r : Report) (t : Tx) (s : State) : (reportDone r t s).history = s.history ++ [.done t.handle r] := rfl
@[simp] theorem reportDone_stream (r : Report) (t : Tx) (s : State) : (reportDone r t s).stream = s.stream := rfl
@[simp] theorem reportDone_wire (r : Report) (t : Tx) (s : State) : (reportDone r t s).wire = s.wire ++ reportSegments r s.draws t := rfl
@[simp] theorem reportDone_line (r : Report) (t : Tx) (s : State) : (reportDone r t s).line = reportLevel r s.draws t := rfl
@[simp] theorem reportDone_pending (r : Report) (t : Tx) (s : State) : (reportDone r t s).pending = s.pending := rfl
@[simp] theorem reportDone_usedHandles (r : Report) (t : Tx) (s : State) : (reportDone r t s).usedHandles = s.usedHandles := rfl
@[simp] theorem reportDone_inputs (r : Report) (t : Tx) (s : State) : (reportDone r t s).inputs = s.inputs := rfl
@[simp] theorem reportDone_ret (r : Report) (t : Tx) (s : State) : (reportDone r t s).ret = .unit := rfl
@[simp] theorem reportDone_draws (r : Report) (t : Tx) (s : State) : (reportDone r t s).draws = s.draws + 1 := rfl

/-! ### takeColor -/

@[simp] theorem takeColor_cfg (s : State) : (takeColor s).cfg = s.cfg := rfl
@[simp] theorem takeColor_table (s : State) : (takeColor s).table = s.table := rfl
@[simp] theorem takeColor_buf (s : State) : (takeColor s).buf = s.buf := rfl
@[simp] theorem takeColor_cursor (s : State) : (takeColor s).cursor = s.cursor := rfl
@[simp] theorem takeColor_phase (s : State) : (takeColor s).phase = s.phase := rfl
@[simp] theorem takeColor_waitMode (s : State) : (takeColor s).waitMode = s.waitMode := rfl
@[simp] theorem takeColor_result (s : State) : (takeColor s).result = s.result := rfl
@[simp] theorem takeColor_tx (s : State) : (takeColor s).tx = s.tx := rfl
@[simp] theorem takeColor_task (s : State) : (takeColor s).task = s.task := rfl
@[simp] theorem takeColor_history (s : State) : (takeColor s).history = s.history := rfl
@[simp] theorem takeColor_stream (s : State) : (takeColor s).stream = s.stream.drop 1 := rfl
@[simp] theorem takeColor_wire (s : State) : (takeColor s).wire = s.wire := rfl
@[simp] theorem takeColor_line (s : State) : (takeColor s).line = s.line := rfl
@[simp] theorem takeColor_pending (s : State) : (takeColor s).pending = s.pending := rfl
@[simp] theorem takeColor_usedHandles (s : State) : (takeColor s).usedHandles = s.usedHandles := rfl
@[simp] theorem takeColor_inputs (s : State) : (takeColor s).inputs = s.inputs := rfl
@[simp] theorem takeColor_ret (s : State) : (takeColor s).ret = s.ret := rfl
@[simp] theorem takeColor_draws (s : State) : (takeColor s).draws = s.draws := rfl

/-! ### suspend -/

@[simp] theorem suspend_cfg (s : State) : (suspend s).cfg = s.cfg := rfl
@[simp] theorem suspend_table (s : State) : (suspend s).table = s.table := rfl
@[simp] theorem suspend_buf (s : State) : (suspend s).buf = s.buf := rfl
@[simp] theorem suspend_cursor (s : State) : (suspend s).cursor = s.cursor := rfl
@[simp] theorem suspend_phase (s : State) : (suspend s).phase = s.phase := rfl
@[simp] theorem suspend_waitMode (s : State) : (suspend s).waitMode = s.waitMode := rfl
@[simp] theorem suspend_result (s : State) : (suspend s).result = s.result := rfl
@[simp] theorem suspend_tx (s : State) : (suspend s).tx = s.tx := rfl
@[simp] theorem suspend_task (s : State) : (suspend s).task = .suspended := rfl
@[simp] theorem suspend_history (s : State) : (suspend s).history = s.history := rfl
@[simp] theorem suspend_stream (s : State) : (suspend s).stream = s.stream := rfl
@[simp] theorem suspend_wire (s : State) : (suspend s).wire = s.wire := rfl
@[simp] theorem suspend_line (s : State) : (suspend s).line = s.line := rfl
@[simp] theorem suspend_pending (s : State) : (suspend s).pending = s.pending := rfl
@[simp] theorem suspend_usedHandles (s : State) : (suspend s).usedHandles = s.usedHandles := rfl
@[simp] theorem suspend_inputs (s : State) : (suspend s).inputs = s.inputs := rfl
@[simp] theorem suspend_ret (s : State) : (suspend s).ret = s.ret := rfl
@[simp] theorem suspend_draws (s : State) : (suspend s).draws = s.draws := rfl

/-! ### invoke -/

@[simp] theorem invoke_cfg (parts : List Instr) (s : State) : (invoke parts s).cfg = s.cfg := rfl
@[simp] theorem invoke_table (parts : List Instr) (s : State) : (invoke parts s).table = s.table := rfl
@[simp] theorem invoke_buf (parts : List Instr) (s : State) : (invoke parts s).buf = s.buf := rfl
@[simp] theorem invoke_cursor (parts : List Instr) (s : State) : (invoke parts s).cursor = s.cursor := rfl
@[simp] theorem invoke_phase (parts : List Instr) (s : State) : (invoke parts s).phase = s.phase := rfl
@[simp] theorem invoke_waitMode (parts : List Instr) (s : State) : (invoke parts s).waitMode = s.waitMode := rfl
@[simp] theorem invoke_result (parts : List Instr) (s : State) : (invoke parts s).result = s.result := rfl
@[simp] theorem invoke_tx (parts : List Instr) (s : State) : (invoke parts s).tx = s.tx := rfl
@[simp] theorem invoke_task (parts : List Instr) (s : State) : (invoke parts s).task = s.task := rfl
@[simp] theorem invoke_history (parts : List Instr) (s : State) : (invoke parts s).history = s.history := rfl
@[simp] theorem invoke_stream (parts : List Instr) (s : State) : (invoke parts s).stream = s.stream := rfl
@[simp] theorem invoke_wire (parts : List Instr) (s : State) : (invoke parts s).wire = s.wire := rfl
@[simp] theorem invoke_line (parts : List Instr) (s : State) : (invoke parts s).line = s.line := rfl
@[simp] theorem invoke_pending (parts : List Instr) (s : State) : (invoke parts s).pending = parts ++ s.pending := rfl
@[simp] theorem invoke_usedHandles (parts : List Instr) (s : State) : (invoke parts s).usedHandles = s.usedHandles := rfl
@[simp] theorem invoke_inputs (parts : List Instr) (s : State) : (invoke parts s).inputs = s.inputs := rfl
@[simp] theorem invoke_ret (parts : List Instr) (s : State) : (invoke parts s).ret = s.ret := rfl
@[simp] theorem invoke_draws (parts : List Instr) (s : State) : (invoke parts s).draws = s.draws := rfl

/-! ### takeError, endWait -/

@[simp] theorem takeError_construct (k : ConstructError) (s : State) :
    takeError (.construct k) s =
      { s with history := s.history ++ [.constructFailed k], ret := .raised (.construct k) } := rfl

@[simp] theorem takeError_overflow (s : State) :
    takeError (.write .bufferOverflow) s = endAttempt (.failed .bufferOverflow) { s with cursor := 0 } := rfl

@[simp] theorem takeError_peripheral (e : PeriphErr) (s : State) :
    takeError (.write (.peripheralError e)) s = endAttempt (.failed (.peripheralError e)) s := rfl

/-- Whatever is reported, the wait ends the attempt with that result. -/
theorem endWait_eq (r : Report) (s : State) : endWait r s = endAttempt r.result s := by
  cases r <;> rfl

@[simp] theorem Config.tickMax_eq : Config.tickMax = 32767 := rfl

end Sys2Proof.Machine
end

