-- ==== Sys2Proof/Laws/Ops.lean ====
section
/-! SUPPORT. Everything each shared operation can do, said once: appending codes, encoding colours, the encode pass, handles, the wire. -/

namespace Sys2Proof.Machine

/-! ### Encoding -/

theorem encodeByte_length (t : TimingTable) (b : Byte) : (encodeByte t b).length = 8 := rfl

theorem encodeColor_length (order : List Nat) (t : TimingTable) (c : Color) :
    (encodeColor order t c).length = 8 * order.length := by
  induction order with
  | nil => rfl
  | cons k ks ih =>
    have : encodeColor (k :: ks) t c = encodeByte t (colorField c k) ++ encodeColor ks t c := by
      simp [encodeColor, wireBytes]
    rw [this, List.length_append, ih, encodeByte_length, List.length_cons]; omega

theorem dataCodes_nil (cfg : Cfg) (t : TimingTable) : dataCodes cfg t [] = [] := rfl

theorem dataCodes_cons (cfg : Cfg) (t : TimingTable) (c : Color) (cs : List Color) :
    dataCodes cfg t (c :: cs) = encodeColor cfg.channelOrder t c ++ dataCodes cfg t cs := by
  simp [dataCodes]

theorem dataCodes_length (cfg : Cfg) (t : TimingTable) (colors : List Color) :
    (dataCodes cfg t colors).length = colors.length * cfg.bitsPerColor := by
  induction colors with
  | nil => simp [dataCodes]
  | cons c cs ih =>
    rw [dataCodes_cons, List.length_append, ih, encodeColor_length, List.length_cons, Nat.add_mul, Cfg.bitsPerColor,
      Cfg.nch]
    omega

theorem frameOf_length (cfg : Cfg) (t : TimingTable) (colors : List Color) :
    (frameOf cfg t colors).length = colors.length * cfg.bitsPerColor + 1 := by
  simp [frameOf, dataCodes_length]

/-- A legal channel order has 3 or 4 entries. -/
theorem orderLegal_length {o : List Nat} (h : orderLegal o = true) : o.length = 3 ∨ o.length = 4 := by
  simp only [orderLegal, Bool.or_eq_true, Bool.and_eq_true, beq_iff_eq] at h
  rcases h with h | h
  · exact Or.inl h.1
  · exact Or.inr h.1

/-! ### Appending -/

theorem appendCode_of_room {c : PulseCode} {s : State} (h : s.cursor < s.cfg.capacity) :
    appendCode c s = some (storeCode c s) := by
  simp [appendCode, Nat.not_le.2 h]

theorem appendCode_full {c : PulseCode} {s : State} (h : s.cfg.capacity ≤ s.cursor) : appendCode c s = none := by
  simp [appendCode, h]

/-- The state after a run of stores. -/
def storeCodes (cs : List PulseCode) (s : State) : State :=
  { s with buf := Memory.writeAll s.buf s.cursor cs, cursor := s.cursor + cs.length }

/-- Codes that fit are all stored. -/
theorem appendCodes_fit (cs : List PulseCode) (s : State) (h : s.cursor + cs.length ≤ s.cfg.capacity) :
    appendCodes cs s = (storeCodes cs s, true) := by
  induction cs generalizing s with
  | nil => rfl
  | cons c cs ih =>
    simp only [List.length_cons] at h
    simp only [appendCodes]
    rw [appendCode_of_room (by omega)]
    refine (ih _ (by simp; omega)).trans ?_
    simp [storeCodes, storeCode, Memory.writeAll, Nat.add_assoc, Nat.add_comm 1]

/-- Codes that do not fit fill BUF to its last entry, and the next PUSH raises. -/
theorem appendCodes_overflow (cs : List PulseCode) (s : State) (h0 : s.cursor ≤ s.cfg.capacity)
    (h : s.cfg.capacity < s.cursor + cs.length) :
    appendCodes cs s = (storeCodes (cs.take (s.cfg.capacity - s.cursor)) s, false) := by
  induction cs generalizing s with
  | nil => simp at h; omega
  | cons c cs ih =>
    simp only [List.length_cons] at h
    simp only [appendCodes]
    by_cases hr : s.cursor < s.cfg.capacity
    · rw [appendCode_of_room hr]
      refine (ih _ (by simp; omega) (by simp; omega)).trans ?_
      obtain ⟨k, hk⟩ : ∃ k, s.cfg.capacity - s.cursor = k + 1 := ⟨s.cfg.capacity - s.cursor - 1, by omega⟩
      have hk' : s.cfg.capacity - (s.cursor + 1) = k := by omega
      simp [storeCodes, storeCode, Memory.writeAll, hk, hk', Nat.add_assoc, Nat.add_comm 1]
    · rw [appendCode_full (by omega)]
      have : s.cfg.capacity - s.cursor = 0 := by omega
      simp [storeCodes, this, Memory.writeAll]

/-- Colours that fit are all taken and stored. -/
theorem encodeColors_fit (colors : List Color) (s : State) (hs : s.stream = colors)
    (h : s.cursor + colors.length * s.cfg.bitsPerColor ≤ s.cfg.capacity) :
    encodeColors colors s = (storeCodes (dataCodes s.cfg s.table colors) { s with stream := [] }, true) := by
  induction colors generalizing s with
  | nil =>
    obtain ⟨⟩ := s
    simp only at hs
    simp [encodeColors, storeCodes, dataCodes, Memory.writeAll, hs]
  | cons c cs ih =>
    have hl := encodeColor_length s.cfg.channelOrder s.table c
    simp only [List.length_cons, Nat.add_mul, Nat.one_mul] at h
    have hb : s.cfg.bitsPerColor = 8 * s.cfg.channelOrder.length := rfl
    simp only [encodeColors]
    rw [appendCodes_fit _ _ (by simp only [hl, ← hb]; omega)]
    simp only
    rw [ih _ (by simp [storeCodes]) (by simp only [storeCodes, hl, ← hb]; omega)]
    simp [storeCodes, dataCodes_cons, Memory.writeAll_append, Nat.add_assoc]

/-- Colours that do not fit: BUF is full of data codes, and the colours after the one that overflowed are not taken. -/
theorem encodeColors_overflow (colors : List Color) (s : State) (hs : s.stream = colors) (hb0 : 0 < s.cfg.bitsPerColor)
    (h0 : s.cursor ≤ s.cfg.capacity) (h : s.cfg.capacity < s.cursor + colors.length * s.cfg.bitsPerColor) :
    encodeColors colors s =
      (storeCodes ((dataCodes s.cfg s.table colors).take (s.cfg.capacity - s.cursor))
        { s with stream := colors.drop ((s.cfg.capacity - s.cursor) / s.cfg.bitsPerColor + 1) }, false) := by
  induction colors generalizing s with
  | nil => simp at h; omega
  | cons c cs ih =>
    have hl := encodeColor_length s.cfg.channelOrder s.table c
    simp only [List.length_cons, Nat.add_mul, Nat.one_mul] at h
    have hb : s.cfg.bitsPerColor = 8 * s.cfg.channelOrder.length := rfl
    simp only [encodeColors]
    by_cases hf : s.cursor + s.cfg.bitsPerColor ≤ s.cfg.capacity
    · rw [appendCodes_fit _ _ (by simp only [hl, ← hb]; omega)]
      simp only
      rw [ih _ (by simp [storeCodes]) (by simpa [storeCodes] using hb0) (by simp only [storeCodes, hl, ← hb]; omega)
        (by simp only [storeCodes, hl, ← hb]; omega)]
      have e1 : (s.cfg.capacity - s.cursor) / s.cfg.bitsPerColor
          = (s.cfg.capacity - (s.cursor + s.cfg.bitsPerColor)) / s.cfg.bitsPerColor + 1 := by
        have : s.cfg.capacity - s.cursor = s.cfg.capacity - (s.cursor + s.cfg.bitsPerColor) + s.cfg.bitsPerColor := by
          omega
        rw [this, Nat.add_div_right _ hb0]
      have e2 : List.take (s.cfg.capacity - s.cursor) (encodeColor s.cfg.channelOrder s.table c ++ dataCodes s.cfg s.table cs)
          = encodeColor s.cfg.channelOrder s.table c ++
            List.take (s.cfg.capacity - (s.cursor + s.cfg.bitsPerColor)) (dataCodes s.cfg s.table cs) := by
        rw [List.take_append, List.take_of_length_le (by omega), hl, ← hb, Nat.sub_add_eq]
      simp only [storeCodes, dataCodes_cons, e2, Memory.writeAll_append, List.length_append, hl, ← hb, e1]
      simp [Nat.add_assoc]
    · rw [appendCodes_overflow _ { s with stream := cs } h0 (by simp only [hl, ← hb]; omega)]
      have e1 : (s.cfg.capacity - s.cursor) / s.cfg.bitsPerColor = 0 := Nat.div_eq_of_lt (by omega)
      have e2 : List.take (s.cfg.capacity - s.cursor) (encodeColor s.cfg.channelOrder s.table c ++ dataCodes s.cfg s.table cs)
          = List.take (s.cfg.capacity - s.cursor) (encodeColor s.cfg.channelOrder s.table c) := by
        rw [List.take_append_of_le_length (by omega)]
      simp [storeCodes, dataCodes_cons, e2, e1]

/-! ### The encode pass -/

/-- FINISH with room for the marker and a written prefix. -/
theorem finishBuf_of_room {s : State} {frame : List PulseCode} (h : s.cursor < s.cfg.capacity)
    (hf : (storeCode s.table.resetCode s).filled = some frame) :
    finishBuf s = .next (setRet (.frame frame) (storeCode s.table.resetCode s)) := by
  unfold finishBuf
  rw [appendCode_of_room h]
  simp only [hf]

/-- The state after a pass that succeeds: the frame is in BUF from index 0 on, CURSOR is its length, RET holds it, and the stream is empty. -/
def passDone (colors : List Color) (s : State) : State :=
  { s with
    phase := .encoding, stream := []
    buf := Memory.writeAll s.buf 0 (frameOf s.cfg s.table colors)
    cursor := (frameOf s.cfg s.table colors).length
    ret := .frame (frameOf s.cfg s.table colors) }

/-- The state after a pass that overflows (R76, R97): BUF is full of data codes, CURSOR is 0, the attempt has ended. -/
def passOverflow (colors : List Color) (s : State) : State :=
  endAttempt (.failed .bufferOverflow)
    { s with
      stream := colors.drop (s.cfg.maxLedCount + 1)
      buf := Memory.writeAll s.buf 0 ((dataCodes s.cfg s.table colors).take s.cfg.capacity)
      cursor := 0 }

theorem capacity_eq (cfg : Cfg) : cfg.capacity = cfg.maxLedCount * cfg.bitsPerColor + 1 := rfl

/-- The data codes of a sequence fit beside the marker. -/
def Fits (colors : List Color) (cfg : Cfg) : Prop := colors.length * cfg.bitsPerColor ≤ cfg.dataCapacity

/-- At most MAX_LED_COUNT colours always fit. -/
theorem fits_of_le {colors : List Color} {cfg : Cfg} (h : colors.length ≤ cfg.maxLedCount) : Fits colors cfg :=
  Nat.mul_le_mul_right _ h

/-- With a channel order of at least one channel, only they do (R76). -/
theorem fits_iff {colors : List Color} {cfg : Cfg} (h : 1 ≤ cfg.nch) : Fits colors cfg ↔ colors.length ≤ cfg.maxLedCount := by
  have hb : 0 < cfg.bitsPerColor := by simp only [Cfg.bitsPerColor]; omega
  exact ⟨fun hf => Nat.le_of_mul_le_mul_right hf hb, fits_of_le⟩

/-- A sequence that fits is encoded whole. -/
theorem encodePass_fit (colors : List Color) (s : State) (h : Fits colors s.cfg) :
    encodePass colors s = .next (passDone colors s) := by
  have hc : s.cfg.capacity = s.cfg.dataCapacity + 1 := rfl
  have hl := dataCodes_length s.cfg s.table colors
  have hw : Memory.write (Memory.writeAll s.buf 0 (dataCodes s.cfg s.table colors))
      (0 + (dataCodes s.cfg s.table colors).length) s.table.resetCode =
      Memory.writeAll s.buf 0 (frameOf s.cfg s.table colors) := by
    rw [frameOf, Memory.writeAll_append]; rfl
  have hst : storeCode s.table.resetCode (storeCodes (dataCodes s.cfg s.table colors)
      { startPass colors s with stream := [] }) = { passDone colors s with ret := .unit } := by
    simp only [storeCode, storeCodes, startPass_buf, startPass_cursor, hw]
    simp [passDone, frameOf, startPass, beginBuf, resetCursor, setRet]
  have hf : ({ passDone colors s with ret := .unit } : State).filled = some (frameOf s.cfg s.table colors) :=
    Memory.readRange_writeAll s.buf 0 (frameOf s.cfg s.table colors)
  unfold Fits at h
  unfold encodePass
  rw [encodeColors_fit _ _ (by simp) (by simp; omega)]
  refine (finishBuf_of_room (frame := frameOf s.cfg s.table colors) ?_ ?_).trans ?_
  · simp [storeCodes]; omega
  · exact (congrArg State.filled hst).trans hf
  · exact congrArg (fun t => Host.Outcome.next (setRet (.frame (frameOf s.cfg s.table colors)) t)) hst

/-- A sequence that does not fit overflows at the second code of the first colour too many (R73, R76). -/
theorem encodePass_overflow (colors : List Color) (s : State) (h : ¬ Fits colors s.cfg) :
    encodePass colors s = .next (passOverflow colors s) := by
  unfold Fits at h
  have hb : 8 ≤ s.cfg.bitsPerColor := by
    by_contra hn
    have : s.cfg.bitsPerColor = 0 := by simp only [Cfg.bitsPerColor] at hn ⊢; omega
    simp [this] at h
  have hlt : s.cfg.maxLedCount < colors.length := by
    by_contra hn
    exact h (fits_of_le (Nat.le_of_not_lt hn))
  have hm : (s.cfg.maxLedCount + 1) * s.cfg.bitsPerColor ≤ colors.length * s.cfg.bitsPerColor :=
    Nat.mul_le_mul_right _ hlt
  rw [Nat.add_mul] at hm
  have hc : s.cfg.capacity = s.cfg.maxLedCount * s.cfg.bitsPerColor + 1 := rfl
  have hd : s.cfg.capacity / s.cfg.bitsPerColor = s.cfg.maxLedCount := by
    rw [hc, Nat.add_comm, Nat.add_mul_div_right _ _ (by omega), Nat.div_eq_of_lt (by omega)]; omega
  unfold encodePass
  rw [encodeColors_overflow _ _ (by simp) (by simp; omega) (by simp) (by simp; omega)]
  simp [passOverflow, storeCodes, endAttempt, hd, startPass, beginBuf, resetCursor, setRet]

/-- Steps 1 to 4 of an attempt that fits: the frame is submitted. -/
theorem encodeAndSubmit_fit (colors : List Color) (s : State) (h : Fits colors s.cfg) :
    encodeAndSubmit colors s = .next (submitFrame (frameOf s.cfg s.table colors) (passDone colors s)) := by
  simp [encodeAndSubmit, encodePass_fit colors s h, passDone]

/-- Steps 1 to 4 of an attempt that does not fit: nothing is submitted. -/
theorem encodeAndSubmit_overflow (colors : List Color) (s : State) (h : ¬ Fits colors s.cfg) :
    encodeAndSubmit colors s = .next (passOverflow colors s) := by
  simp [encodeAndSubmit, encodePass_overflow colors s h, passOverflow, AttemptResult.ret]

/-! ### Starting an attempt -/

theorem startRefusal_none {colors : List Color} {s : State} :
    startRefusal colors s = none ↔ s.phase = .idle ∧ colors.all s.cfg.fits = true := by
  unfold startRefusal
  cases hp : s.phase <;> simp

theorem newRefusal_none {order : List Nat} {s : State} :
    newRefusal order s = none ↔ s.phase = .unconstructed ∧ orderLegal order = true := by
  unfold newRefusal
  cases hp : s.phase <;> cases ho : orderLegal order <;> simp

/-! ### Handles -/

/-- The tag above all used ones is unused. -/
theorem tag_le_foldr_max (used : List Handle) (h : Handle) (hm : h ∈ used) :
    h.tag ≤ used.foldr (fun h m => max h.tag m) 0 := by
  induction used with
  | nil => cases hm
  | cons a as ih =>
    simp only [List.foldr_cons]
    rcases List.mem_cons.1 hm with rfl | hm
    · exact Nat.le_max_left _ _
    · exact (ih hm).trans (Nat.le_max_right _ _)

/-- A drawn handle is fresh (R77). -/
theorem freshHandle_not_mem (used : List Handle) (drawn : Nat) : freshHandle used drawn ∉ used := by
  unfold freshHandle
  split
  · intro hm
    have := tag_le_foldr_max used _ hm
    simp at this
  · assumption

/-- Every unused handle can be drawn. -/
theorem freshHandle_covers (used : List Handle) (h : Handle) (hn : h ∉ used) : freshHandle used h.tag = h := by
  simp [freshHandle, hn]

/-! ### The wire -/

theorem waveform_cons (p : PulseCode) (ps : List PulseCode) :
    waveform (p :: ps) = segmentsOf p ++ if endsOutput p then [] else waveform ps := by
  cases h : endsOutput p <;> simp [waveform, h]

/-- The level inside a waveform is that of the segment the tick falls in. -/
theorem levelAt_inside (pre post : List Segment) (g : Segment) (k : Nat) (h : k < g.ticks) :
    levelAt (pre ++ g :: post) (totalTicks pre + k) = g.level := by
  induction pre with
  | nil => simp [levelAt, totalTicks, h]
  | cons a as ih =>
    have e : totalTicks (a :: as) = a.ticks + totalTicks as := by simp [totalTicks]
    rw [List.cons_append, e, levelAt, if_neg (by omega), show a.ticks + totalTicks as + k - a.ticks = totalTicks as + k by omega]
    exact ih

/-- From the end of a waveform on the pin is at rest (R87). -/
theorem levelAt_end (gs : List Segment) (n : Nat) (h : totalTicks gs ≤ n) : levelAt gs n = restLevel := by
  induction gs generalizing n with
  | nil => rfl
  | cons g gs ih =>
    have e : totalTicks (g :: gs) = g.ticks + totalTicks gs := by simp [totalTicks]
    rw [levelAt, if_neg (by omega)]
    exact ih _ (by omega)

/-- Playing one pulse code: the only way `playPulse` answers next. -/
theorem playPulse_next {p : PulseCode} {s s' : State} (h : playPulse p s = .next s') :
    ∃ t, s.tx = some t ∧ t.status = .pending ∧ t.frame[t.sent]? = some p ∧
      s' = { s with
        wire := s.wire ++ segmentsOf p
        line := levelAfter p
        tx := some { t with sent := if endsOutput p then t.frame.length else t.sent + 1 }
        ret := .unit } := by
  unfold playPulse at h
  split at h
  · cases h
  · rename_i t ht
    split at h
    · cases h
    · split at h
      · cases h
      · rename_i h1 h2
        cases h
        exact ⟨t, ht, by simpa using h1, by simpa using h2, rfl⟩

end Sys2Proof.Machine
end

