-- ==== Sys2Proof/Laws/Exec.lean ====
section
/-! SUPPORT. One inversion lemma per meaning: what its next state can be, and under which guard. Later proofs cite these and unfold no meaning. -/

namespace Sys2Proof.Machine

variable {s t : State}

theorem execNew_next {channel : Channel} {pin : Pin} {spec : ProtocolSpec} {leds : Nat} {order : List Nat}
    (h : execNew channel pin spec leds order s = .next t) :
    s.phase = .unconstructed ∧ orderLegal order = true ∧
      t = newAdapter Config.bufferLimit (newCfg channel pin spec leds order) s := by
  unfold execNew at h
  split at h
  · cases h
  · rename_i h1
    obtain ⟨hp, ho⟩ := newRefusal_none.1 h1
    cases h
    exact ⟨hp, ho, rfl⟩

/-- NEW succeeds with the computed table, or takes one of its two errors, drawing at most once. -/
theorem newAdapter_cases (limit : Option Nat) (cfg : Cfg) (s : State) :
    (∃ table, computeTimings cfg.clockRate cfg.spec = some table ∧ allocFails limit cfg.capacity = false ∧
      newAdapter limit cfg s = construct cfg table s) ∨
    (∃ k n, newAdapter limit cfg s =
      { s with history := s.history ++ [.constructFailed k], ret := .raised (.construct k), draws := s.draws + n }) := by
  unfold newAdapter
  split
  · exact .inr ⟨_, 1, rfl⟩
  · exact .inr ⟨_, 0, rfl⟩
  · exact .inr ⟨_, 0, rfl⟩
  · rename_i table h1 h2
    exact .inl ⟨table, h2, h1, rfl⟩

/-- A NEW is in progress exactly when its step is the next one left to run. -/
theorem newInProgress_iff : s.newInProgress = true ↔
    ∃ channel pin spec leds order ps, s.pending = .new channel pin spec leds order :: ps := by
  unfold State.newInProgress
  split
  · rename_i h
    exact ⟨fun _ => ⟨_, _, _, _, _, _, h⟩, fun _ => rfl⟩
  · rename_i h
    exact ⟨fun h' => absurd h' (by decide), fun ⟨_, _, _, _, _, _, h'⟩ => absurd h' (h _ _ _ _ _ _)⟩

theorem execComputeTimings_next {clockRate : Nat} {spec : ProtocolSpec} (h : execComputeTimings clockRate spec s = .next t) :
    s.newInProgress = true ∧ ∃ r, r = timingsRet (computeTimings clockRate spec) ∧ t = setRet r s := by
  unfold execComputeTimings at h
  split at h
  · cases h
  · rename_i h1
    cases h; exact ⟨by simpa using h1, _, rfl, rfl⟩

theorem execEncodeBit_next {b : Bool} (h : execEncodeBit b s = .next t) :
    s.phase ≠ .unconstructed ∧ t = setRet (.code (encodeBit s.table b)) s := by
  unfold execEncodeBit at h
  split at h
  · cases h
  · cases h; exact ⟨by assumption, rfl⟩

theorem execEncodeByte_next {b : Byte} (h : execEncodeByte b s = .next t) :
    s.phase ≠ .unconstructed ∧ t = setRet (.codes (encodeByte s.table b)) s := by
  unfold execEncodeByte at h
  split at h
  · cases h
  · cases h; exact ⟨by assumption, rfl⟩

theorem execEncodeColor_next {c : Color} (h : execEncodeColor c s = .next t) :
    s.phase ≠ .unconstructed ∧ s.cfg.fits c = true ∧
      t = setRet (.codes (encodeColor s.cfg.channelOrder s.table c)) s := by
  unfold execEncodeColor at h
  split at h
  · cases h
  · split at h
    · cases h
    · rename_i h1 h2
      cases h; exact ⟨h1, by simpa using h2, rfl⟩

theorem execBegin_next (h : execBegin s = .next t) : s.phase = .encoding ∧ t = beginBuf s := by
  unfold execBegin at h
  split at h
  · cases h
  · rename_i h1
    cases h; exact ⟨by simpa using h1, rfl⟩

/-- PUSH appends, or takes BufferOverflow when CURSOR has reached CAPACITY. -/
theorem execPush_next {p : PulseCode} (h : execPush p s = .next t) :
    s.phase = .encoding ∧
      ((s.cursor < s.cfg.capacity ∧ t = setRet .unit (storeCode p s)) ∨
        (s.cfg.capacity ≤ s.cursor ∧ t = takeError (.write .bufferOverflow) s)) := by
  unfold execPush at h
  split at h
  · cases h
  · rename_i h1
    cases h
    refine ⟨by simpa using h1, ?_⟩
    by_cases hc : s.cursor < s.cfg.capacity
    · exact .inl ⟨hc, by simp [pushCode, appendCode_of_room hc]⟩
    · exact .inr ⟨by omega, by simp [pushCode, appendCode_full (Nat.le_of_not_lt hc)]⟩

/-- FINISH appends the marker and returns the filled prefix, or takes BufferOverflow. -/
theorem finishBuf_next (h : finishBuf s = .next t) :
    (s.cursor < s.cfg.capacity ∧ ∃ frame, (storeCode s.table.resetCode s).filled = some frame ∧
        t = setRet (.frame frame) (storeCode s.table.resetCode s)) ∨
      (s.cfg.capacity ≤ s.cursor ∧ t = takeError (.write .bufferOverflow) s) := by
  unfold finishBuf at h
  by_cases hc : s.cursor < s.cfg.capacity
  · rw [appendCode_of_room hc] at h
    simp only at h
    split at h
    · cases h
    · rename_i frame hf
      cases h
      exact .inl ⟨hc, frame, hf, rfl⟩
  · rw [appendCode_full (Nat.le_of_not_lt hc)] at h
    cases h
    exact .inr ⟨by omega, rfl⟩

theorem execFinish_next (h : execFinish s = .next t) : s.phase = .encoding ∧ finishBuf s = .next t := by
  unfold execFinish at h
  split at h
  · cases h
  · rename_i h1
    exact ⟨by simpa using h1, h⟩

/-- ENCODE_PASS fits or overflows; it never faults. -/
theorem execEncodePass_next {colors : List Color} (h : execEncodePass colors s = .next t) :
    s.phase = .idle ∧ colors.all s.cfg.fits = true ∧
      ((Fits colors s.cfg ∧ t = passDone colors s) ∨ (¬ Fits colors s.cfg ∧ t = passOverflow colors s)) := by
  unfold execEncodePass at h
  split at h
  · cases h
  · rename_i h1
    obtain ⟨hp, hf⟩ := startRefusal_none.1 h1
    refine ⟨hp, hf, ?_⟩
    by_cases hc : Fits colors s.cfg
    · rw [encodePass_fit _ _ hc] at h; cases h; exact .inl ⟨hc, rfl⟩
    · rw [encodePass_overflow _ _ hc] at h; cases h; exact .inr ⟨hc, rfl⟩

theorem execWriteBlocking_next {colors : List Color} (h : execWriteBlocking colors s = .next t) :
    s.phase = .idle ∧ colors.all s.cfg.fits = true ∧
      ((Fits colors s.cfg ∧
          t = submitFrame (frameOf s.cfg s.table colors) (passDone colors { s with waitMode := .blocking })) ∨
        (¬ Fits colors s.cfg ∧ t = passOverflow colors { s with waitMode := .blocking })) := by
  unfold execWriteBlocking at h
  split at h
  · cases h
  · rename_i h1
    obtain ⟨hp, hf⟩ := startRefusal_none.1 h1
    refine ⟨hp, hf, ?_⟩
    by_cases hc : Fits colors s.cfg
    · rw [encodeAndSubmit_fit colors { s with waitMode := .blocking } hc] at h; cases h; exact .inl ⟨hc, rfl⟩
    · rw [encodeAndSubmit_overflow colors { s with waitMode := .blocking } hc] at h; cases h; exact .inr ⟨hc, rfl⟩

theorem execWriteSuspending_next {colors : List Color} {w : Waker} (h : execWriteSuspending colors w s = .next t) :
    s.phase = .idle ∧ colors.all s.cfg.fits = true ∧
      ((Fits colors s.cfg ∧
          t = suspendTask w (submitFrame (frameOf s.cfg s.table colors) (passDone colors { s with waitMode := .suspending }))) ∨
        (¬ Fits colors s.cfg ∧ t = passOverflow colors { s with waitMode := .suspending })) := by
  unfold execWriteSuspending at h
  split at h
  · cases h
  · rename_i h1
    obtain ⟨hp, hf⟩ := startRefusal_none.1 h1
    refine ⟨hp, hf, ?_⟩
    by_cases hc : Fits colors s.cfg
    · rw [encodeAndSubmit_fit colors { s with waitMode := .suspending } hc] at h; cases h; exact .inl ⟨hc, rfl⟩
    · rw [encodeAndSubmit_overflow colors { s with waitMode := .suspending } hc] at h; cases h; exact .inr ⟨hc, rfl⟩

theorem execSubmit_next {frame : List PulseCode} (h : execSubmit frame s = .next t) :
    s.phase = .encoding ∧ frame.all PulseCode.legal = true ∧ s.ret = .frame frame ∧ t = submitFrame frame s := by
  unfold execSubmit at h
  split at h
  · cases h
  · split at h
    · cases h
    · split at h
      · cases h
      · rename_i h1 h2 h3
        cases h
        exact ⟨by simpa using h1, by simpa using h2, by simpa using h3, rfl⟩

theorem execPollComplete_next {hd : Handle} (h : execPollComplete hd s = .next t) :
    ∃ x, s.tx = some x ∧ x.handle = hd ∧ t = setRet (.status x.status) s := by
  unfold execPollComplete at h
  split at h
  · cases h
  · rename_i x hx
    split at h
    · cases h
    · rename_i h1
      cases h
      exact ⟨x, hx, by simpa using h1, rfl⟩

theorem execOnComplete_next {hd : Handle} {w : Waker} (h : execOnComplete hd w s = .next t) :
    ∃ x, s.tx = some x ∧ x.handle = hd ∧ t = registerWaker x w s := by
  unfold execOnComplete at h
  split at h
  · cases h
  · rename_i x hx
    split at h
    · cases h
    · rename_i h1
      cases h
      exact ⟨x, hx, by simpa using h1, rfl⟩

theorem execPeriphDone_next (h : execPeriphDone s = .next t) :
    ∃ x, s.tx = some x ∧ x.status = .pending ∧ t = reportDone s.nextReport x s := by
  unfold execPeriphDone at h
  split at h
  · cases h
  · rename_i x hx
    split at h
    · cases h
    · rename_i h1
      cases h
      exact ⟨x, hx, by simpa using h1, rfl⟩

theorem execResume_next (h : execResume s = .next t) :
    ∃ x r, s.tx = some x ∧ x.status = .reported r ∧ x.wakerBit = true ∧ s.task = .suspended ∧
      t = endAttempt r.result s := by
  unfold execResume at h
  split at h
  · cases h
  · rename_i x hx
    split at h
    · cases h
    · rename_i r hr
      split at h
      · cases h
      · rename_i h1
        cases h
        simp only [not_or, Bool.not_eq_false, not_not] at h1
        exact ⟨x, r, hx, hr, h1.1, h1.2, endWait_eq r s⟩

/-- A symbol is played, when its durations are legal. -/
theorem playSymbol_next {i : Instr} {p : PulseCode} (h : playSymbol i p s = .next t) :
    i.wellFormed = true ∧ playPulse p s = .next t := by
  unfold playSymbol at h
  split at h
  · cases h
  · rename_i h1
    exact ⟨by simpa using h1, h⟩

/-- What follows an instruction: nothing, the next colour of the pass taken, the task suspended once the waker is registered, or the end of a
blocking attempt whose status is reported. -/
theorem afterInstr_cases (i : Instr) (s : State) :
    afterInstr i s = s ∨ (∃ c, i = .encodeColor c ∧ afterInstr i s = takeColor s) ∨
      (∃ hd w, i = .onComplete hd w ∧ afterInstr i s = suspend s) ∨
      ∃ hd r, i = .pollComplete hd ∧ s.ret = .status (.reported r) ∧ s.blockingWait = true ∧
        afterInstr i s = endAttempt r.result s := by
  cases i
  case pollComplete hd =>
    simp only [afterInstr, leaveLoop]
    split
    · rename_i r hr
      by_cases hb : s.blockingWait = true
      · exact .inr (.inr (.inr ⟨hd, r, rfl, hr, hb, by simp [hb, endWait_eq]⟩))
      · exact .inl (by simp [hb])
    · exact .inl rfl
  case encodeColor c => exact .inr (.inl ⟨c, rfl, rfl⟩)
  case onComplete hd w => exact .inr (.inr (.inl ⟨hd, w, rfl, rfl⟩))
  all_goals exact .inl rfl

theorem runInstr_next {i : Instr} (h : runInstr i s = .next t) : ∃ u, exec i s = .next u ∧ t = afterInstr i u := by
  unfold runInstr at h
  split at h
  · rename_i u hu
    cases h
    exact ⟨u, hu, rfl⟩
  · cases h
  · cases h

/-! ### Fetching -/

/-- Which operation is next, with the schedule and what is left to run after it has been taken off: the next step of the operation in progress;
with none in progress, a call of the caller's interface, the blocked caller's poll or the scheduler's RESUME; and, while PHASE is
Transmitting or nothing is in progress, the peripheral's turn. -/
inductive Fetched (s : State) : Instr → List Instr → List Input → Prop where
  | part {i ps} (inputs) (h : s.pending = i :: ps) (hp : s.peripheralTurn = false) : Fetched s i ps inputs
  | call {i} (inputs) (h : s.pending = []) (he : external i = true) : Fetched s i [] inputs
  | poll {x} (inputs) (h : s.pending = []) (hx : s.tx = some x) (hw : s.waitMode = .blocking) :
      Fetched s (.pollComplete x.handle) [] inputs
  | resume (inputs) (h : s.pending = []) : Fetched s .resume [] inputs
  | report (inputs) (h : s.pending = [] ∨ s.phase = .transmitting) : Fetched s .periphDone s.pending inputs
  | play {i x p ps} (inputs) (h : s.pending = [] ∨ s.phase = .transmitting) (hx : s.tx = some x) (hr : x.rest = p :: ps)
      (hd : decodeSymbol s.table.code0 s.table.code1 p = .ok i) : Fetched s i s.pending inputs

theorem fetchCall_ok {bytes : List Byte} {rest : List Input} {i : Instr} {s' : State} (h : fetchCall bytes rest s = .ok (i, s')) :
    external i = true ∧ ∃ inputs, s' = { s with inputs := inputs } := by
  unfold fetchCall at h
  split at h
  · cases h
  · split at h
    · cases h
    · rename_i h1
      cases h
      exact ⟨by simpa using h1, _, rfl⟩

/-- What the schedule can answer: nothing runs; an instruction to run whole; or a call of the caller's interface to run by its parts. -/
theorem fetchInput_ok {o : Option Instr} {s' : State} (hp : s.pending = [] ∨ s.peripheralTurn = true)
    (h : fetchInput s = .ok (o, s')) :
    (o = none ∧ s.pending = [] ∧ ∃ inputs, s' = { s with inputs := inputs }) ∨
      (∃ i ps inputs, o = some i ∧ s' = { s with inputs := inputs, pending := ps } ∧ Fetched s i ps inputs) ∨
      ∃ i inputs, s.pending = [] ∧ external i = true ∧ split i { s with inputs := inputs } = .ok (o, s') := by
  have hq : s.pending = [] ∨ s.phase = .transmitting :=
    hp.imp_right fun h => by simp only [State.peripheralTurn, Bool.and_eq_true, decide_eq_true_eq] at h; exact h.1
  unfold fetchInput at h
  split at h
  · rename_i hi
    cases h
    exact .inl ⟨rfl, hp.resolve_right (by simp [State.peripheralTurn, hi]), s.inputs, rfl⟩
  · rename_i bytes rest hi
    have hn := hp.resolve_right (by simp [State.peripheralTurn, hi])
    unfold whole at h
    split at h
    · cases h
    · rename_i i s1 hf
      cases h
      obtain ⟨he, inputs, rfl⟩ := fetchCall_ok hf
      exact .inr (.inl ⟨i, [], inputs, rfl, by simp [hn], .call inputs hn he⟩)
  · rename_i rest hi
    have hn := hp.resolve_right (by simp [State.peripheralTurn, hi])
    unfold whole fetchPoll at h
    cases hx : s.tx with
    | none => simp [hx] at h
    | some x =>
      by_cases hw : s.waitMode = .blocking
      · simp only [hx, hw, if_true] at h
        cases h
        exact .inr (.inl ⟨_, [], rest, rfl, by simp [hn, hw], .poll rest hn hx hw⟩)
      · simp [hx, hw] at h
  · rename_i rest hi
    unfold whole fetchPlay at h
    cases hx : s.tx with
    | none => simp [hx] at h
    | some x =>
      cases hr : x.rest with
      | nil => simp [hx, hr] at h
      | cons p ps =>
        cases hd : decodeSymbol s.table.code0 s.table.code1 p with
        | error e => simp [hx, hr, hd] at h
        | ok i =>
          simp only [hx, hr, hd] at h
          cases h
          exact .inr (.inl ⟨i, s.pending, rest, rfl, rfl, .play rest hq hx hr hd⟩)
  · rename_i rest hi
    cases h
    exact .inr (.inl ⟨_, s.pending, rest, rfl, rfl, .report rest hq⟩)
  · rename_i rest hi
    have hn := hp.resolve_right (by simp [State.peripheralTurn, hi])
    cases h
    exact .inr (.inl ⟨_, [], rest, rfl, by simp [hn], .resume rest hn⟩)
  · rename_i bytes rest hi
    have hn := hp.resolve_right (by simp [State.peripheralTurn, hi])
    unfold byParts at h
    split at h
    · cases h
    · rename_i i s1 hf
      obtain ⟨he, inputs, rfl⟩ := fetchCall_ok hf
      exact .inr (.inr ⟨i, inputs, hn, he, h⟩)
  · rename_i rest _ hi
    cases h
    exact .inl ⟨rfl, hp.resolve_right (by simp [State.peripheralTurn, hi]), rest, rfl⟩

/-- Everything a fetch can answer: nothing runs; an instruction to run whole; or an operation to run by its parts. -/
theorem fetch_ok {o : Option Instr} {s' : State} (h : fetch s = .ok (o, s')) :
    (o = none ∧ s.pending = [] ∧ ∃ inputs, s' = { s with inputs := inputs }) ∨
      (∃ i ps inputs, o = some i ∧ s' = { s with inputs := inputs, pending := ps } ∧ Fetched s i ps inputs) ∨
      ∃ i ps inputs, Fetched s i ps inputs ∧ split i { s with inputs := inputs, pending := ps } = .ok (o, s') := by
  have input (hp : s.pending = [] ∨ s.peripheralTurn = true) (hf : fetchInput s = .ok (o, s')) :
      (o = none ∧ s.pending = [] ∧ ∃ inputs, s' = { s with inputs := inputs }) ∨
        (∃ i ps inputs, o = some i ∧ s' = { s with inputs := inputs, pending := ps } ∧ Fetched s i ps inputs) ∨
        ∃ i ps inputs, Fetched s i ps inputs ∧ split i { s with inputs := inputs, pending := ps } = .ok (o, s') := by
    rcases fetchInput_ok hp hf with h | h | ⟨i, inputs, hn, he, hs⟩
    · exact .inl h
    · exact .inr (.inl h)
    · have e : ({ s with inputs := inputs, pending := [] } : State) = { s with inputs := inputs } := by simp [← hn]
      exact .inr (.inr ⟨i, [], inputs, .call inputs hn he, e ▸ hs⟩)
  unfold fetch at h
  split at h
  · rename_i hn
    exact input (.inl hn) h
  · rename_i i ps hn
    split at h
    · rename_i ht
      exact input (.inr ht) h
    · rename_i ht
      have ht' : s.peripheralTurn = false := by simpa using ht
      unfold fetchPending at h
      split at h
      · rename_i rest hi
        exact .inr (.inr ⟨i, ps, rest, .part rest hn ht', h⟩)
      · cases h
        exact .inr (.inl ⟨i, ps, s.inputs, rfl, rfl, .part s.inputs hn ht'⟩)

/-- With nothing in progress the schedule says what moves. -/
theorem fetch_nil (hn : s.pending = []) : fetch s = fetchInput s := by
  unfold fetch
  split
  · rfl
  · rename_i h
    rw [hn] at h
    cases h

/-- Everything running an operation by its parts can answer: the operation itself when it has no parts; BEGIN, with the rest of an encode pass
before what is left to run; or the parts before what is left to run. -/
theorem split_ok {i : Instr} {o : Option Instr} (h : split i s = .ok (o, t)) :
    (o = some i ∧ t = s) ∨
      (∃ colors, i = .encodePass colors ∧ s.phase = .idle ∧ colors.all s.cfg.fits = true ∧ o = some .beginBuf ∧
        t = invoke (passParts s.cfg s.table colors) { s with phase := .encoding, stream := colors }) ∨
      (o = none ∧
      ((∃ channel pin spec leds order, i = .new channel pin spec leds order ∧ s.phase = .unconstructed ∧ orderLegal order = true ∧
          t = invoke [.computeTimings channel.clockRate spec, i] s) ∨
        (∃ colors, i = .writeBlocking colors ∧ s.phase = .idle ∧ colors.all s.cfg.fits = true ∧
          t = invoke (writeParts colors [] s) { s with waitMode := .blocking }) ∨
        (∃ colors w, i = .writeSuspending colors w ∧ s.phase = .idle ∧ colors.all s.cfg.fits = true ∧
          t = invoke (writeParts colors [.onComplete s.nextHandle w] s) { s with waitMode := .suspending }) ∨
        (∃ c, i = .encodeColor c ∧ t = invoke ((wireBytes s.cfg.channelOrder c).map .encodeByte) (takeColor s)) ∨
        ∃ b, i = .encodeByte b ∧ t = invoke ((byteBits b).map .encodeBit) s)) := by
  cases i
  case new channel pin spec leds order =>
    simp only [split] at h
    split at h
    · cases h
    · rename_i h1
      obtain ⟨hp, ho⟩ := newRefusal_none.1 h1
      cases h
      exact .inr (.inr ⟨rfl, .inl ⟨channel, pin, spec, leds, order, rfl, hp, ho, rfl⟩⟩)
  case encodePass colors =>
    simp only [split] at h
    split at h
    · cases h
    · rename_i h1
      obtain ⟨hp, hf⟩ := startRefusal_none.1 h1
      cases h
      exact .inr (.inl ⟨colors, rfl, hp, hf, rfl, rfl⟩)
  case writeBlocking colors =>
    simp only [split] at h
    split at h
    · cases h
    · rename_i h1
      obtain ⟨hp, hf⟩ := startRefusal_none.1 h1
      cases h
      exact .inr (.inr ⟨rfl, .inr (.inl ⟨colors, rfl, hp, hf, rfl⟩)⟩)
  case writeSuspending colors w =>
    simp only [split] at h
    split at h
    · cases h
    · rename_i h1
      obtain ⟨hp, hf⟩ := startRefusal_none.1 h1
      cases h
      exact .inr (.inr ⟨rfl, .inr (.inr (.inl ⟨colors, w, rfl, hp, hf, rfl⟩))⟩)
  case encodeColor c => cases h; exact .inr (.inr ⟨rfl, .inr (.inr (.inr (.inl ⟨c, rfl, rfl⟩)))⟩)
  case encodeByte b => cases h; exact .inr (.inr ⟨rfl, .inr (.inr (.inr (.inr ⟨b, rfl, rfl⟩)))⟩)
  all_goals (cases h; exact .inl ⟨rfl, rfl⟩)

/-- Outside Transmitting the next part of the operation in progress runs, unless the schedule takes it apart. -/
theorem step_part {i : Instr} {ps : List Instr} (h : s.pending = i :: ps) (h2 : s.inputs.head? ≠ some .split)
    (h3 : s.phase ≠ .transmitting) : step s = runInstr i { s with pending := ps } := by
  have ht : s.peripheralTurn = false := by simp [State.peripheralTurn, h3]
  simp only [step, fetch, h, ht, fetchPending]
  cases hi : s.inputs with
  | nil => rfl
  | cons a as =>
    rw [hi] at h2
    cases a <;> first | rfl | simp at h2

/-- Everything a step can do: no instruction runs; an instruction runs and its invoker goes on; an operation is taken apart; or
an encode pass is, and enters Encoding with its BEGIN. -/
theorem step_next (h : step s = .next t) :
    (s.pending = [] ∧ ∃ inputs, t = { s with inputs := inputs }) ∨
      (∃ i ps inputs u, Fetched s i ps inputs ∧ exec i { s with inputs := inputs, pending := ps } = .next u ∧ t = afterInstr i u) ∨
      (∃ i ps inputs, Fetched s i ps inputs ∧ split i { s with inputs := inputs, pending := ps } = .ok (none, t)) ∨
      ∃ colors ps inputs, Fetched s (.encodePass colors) ps inputs ∧ s.phase = .idle ∧ colors.all s.cfg.fits = true ∧
        t = beginBuf (invoke (passParts s.cfg s.table colors)
          { s with inputs := inputs, pending := ps, phase := .encoding, stream := colors }) := by
  unfold step at h
  split at h
  · cases h
  · rename_i s' hf
    cases h
    rcases fetch_ok hf with ⟨-, hn, hi⟩ | ⟨i, ps, inputs, he, -⟩ | ⟨i, ps, inputs, hF, hs⟩
    · exact .inl ⟨hn, hi⟩
    · cases he
    · exact .inr (.inr (.inl ⟨i, ps, inputs, hF, hs⟩))
  · rename_i i s' hf
    obtain ⟨u, hu, rfl⟩ := runInstr_next h
    rcases fetch_ok hf with ⟨he, -⟩ | ⟨j, ps, inputs, he, rfl, hF⟩ | ⟨j, ps, inputs, hF, hs⟩
    · cases he
    · cases he
      exact .inr (.inl ⟨i, ps, inputs, u, hF, hu, rfl⟩)
    · rcases split_ok hs with ⟨he, rfl⟩ | ⟨colors, rfl, hp, hc, he, rfl⟩ | ⟨he, -⟩
      · cases he
        exact .inr (.inl ⟨i, ps, inputs, u, hF, hu, rfl⟩)
      · cases he
        obtain ⟨-, rfl⟩ := execBegin_next hu
        exact .inr (.inr (.inr ⟨colors, ps, inputs, hF, hp, hc, rfl⟩))
      · cases he

end Sys2Proof.Machine
end

