-- ==== Sys2Proof/Laws/PerInstr.lean ====
section
/-! SUPPORT. The family RoundTrip: the decoder reads back each instruction's encoding, one lemma per constructor. -/

namespace Sys2Proof.Laws.RoundTrip

/-- A well-formed operation is read back from its encoding, whatever follows it; a well-formed symbol's word is read back as its pulse code. -/
def Statement (i : Instr) : Prop :=
  i.wellFormed = true → ∀ rest : List Byte,
    match symbolPulse i with
    | none => decodeOp (encode i ++ rest) = .ok (i, rest)
    | some p => decodePulse (encode i ++ rest) = .ok (p, rest)

theorem new (channel : Channel) (pin : Pin) (spec : ProtocolSpec) (leds : Nat) (order : List Nat) :
    Statement (.new channel pin spec leds order) := by
  intro h rest
  simp only [Instr.wellFormed] at h
  simp [symbolPulse, encode, decodeOp, decodeOperands, decodeChannel_encode, decodeSpec_encode, decodeOrder_encode _ _ h]

theorem computeTimings (clockRate : Nat) (spec : ProtocolSpec) : Statement (.computeTimings clockRate spec) := by
  intro _ rest
  simp [symbolPulse, encode, decodeOp, decodeOperands, decodeSpec_encode]

theorem encodeBit (b : Bool) : Statement (.encodeBit b) := by
  intro _ rest
  simp [symbolPulse, encode, decodeOp, decodeOperands, decodeBitOperand_encode]

theorem encodeByte (b : Byte) : Statement (.encodeByte b) := by
  intro _ rest
  simp [symbolPulse, encode, decodeOp, decodeOperands, decodeByte]

theorem encodeColor (c : Color) : Statement (.encodeColor c) := by
  intro h rest
  simp [symbolPulse, encode, decodeOp, decodeOperands, decodeColorOperand_encode c rest h]

theorem beginBuf : Statement .beginBuf := fun _ _ => rfl

theorem push (p : PulseCode) : Statement (.push p) := by
  intro h rest
  simp [symbolPulse, encode, decodeOp, decodeOperands, decodePulse_encode p rest h]

theorem finish : Statement .finish := fun _ _ => rfl

theorem encodePass (cs : List Color) : Statement (.encodePass cs) := by
  intro h rest
  simp [symbolPulse, encode, decodeOp, decodeOperands, decodeColorList_encode cs rest h]

theorem writeBlocking (cs : List Color) : Statement (.writeBlocking cs) := by
  intro h rest
  simp [symbolPulse, encode, decodeOp, decodeOperands, decodeColorList_encode cs rest h]

theorem writeSuspending (cs : List Color) (w : Waker) : Statement (.writeSuspending cs w) := by
  intro h rest
  simp [symbolPulse, encode, decodeOp, decodeOperands, decodeColorList_encode cs _ h]

theorem submit (frame : List PulseCode) : Statement (.submit frame) := by
  intro h rest
  have hd := decodeList_encodeList encodePulse decodePulse frame rest
    fun p hp r => decodePulse_encode p r (List.all_eq_true.1 h p hp)
  simp [symbolPulse, encode, decodeOp, decodeOperands, hd]

theorem pollComplete (h : Handle) : Statement (.pollComplete h) := by
  intro _ rest
  simp [symbolPulse, encode, decodeOp, decodeOperands]

theorem onComplete (h : Handle) (w : Waker) : Statement (.onComplete h w) := by
  intro _ rest
  simp [symbolPulse, encode, decodeOp, decodeOperands]

theorem periphDone : Statement .periphDone := fun _ _ => rfl

theorem resume : Statement .resume := fun _ _ => rfl

theorem ticksLegal_le {t : Nat} (h : ticksLegal t = true) : t ≤ Config.tickMax := by
  simp only [ticksLegal, Bool.and_eq_true, decide_eq_true_eq] at h
  exact h.2

theorem code0 (high low : Nat) : Statement (.code0 high low) := by
  intro h rest
  simp only [Instr.wellFormed, Bool.and_eq_true] at h
  exact decodePulse_encode _ rest (by
    simp only [PulseCode.legal, Bool.and_eq_true, decide_eq_true_eq]
    exact ⟨ticksLegal_le h.1, ticksLegal_le h.2⟩)

theorem code1 (high low : Nat) : Statement (.code1 high low) := by
  intro h rest
  simp only [Instr.wellFormed, Bool.and_eq_true] at h
  exact decodePulse_encode _ rest (by
    simp only [PulseCode.legal, Bool.and_eq_true, decide_eq_true_eq]
    exact ⟨ticksLegal_le h.1, ticksLegal_le h.2⟩)

theorem resetCode (ticks : Nat) : Statement (.resetCode ticks) := by
  intro h rest
  exact decodePulse_encode _ rest (by
    simp only [PulseCode.legal, Bool.and_eq_true, decide_eq_true_eq]
    exact ⟨ticksLegal_le h, Nat.zero_le _⟩)

end Sys2Proof.Laws.RoundTrip
end

