-- ==== Sys2Proof/Tests/Slice0.lean ====
section
/-! SUPPORT. Tests: ill-formed terms, words written out from the spec's encodings, one step of each instruction on a small state (expected
values from 95_test_vectors.md and the rules' worked examples), and a witness for the hypotheses of each obligation. -/

namespace Sys2Proof.Tests

open Sys2Proof.Machine

/-! ### Small states -/

/-- `SPEC` of 95_test_vectors.md. -/
def spec350 : ProtocolSpec := { t0h := 350, t0l := 800, t1h := 700, t1l := 600, reset := 280000 }

def zero80 : PulseCode := { l0 := .high, d0 := 28, l1 := .low, d1 := 64 }
def one80 : PulseCode := { l0 := .high, d0 := 56, l1 := .low, d1 := 48 }
def end80 : PulseCode := { l0 := .low, d0 := 22400, l1 := .low, d1 := 0 }

/-- The three symbols of `SPEC` at 80 MHz. -/
def table80 : TimingTable := { code0 := zero80, code1 := one80, resetCode := end80 }

def cfg80 (leds : Nat) (order : List Nat) : Cfg :=
  { clockRate := 80000000, t0hNs := 350, t0lNs := 800, t1hNs := 700, t1lNs := 600, tresetNs := 280000, maxLedCount := leds
    channelOrder := order, channel := { tag := 5, clockRate := 80000000 }, pin := { tag := 3 } }

/-- An adapter in Idle. -/
def idle (leds : Nat) (order : List Nat) : State :=
  { State.reset with cfg := cfg80 leds order, table := table80, phase := .idle }

/-- An adapter without LEDs (CAPACITY 1) in Encoding. -/
def encoding (buf : Memory) (cursor : Nat) : State :=
  { idle 0 [0, 1, 2] with phase := .encoding, buf := buf, cursor := cursor }

def flight (status : TxStatus) (waker : Option Waker) : Tx :=
  { handle := { tag := 7 }, frame := [end80], status := status, waker := waker, sent := 0 }

/-- The same adapter with the frame `[RESET_CODE]` in flight. -/
def flying (status : TxStatus) (waker : Option Waker) (mode : WaitMode) (task : Task) (inputs : List Input) : State :=
  { encoding [(0, end80)] 1 with
    phase := .transmitting, tx := some (flight status waker), waitMode := mode, task := task
    usedHandles := [{ tag := 7 }], inputs := inputs }

/-- A transmission in flight on a two-code frame, to play symbols from. -/
def playing (p : PulseCode) : State :=
  { flying .pending none .blocking .running [.play] with tx := some { flight .pending none with frame := [p, end80] } }

/-- A NEW at 80 MHz. -/
def new80 : Instr := .new { tag := 5, clockRate := 80000000 } { tag := 3 } spec350 0 [0, 1, 2]

/-- An adapter whose second blocking WRITE, of no colours, has come to its encode pass: BUF and CURSOR are as the first attempt left them. -/
def second : State :=
  { idle 0 [0, 1, 2] with buf := [(0, end80)], cursor := 1, pending := [.encodePass [], .submit [end80]], inputs := [.split] }

/-- Before the adapter, with the NEW in progress. -/
def constructing : State := { State.reset with pending := [new80] }

/-- Whether an outcome is a next state. -/
def isNext {σ : Type} : Host.Outcome σ Fault Refusal → Bool
  | .next _ => true
  | .fault _ => false
  | .refused _ => false

/-! ### Ill-formed terms are refused -/

theorem test_wf_new_repeated_index : Instr.wellFormed (.new { tag := 0, clockRate := 1 } { tag := 0 } spec350 1 [0, 0, 2]) = false := by decide
theorem test_wf_new_two_channels : Instr.wellFormed (.new { tag := 0, clockRate := 1 } { tag := 0 } spec350 1 [0, 1]) = false := by decide
theorem test_wf_encodeColor : Instr.wellFormed (.encodeColor [1, 2]) = false ∧ Instr.wellFormed (.encodeColor [1, 2, 3, 4, 5]) = false := by decide
theorem test_wf_push : Instr.wellFormed (.push { zero80 with d0 := 32768 }) = false ∧ Instr.wellFormed (.push { zero80 with d1 := 32768 }) = false := by decide
theorem test_wf_encodePass : Instr.wellFormed (.encodePass [[1, 2, 3], [1]]) = false := by decide
theorem test_wf_writeBlocking : Instr.wellFormed (.writeBlocking [[]]) = false := by decide
theorem test_wf_writeSuspending : Instr.wellFormed (.writeSuspending [[1, 2]] { tag := 0 }) = false := by decide
theorem test_wf_submit : Instr.wellFormed (.submit [zero80, { end80 with d0 := 40000 }]) = false := by decide
theorem test_wf_code0 : Instr.wellFormed (.code0 0 64) = false ∧ Instr.wellFormed (.code0 28 32768) = false := by decide
theorem test_wf_code1 : Instr.wellFormed (.code1 56 0) = false ∧ Instr.wellFormed (.code1 32768 48) = false := by decide
theorem test_wf_resetCode : Instr.wellFormed (.resetCode 0) = false ∧ Instr.wellFormed (.resetCode 32768) = false := by decide

/-! ### Decoding (operation numbers: R52; packed words: R44 and 95_test_vectors.md; operand bytes: entry 2) -/

theorem test_decode_new : decodeOp [0x00, 0x05, 0x80, 0xE8, 0x92, 0x26, 0x03, 0xDE, 0x02, 0xA0, 0x06, 0xBC, 0x05, 0xD8, 0x04, 0xC0, 0x8B,
    0x11, 0x01, 0x02] =
    .ok (.new { tag := 5, clockRate := 80000000 } { tag := 3 } spec350 1 [1, 0, 2], []) := by decide
theorem test_decode_computeTimings : decodeOp [0x01, 0x80, 0xE8, 0x92, 0x26, 0xDE, 0x02, 0xA0, 0x06, 0xBC, 0x05, 0xD8, 0x04, 0xC0, 0x8B, 0x11] =
    .ok (.computeTimings 80000000 spec350, []) := by decide
theorem test_decode_encodeBit : decodeOp [0x02, 0x01] = .ok (.encodeBit true, []) ∧ decodeOp [0x02, 0x02] = .error .reservedBit := by decide
theorem test_decode_encodeByte : decodeOp [0x03, 0xB0, 0x05] = .ok (.encodeByte 0xB0, [0x05]) := by decide
theorem test_decode_encodeColor : decodeOp [0x04, 0x00, 0xFF, 0x00, 0x01] = .ok (.encodeColor [0xFF, 0x00, 0x01], []) ∧
    decodeOp [0x04, 0x01, 0x01, 0x02, 0x03, 0x04] = .ok (.encodeColor [1, 2, 3, 4], []) := by decide
theorem test_decode_begin : decodeOp [0x05] = .ok (.beginBuf, []) := by decide
theorem test_decode_push : decodeOp [0x06, 0x38, 0x80, 0x30, 0x00] = .ok (.push one80, []) := by decide
theorem test_decode_finish : decodeOp [0x07] = .ok (.finish, []) := by decide
theorem test_decode_encodePass : decodeOp [0x08, 0x01, 0x00, 0x01, 0x02, 0x03] = .ok (.encodePass [[1, 2, 3]], []) := by decide
theorem test_decode_writeBlocking : decodeOp [0x09, 0x00] = .ok (.writeBlocking [], []) := by decide
theorem test_decode_writeSuspending : decodeOp [0x0A, 0x01, 0x01, 0x01, 0x02, 0x03, 0x04, 0x09] =
    .ok (.writeSuspending [[1, 2, 3, 4]] { tag := 9 }, []) := by decide
theorem test_decode_submit : decodeOp [0x0B, 0x01, 0x80, 0x57, 0x00, 0x00] = .ok (.submit [end80], []) := by decide
theorem test_decode_pollComplete : decodeOp [0x0C, 0x80, 0x01] = .ok (.pollComplete { tag := 128 }, []) ∧
    decodeOp [0x0C, 0x80, 0x00] = .error .nonMinimalNumber := by decide
theorem test_decode_onComplete : decodeOp [0x0D, 0x07, 0x09] = .ok (.onComplete { tag := 7 } { tag := 9 }, []) := by decide
theorem test_decode_periphDone : decodeOp [0x0E] = .ok (.periphDone, []) := by decide
theorem test_decode_resume : decodeOp [0x0F] = .ok (.resume, []) ∧ decodeOp [0x1F] = .error .reservedOpcode := by decide
theorem test_decode_code0 : decodeTableWord 32 0x0040801C = some (.code0 28 64) := by decide
theorem test_decode_code1 : decodeTableWord 32 0x00308038 = some (.code1 56 48) ∧
    decodeSymbol zero80 one80 one80 = .ok (.code1 56 48) := by decide
theorem test_decode_resetCode : decodeTableWord 32 0x00005780 = some (.resetCode 22400) ∧ decodeTableWord 32 0x80000000 = none := by decide
/-- R54: a data symbol with a duration 0, and an end symbol of duration 0, are illegal. -/
theorem test_decode_illegal_duration : decodeSymbol zero80 one80 { zero80 with d0 := 0 } = .error .illegalDuration ∧
    decodeSymbol zero80 one80 { zero80 with d1 := 0 } = .error .illegalDuration ∧
    decodeSymbol zero80 one80 { end80 with d0 := 0 } = .error .illegalDuration := by decide
/-- R48's table, last row of each half. -/
theorem test_decode_order : decodeOrder [5] = .ok ([2, 1, 0], []) ∧ decodeOrder [29] = .ok ([3, 2, 1, 0], []) ∧
    decodeOrder [30] = .error .reservedChannelOrder := by decide

/-! ### The word of every table row runs as the first instruction after reset -/

theorem test_fetch_operations : (List.range 16).all (fun op => isNext (step (State.reset.withFetchWord 8 op))) = true := by decide
theorem test_fetch_symbols : isNext (step (State.reset.withFetchWord 32 0x0040801C)) = true ∧
    isNext (step (State.reset.withFetchWord 32 0x00308038)) = true ∧ isNext (step (State.reset.withFetchWord 32 0x00005780)) = true := by
  decide

/-! ### What a step runs, and what it does not -/

/-- R52, R100: no caller invokes an internal operation. -/
theorem test_step_internal : step { encoding [] 0 with inputs := [.calls [0x05]] } = .refused .internalOperation := rfl
theorem test_step_computeTimings : step { State.reset with inputs := [.calls [0x01, 0, 0, 0, 0, 0, 0]] } = .refused .internalOperation := rfl

/-- R53's expansions of a blocking and of a suspending WRITE of no colours. -/
theorem test_split_blocking : step { idle 0 [0, 1, 2] with inputs := [.split, .calls [0x09, 0x00]] } =
    .next { idle 0 [0, 1, 2] with pending := [.encodePass [], .submit [end80]] } := rfl
/-- R16: an encode pass run by its parts enters Encoding with CURSOR 0, whatever an earlier attempt left. -/
theorem test_split_encodePass : step second = .next { second with
    phase := .encoding, cursor := 0, inputs := [], pending := [.finish, .submit [end80]] } := rfl
theorem test_split_encodeByte : step { encoding [] 0 with pending := [.encodeByte 0x81], inputs := [.split] } =
    .next { encoding [] 0 with
      pending := [.encodeBit true, .encodeBit false, .encodeBit false, .encodeBit false, .encodeBit false, .encodeBit false,
        .encodeBit false, .encodeBit true] } := rfl

/-! ### One step of each instruction -/

/-- 95_test_vectors.md V1: rounding up, down, and a tie. -/
theorem test_ticks : nsToTicks 800 32000000 = 26 ∧ nsToTicks 350 32000000 = 11 ∧ nsToTicks 125 20000000 = 3 := by decide

/-- R62's rows for 80, 160 and 117.025 MHz. -/
theorem test_computeTimings : computeTimings 80000000 spec350 = some table80 ∧ computeTimings 160000000 spec350 = none ∧
    (computeTimings 117025000 spec350).map (fun t => t.resetCode.d0) = some 32767 := by decide

/-- R26, R52, R60: only inside a NEW. -/
theorem test_computeTimings_outside : execComputeTimings 80000000 spec350 State.reset = .refused .internalOperation ∧
    execComputeTimings 80000000 spec350 (idle 0 [0, 1, 2]) = .refused .internalOperation := ⟨rfl, rfl⟩

/-- 95_test_vectors.md P5: 73 entries do not fit 64. -/
theorem test_new_allocation : (newAdapter (some 64) (cfg80 3 [0, 1, 2]) State.reset).ret = .raised (.construct .allocationFailed) ∧
    (newAdapter (some 64) (cfg80 3 [0, 1, 2]) State.reset).phase = .unconstructed := by decide
theorem test_new : (newAdapter none (cfg80 3 [0, 1, 2]) State.reset).phase = .idle ∧
    (newAdapter none (cfg80 3 [0, 1, 2]) State.reset).table = table80 ∧ (cfg80 3 [0, 1, 2]).capacity = 73 := by decide

/-- R64's worked example, with R63's symbols. -/
theorem test_encodeByte : encodeByte table80 0xB0 = [one80, zero80, one80, one80, zero80, zero80, zero80, zero80] := by decide
theorem test_encodeBit : execEncodeBit true (idle 1 [0, 1, 2]) = .next { idle 1 [0, 1, 2] with ret := .code one80 } := rfl

/-- R65's worked example: red in GRB order is `[0, 255, 0]` on the wire. -/
theorem test_encodeColor : encodeColor [1, 0, 2] table80 [255, 0, 0] =
    List.replicate 8 zero80 ++ List.replicate 8 one80 ++ List.replicate 8 zero80 := by decide

/-- R48's example colour under WRGB. -/
theorem test_wireBytes : wireBytes [3, 0, 1, 2] [0x11, 0x22, 0x33, 0x44] = [0x44, 0x11, 0x22, 0x33] := by decide

/-- R69's worked example: the entries stay. -/
theorem test_begin : execBegin (encoding [(0, end80)] 1) = .next (encoding [(0, end80)] 0) := rfl

/-- R70's corner cases: the last entry takes a data code, and a full buffer none. -/
theorem test_push_last : execPush one80 (encoding [] 0) = .next (encoding [(0, one80)] 1) := rfl
theorem test_push_full : execPush one80 (encoding [(0, zero80)] 1) = .next { encoding [(0, zero80)] 0 with
    phase := .idle, result := some (.failed .bufferOverflow), history := [.returned (.failed .bufferOverflow)]
    ret := .raised (.write .bufferOverflow) } := rfl

/-- R70: any pulse code, also one that is no data symbol. -/
theorem test_push_other : execPush end80 (encoding [] 0) = .next (encoding [(0, end80)] 1) := rfl

/-- R71's corner case, an empty buffer; and the model's fault (R35). -/
theorem test_finish_empty : execFinish (encoding [] 0) = .next { encoding [(0, end80)] 1 with ret := .frame [end80] } := rfl
theorem test_finish_unwritten : execFinish { encoding [] 1 with cfg := cfg80 1 [0, 1, 2] } = .fault .unwrittenRead := rfl

/-- 95_test_vectors.md P4: the empty sequence, and one colour too many. -/
theorem test_encodePass_empty : execEncodePass [] (idle 0 [0, 1, 2]) = .next { encoding [(0, end80)] 1 with ret := .frame [end80] } := rfl
theorem test_encodePass_overflow : execEncodePass [[0, 0, 0]] (idle 0 [0, 1, 2]) = .next { idle 0 [0, 1, 2] with
    buf := [(0, zero80)], result := some (.failed .bufferOverflow), history := [.returned (.failed .bufferOverflow)]
    ret := .raised (.write .bufferOverflow) } := rfl

/-- 95_test_vectors.md P1: red on one LED in GRB order. -/
theorem test_writeBlocking : (match execWriteBlocking [[255, 0, 0]] (idle 1 [1, 0, 2]) with
    | .next t => (t.tx.map Tx.frame, t.cursor, t.task)
    | _ => (none, 0, .suspended)) =
    (some (List.replicate 8 zero80 ++ List.replicate 8 one80 ++ List.replicate 8 zero80 ++ [end80]), 25, .running) := by decide

/-- 95_test_vectors.md P3: the task is Suspended with its waker registered. -/
theorem test_writeSuspending : (match execWriteSuspending [] { tag := 9 } (idle 0 [0, 1, 2]) with
    | .next t => (t.tx.map Tx.frame, t.tx.map Tx.wakerBit, t.task, t.waitMode)
    | _ => (none, none, .running, .blocking)) = (some [end80], some true, .suspended, .suspending) := by decide

/-- R77: only the list FINISH returned. -/
theorem test_submit : isNext (execSubmit [end80] { encoding [(0, end80)] 1 with ret := .frame [end80] }) = true := by decide
theorem test_submit_other : execSubmit [end80] (encoding [(0, end80)] 1) = .refused .notFinished := rfl

/-- R79: a poll answers the status; another handle has no step (U20). -/
theorem test_poll : execPollComplete { tag := 7 } (flying .pending none .blocking .running []) =
    .next { flying .pending none .blocking .running [] with ret := .status .pending } := rfl
theorem test_poll_other : execPollComplete { tag := 8 } (flying .pending none .blocking .running []) = .refused .staleHandle := rfl

/-- R80: registration also after the report (D18). -/
theorem test_onComplete : execOnComplete { tag := 7 } { tag := 9 } (flying (.reported .complete) none .suspending .running []) =
    .next (flying (.reported .complete) (some { tag := 9 }) .suspending .running []) := rfl

/-- R78: at most one report. -/
theorem test_periphDone_once : execPeriphDone (flying (.reported .complete) none .blocking .running []) = .refused .alreadyReported := rfl

/-- R87: a hardware error after the whole output leaves the pin at rest. -/
theorem test_error_after_output (e : PeriphErr) (draw : Nat) :
    reportLevel (.error e) draw { flight .pending none with sent := 1 } = .low := by
  unfold reportLevel
  exact if_pos (Nat.zero_le _)

/-- R81's worked example. -/
theorem test_resume : execResume (flying (.reported (.error { tag := 1 })) (some { tag := 9 }) .suspending .suspended []) =
    .next { encoding [(0, end80)] 1 with
      phase := .idle, waitMode := .suspending, usedHandles := [{ tag := 7 }]
      result := some (.failed (.peripheralError { tag := 1 })), history := [.returned (.failed (.peripheralError { tag := 1 }))]
      ret := .raised (.write (.peripheralError { tag := 1 })) } := rfl
theorem test_resume_pending : execResume (flying .pending (some { tag := 9 }) .suspending .suspended []) = .refused .notResumable := rfl

/-- R82: the poll that sees Complete ends a blocking attempt. -/
theorem test_blocking_poll : step (flying (.reported .complete) none .blocking .running [.poll]) =
    .next { encoding [(0, end80)] 1 with
      phase := .idle, usedHandles := [{ tag := 7 }], result := some .ok, history := [.returned .ok], ret := .ok } := rfl

/-- R43, R87: High then Low; and the end symbol leaves only Low. -/
theorem test_code0 : execCode0 28 64 (playing zero80) = .next { playing zero80 with
    wire := [{ level := .high, ticks := 28 }, { level := .low, ticks := 64 }]
    tx := some { flight .pending none with frame := [zero80, end80], sent := 1 } } := rfl
theorem test_code1 : step (playing one80) = .next { playing one80 with
    wire := [{ level := .high, ticks := 56 }, { level := .low, ticks := 48 }], inputs := []
    tx := some { flight .pending none with frame := [one80, end80], sent := 1 } } := rfl
theorem test_resetCode : execResetCode 22400 (flying .pending none .blocking .running []) =
    .next { flying .pending none .blocking .running [] with
      wire := [{ level := .low, ticks := 22400 }], tx := some { flight .pending none with sent := 1 } } := rfl
/-- R54: a duration 0 is illegal. -/
theorem test_code0_illegal : execCode0 0 64 (playing { zero80 with d0 := 0 }) = .refused .illegalPulse := rfl
/-- R87: High for 28 ticks, then Low for 64, then the end symbol, "and from then on the pin rests Low". -/
theorem test_levelAt : (levelAt (waveform [zero80, end80]) 27, levelAt (waveform [zero80, end80]) 28) = (.high, .low) ∧
    levelAt (waveform [zero80, end80]) 22492 = .low ∧ totalTicks (waveform [zero80, end80]) = 22492 := by decide
theorem test_symbol_order : execCode1 56 48 (playing zero80) = .refused .notNextPulse := rfl

/-! ### The invariant holds in these states -/

theorem buf_one_inv (p : PulseCode) (h : table80.isSymbol p = true) : Memory.wf [(0, p)] = true ∧
    ∀ i q, Memory.read [(0, p)] i = some q → i < (cfg80 0 [0, 1, 2]).capacity ∧ table80.isSymbol q = true := by
  refine ⟨rfl, fun i q hr => ?_⟩
  cases i with
  | zero => cases hr; exact ⟨by decide, h⟩
  | succ i => cases hr

theorem table80_inv : table80.legal = true ∧
    computeTimings 80000000 (cfg80 0 [0, 1, 2]).spec = some table80 ∧ orderLegal [0, 1, 2] = true := by decide

theorem flying_inv (status : TxStatus) (waker : Option Waker) (mode : WaitMode) (task : Machine.Task) (inputs : List Input)
    (h : (mode = .blocking ∧ task = .running) ∨ (mode = .suspending ∧ task = .suspended ∧ waker.isSome = true)) :
    Machine.Inv (flying status waker mode task inputs) := by
  refine ⟨buf_one_inv end80 (by decide), ⟨Nat.le_refl 1, rfl⟩, ⟨⟨fun _ => rfl, fun _ => rfl⟩, ?_⟩, ?_, ?_, ?_⟩
  · intro t ht
    cases ht
    exact ⟨rfl, ⟨[], rfl, rfl⟩, Nat.zero_le 1, List.mem_cons_self⟩
  · intro ht
    rcases h with ⟨-, h⟩ | ⟨h1, -, h2⟩
    · exact absurd (h.symm.trans ht) (by decide)
    · exact ⟨h1, _, rfl, h2⟩
  · exact ⟨table80_inv.1, fun _ => table80_inv.2⟩
  · rcases h with ⟨h1, h2⟩ | ⟨h1, h2, -⟩
    · exact .inl ⟨h1, h2, rfl⟩
    · exact .inr (.inl ⟨h1, h2, rfl⟩)

/-- A blocking WRITE of no colours that has come to its SUBMIT. -/
def finished : State := { encoding [(0, end80)] 1 with ret := .frame [end80], pending := [.submit [end80]] }

theorem finished_inv : Machine.Inv finished := by
  refine ⟨buf_one_inv end80 (by decide), ⟨Nat.le_refl 1, rfl⟩, ⟨by decide, ?_⟩, ?_, ⟨table80_inv.1, fun _ => table80_inv.2⟩, ?_⟩
  · intro t ht
    cases ht
  · intro ht
    cases ht
  · exact ⟨[], [], [], rfl, rfl, .inl ⟨rfl, rfl⟩, .inr ⟨rfl, rfl, rfl, rfl⟩⟩

/-- A blocking WRITE of one data code too many that has come to its FINISH: BUF is full. -/
def overfull : State := { encoding [(0, zero80)] 1 with pending := [.finish, .submit [zero80, end80]] }

theorem overfull_inv : Machine.Inv overfull := by
  refine ⟨buf_one_inv zero80 (by decide), ⟨Nat.le_refl 1, rfl⟩, ⟨by decide, ?_⟩, ?_, ⟨table80_inv.1, fun _ => table80_inv.2⟩, ?_⟩
  · intro t ht
    cases ht
  · intro ht
    cases ht
  · exact ⟨[zero80], [], [], by decide, rfl, .inl ⟨rfl, rfl⟩, .inl ⟨rfl, rfl⟩⟩

/-- An adapter in Idle, with a call to come. -/
theorem idle_inv (inputs : List Input) : Machine.Inv { idle 0 [0, 1, 2] with inputs := inputs } := by
  refine ⟨⟨rfl, ?_⟩, ⟨Nat.zero_le _, rfl⟩,
    ⟨(by decide : (none : Option Tx).isSome = true ↔ Phase.idle = .transmitting), ?_⟩, ?_, ⟨table80_inv.1, fun _ => table80_inv.2⟩, .inl rfl⟩
  · intro i p hr
    cases hr
  · intro t ht
    cases ht
  · intro ht
    cases ht

theorem second_inv : Machine.Inv second := by
  refine ⟨buf_one_inv end80 (by decide), ⟨Nat.le_refl 1, rfl⟩, ⟨by decide, ?_⟩, ?_, ⟨table80_inv.1, fun _ => table80_inv.2⟩,
    .inr ⟨[], [], rfl, .inl ⟨rfl, rfl⟩, rfl⟩⟩
  · intro t ht
    cases ht
  · intro ht
    cases ht

theorem reset_inv : Machine.Inv State.reset := by
  refine ⟨⟨rfl, ?_⟩, ⟨by decide, rfl⟩, ⟨by decide, ?_⟩, ?_, ⟨by decide, ?_⟩, .inl rfl⟩
  · intro i p hr
    cases hr
  · intro t ht
    cases ht
  · intro ht
    cases ht
  · intro hp
    exact absurd rfl hp

/-! ### Witnesses: for each obligation with hypotheses, concrete values that meet them, clause by clause -/

theorem wit_PulseWordRoundTrip : PulseCode.legal { l0 := .high, d0 := 32767, l1 := .high, d1 := 32767 } = true := by decide

theorem wit_DecodeOfEncodeIsTheOperation : Instr.wellFormed (.new { tag := 5, clockRate := 80000000 } { tag := 3 } spec350 1 [1, 0, 2]) = true ∧
    symbolPulse (.new { tag := 5, clockRate := 80000000 } { tag := 3 } spec350 1 [1, 0, 2]) = none := by decide

theorem wit_EncodeOfDecodeIsTheBytes : decodeOp [0x0C, 0x80, 0x01, 0x0E] = .ok (.pollComplete { tag := 128 }, [0x0E]) := by decide

theorem wit_SymbolWordsDecode : Instr.wellFormed (.code0 1 32767) = true ∧
    symbolPulse (.code0 1 32767) = some { l0 := .high, d0 := 1, l1 := .low, d1 := 32767 } ∧
    Instr.wellFormed (.code1 56 48) = true ∧ symbolPulse (.code1 56 48) = some one80 ∧ zero80 ≠ one80 ∧
    Instr.wellFormed (.resetCode 32767) = true ∧
    symbolPulse (.resetCode 32767) = some { l0 := .low, d0 := 32767, l1 := .low, d1 := 0 } ∧
    decodeSymbol zero80 one80 { zero80 with d0 := 1 } = .ok (.code0 1 64) := by decide

/-- Clause by clause: a part in progress, whole; a call of a WRITE and one of an internal operation; bytes that encode nothing; the blocked
caller's poll; RESUME; an empty schedule; and the peripheral's two turns, with nothing in progress and between SUBMIT and ON_COMPLETE. -/
theorem wit_StepRunsTheFetchedInstruction :
    (finished.pending = [.submit [end80]] ∧ finished.inputs.head? ≠ some .split ∧ finished.phase ≠ .transmitting) ∧
    (decodeOp [0x09, 0x00] = .ok (.writeBlocking [], []) ∧ external (.writeBlocking []) = true ∧
      decodeOp [0x05, 0x07] = .ok (.beginBuf, [0x07]) ∧ external .beginBuf = false ∧ decodeOp [0x10] = .error .reservedOpcode) ∧
    ((flying .pending none .blocking .running [.poll]).inputs = [.poll] ∧
      (flying .pending none .blocking .running [.poll]).pending = [] ∧
      (flying .pending none .blocking .running [.poll]).tx = some (flight .pending none) ∧
      (flying .pending none .blocking .running [.poll]).waitMode = .blocking) ∧
    (State.reset.inputs = [] ∧ State.reset.pending = []) ∧
    ((playing zero80).inputs = [.play] ∧ (playing zero80).tx.map Tx.rest = some [zero80, end80] ∧
      decodeSymbol zero80 one80 zero80 = .ok (.code0 28 64) ∧ (playing zero80).phase = .transmitting) ∧
    isNext (step { flying .pending none .suspending .running [.report] with
      pending := [.onComplete { tag := 7 } { tag := 9 }] }) = true := by decide

theorem wit_TimingsWithinOneTick :
    (computeTimings 117025000 spec350).map (fun t => (spec350.reset, t.resetCode.d0)) = some (280000, 32767) := by decide

theorem wit_TimingsFailExactlyOutOfRange : computeTimings 1428572 spec350 ≠ none ∧ computeTimings 1428571 spec350 = none ∧
    nsToTicks 350 1428571 = 0 ∧ nsToTicks 280000 117027000 = 32768 := by decide

theorem wit_NewConstructsOrFails : State.reset.phase = .unconstructed ∧ orderLegal [0, 1, 2] = true ∧
    ¬ 73 < 3 * (8 * [0, 1, 2].length) + 1 ∧ 72 < 3 * (8 * [0, 1, 2].length) + 1 ∧
    computeTimings 80000000 spec350 = some table80 ∧ computeTimings 160000000 spec350 = none := by decide

/-- Both clauses: with a NEW in progress, and without. -/
theorem wit_ComputeTimingsReturnsTheTable : constructing.pending = [new80] ∧
    (∀ channel pin spec leds order ps, State.reset.pending ≠ .new channel pin spec leds order :: ps) ∧
    isNext (exec (.computeTimings 80000000 spec350) constructing) = true := by
  refine ⟨rfl, ?_, by decide⟩
  intro _ _ _ _ _ _ h
  cases h

theorem wit_NewOnlyBeforeTheAdapter : (idle 1 [0, 1, 2]).phase ≠ .unconstructed ∧ State.reset.phase = .unconstructed ∧
    orderLegal [0, 1, 1] = false := by decide

theorem wit_encoder : (idle 1 [1, 0, 2]).phase ≠ .unconstructed ∧ orderLegal (idle 1 [1, 0, 2]).cfg.channelOrder = true ∧
    ([255, 0, 1] : Color).length = (idle 1 [1, 0, 2]).cfg.channelOrder.length ∧
    (idle 1 [1, 0, 2]).cfg.channelOrder[2]? = some 2 ∧ ([255, 0, 1] : Color)[2]? = some 1 := by decide

theorem wit_ByteRoundTripLaw : table80.code0.d0 < table80.code1.d0 := by decide

theorem wit_BeginResetsCursorOnly : (encoding [(0, end80)] 1).phase = .encoding := by decide

theorem wit_PushAppendsOrRaises : (encoding [] 0).phase = .encoding ∧
    (encoding [] 0).cursor < (encoding [] 0).cfg.capacity ∧
    (encoding [(0, zero80)] 1).cfg.capacity ≤ (encoding [(0, zero80)] 1).cursor := by decide

theorem wit_FinishAppendsMarkerOrRaises : (encoding [] 0).filled = some [] ∧
    (encoding [] 0).cursor < (encoding [] 0).cfg.capacity ∧
    { encoding [] 1 with cfg := cfg80 1 [0, 1, 2] }.filled = none ∧
    { encoding [] 1 with cfg := cfg80 1 [0, 1, 2] }.cursor < (cfg80 1 [0, 1, 2]).capacity ∧
    (encoding [(0, zero80)] 1).cfg.capacity ≤ (encoding [(0, zero80)] 1).cursor := by decide

theorem wit_BufReadsTheLastWrite : (1 : Nat) ≠ 0 ∧ Memory.wf [(0, end80), (2, one80)] = true := by decide

/-- CAPACITY is 1, so DATA_CAPACITY is 0: no data code fits beside the marker, one fills BUF. -/
theorem wit_BoundaryLaw : (encoding [] 0).phase = .encoding ∧
    ([] : List PulseCode).length ≤ (encoding [] 0).cfg.dataCapacity ∧
    [zero80].length = (encoding [] 0).cfg.dataCapacity + 1 := by decide

theorem wit_FrameClosedForm : orderLegal (cfg80 1 [1, 0, 2]).channelOrder = true ∧ [[255, 0, 1]].all (cfg80 1 [1, 0, 2]).fits = true ∧
    ([[255, 0, 1]] : List Color)[0]? = some [255, 0, 1] ∧ (cfg80 1 [1, 0, 2]).channelOrder[2]? = some 2 ∧
    ([255, 0, 1] : Color)[2]? = some 1 := by decide

/-- The hypotheses of EncodePassBuildsTheFrame, EncodePassIsItsExpansion, WritesAreTheirExpansions, WriteBlockingSubmitsTheFrame,
WriteSuspendingSubmitsAndSuspends and WriteVariantsAgree, with MAX_LED_COUNT colours. -/
theorem wit_passes_that_fit : (idle 1 [1, 0, 2]).phase = .idle ∧ (idle 1 [1, 0, 2]).task = .running ∧
    (idle 1 [1, 0, 2]).table.legal = true ∧ [[255, 0, 0]].all (idle 1 [1, 0, 2]).cfg.fits = true ∧
    [[255, 0, 0]].length ≤ (idle 1 [1, 0, 2]).cfg.maxLedCount := by decide

/-- The hypotheses of EncodePassOverflow and WriteOverflowTransmitsNothing, with one colour too many. -/
theorem wit_passes_that_overflow : (idle 0 [0, 1, 2]).phase = .idle ∧ orderLegal (idle 0 [0, 1, 2]).cfg.channelOrder = true ∧
    [[0, 0, 0]].all (idle 0 [0, 1, 2]).cfg.fits = true ∧ (idle 0 [0, 1, 2]).cfg.maxLedCount < [[0, 0, 0]].length := by decide

/-- EncodePassIsItsExpansion and WritesAreTheirExpansions, the clauses on the machine's own steps: an operation in progress with the schedule's
word to take it apart, and a call. -/
theorem wit_expansions : ([] : List Input).head? ≠ some .split ∧ (idle 0 [0, 1, 2]).pending = [] ∧
    { idle 0 [0, 1, 2] with inputs := [.split, .calls [0x09, 0x00]] }.inputs = [.split, .calls [0x09, 0x00]] ∧
    decodeOp [0x09, 0x00] = .ok (.writeBlocking [], []) ∧ decodeOp [0x0A, 0x00, 0x09] = .ok (.writeSuspending [] { tag := 9 }, []) := by
  decide

/-- Two states with one configuration and different pasts: both clauses. -/
theorem wit_FramesDependOnlyOnTheColours : idle 0 [0, 1, 2] ≠ { idle 0 [0, 1, 2] with buf := [(0, one80)], cursor := 1 } ∧
    isNext (exec (.encodeByte 1) (idle 0 [0, 1, 2])) = true ∧
    isNext (exec (.encodePass []) (idle 0 [0, 1, 2])) = true ∧
    isNext (exec (.encodePass []) { idle 0 [0, 1, 2] with buf := [(0, one80)], cursor := 1 }) = true := by decide

theorem wit_AttemptsStartOnlyInIdle : State.reset.phase = .unconstructed ∧ (encoding [] 0).busy = true ∧
    (flying .pending none .blocking .running []).busy = true ∧ (idle 1 [0, 1, 2]).phase = .idle ∧
    ([1, 2] : Color).length ≠ (idle 1 [0, 1, 2]).cfg.channelOrder.length ∧ (idle 1 [0, 1, 2]).phase ≠ .encoding ∧
    ([1, 2] : Color).length ≠ (encoding [] 0).cfg.channelOrder.length ∧ (encoding [] 0).phase ≠ .unconstructed ∧
    (encoding [] 0).tx = none ∧ symbolPulse (.code0 28 64) ≠ none ∧ Instr.wellFormed (.code0 28 64) = true ∧
    symbolPulse (.resetCode 0) ≠ none ∧ Instr.wellFormed (.resetCode 0) = false := by decide

theorem wit_SubmitHandsTheFrameOver : finished.phase = .encoding ∧ [end80].all PulseCode.legal = true ∧ finished.ret = .frame [end80] := by
  decide

/-- The hypotheses of PollReturnsTheStatus and OnCompleteRegistersTheWaker, with the handle in flight and with another. -/
theorem wit_handles : (flying .pending none .blocking .running []).tx = some (flight .pending none) ∧
    (flight .pending none).handle = { tag := 7 } ∧ (flight .pending none).handle ≠ { tag := 8 } := by decide

theorem wit_PeriphDoneReports : (flight .pending none).status = .pending ∧
    (flight (.reported .complete) none).status = .reported .complete := by decide

theorem wit_ResumeEndsTheAttempt :
    (flying (.reported .complete) (some { tag := 9 }) .suspending .suspended []).tx = some (flight (.reported .complete) (some { tag := 9 })) ∧
    (flight (.reported .complete) (some { tag := 9 })).wakerBit = true ∧
    (flying (.reported .complete) (some { tag := 9 }) .suspending .suspended []).task = .suspended ∧
    (flight (.reported .complete) none).wakerBit = false := by decide

theorem wit_BlockingPollEndsTheAttempt (status : TxStatus) :
    (flying status none .blocking .running [.poll]).tx = some (flight status none) ∧
    (flying status none .blocking .running [.poll]).phase = .transmitting ∧
    (flying status none .blocking .running [.poll]).waitMode = .blocking ∧
    (flying status none .blocking .running [.poll]).pending = [] ∧
    (flying status none .blocking .running [.poll]).inputs = [.poll] := ⟨rfl, rfl, rfl, rfl, rfl⟩

/-- At both ends of the range of a duration. -/
theorem wit_SymbolsDriveTheWire : (playing { l0 := .high, d0 := 1, l1 := .low, d1 := 32767 }).tx.bind (fun x => x.frame[x.sent]?) =
      some { l0 := .high, d0 := 1, l1 := .low, d1 := 32767 } ∧
    (playing { l0 := .high, d0 := 32767, l1 := .low, d1 := 1 }).tx.bind (fun x => x.frame[x.sent]?) =
      some { l0 := .high, d0 := 32767, l1 := .low, d1 := 1 } ∧
    (playing { l0 := .low, d0 := 1, l1 := .low, d1 := 0 }).tx.bind (fun x => x.frame[x.sent]?) =
      some { l0 := .low, d0 := 1, l1 := .low, d1 := 0 } ∧ (flight .pending none).status = .pending := by decide

theorem wit_PlayingKeepsTheWaveform : symbolPulse (.code0 28 64) ≠ none ∧ isNext (exec (.code0 28 64) (playing zero80)) = true := by decide

/-- The clauses on the level: the last tick of the first segment, and the first tick after the output. -/
theorem wit_FrameWaveform : computeTimings (cfg80 1 [1, 0, 2]).clockRate (cfg80 1 [1, 0, 2]).spec = some table80 ∧
    waveform [zero80, end80] = [] ++ { level := .high, ticks := 28 } :: [{ level := .low, ticks := 64 }, { level := .low, ticks := 22400 }] ∧
    totalTicks (waveform [zero80, end80]) ≤ 22492 := by decide

/-- Each instruction of FrameOfNonStoringInstructions answers next somewhere. -/
theorem wit_FrameOfNonStoringInstructions :
    [isNext (exec (.computeTimings 1 spec350) constructing), isNext (exec (.encodeBit true) (idle 0 [0, 1, 2])),
      isNext (exec (.encodeByte 1) (idle 0 [0, 1, 2])), isNext (exec (.encodeColor [1, 2, 3]) (idle 0 [0, 1, 2])),
      isNext (exec .beginBuf (encoding [] 0)), isNext (exec (.submit [end80]) finished),
      isNext (exec (.pollComplete { tag := 7 }) (flying .pending none .blocking .running [])),
      isNext (exec (.onComplete { tag := 7 } { tag := 9 }) (flying .pending none .blocking .running [])),
      isNext (exec .periphDone (flying .pending none .blocking .running [])),
      isNext (exec .resume (flying (.reported .complete) (some { tag := 9 }) .suspending .suspended [])),
      isNext (exec (.code0 28 64) (playing zero80)), isNext (exec (.code1 28 64) (playing zero80)),
      isNext (exec (.resetCode 22400) (playing end80))].all id = true := by decide

/-- Each instruction of FrameOfStoringInstructions answers next somewhere, with room and without. -/
theorem wit_FrameOfStoringInstructions :
    [isNext (exec (.push one80) (encoding [] 0)), isNext (exec (.push one80) (encoding [(0, zero80)] 1)),
      isNext (exec .finish (encoding [] 0)), isNext (exec (.encodePass []) (idle 0 [0, 1, 2])),
      isNext (exec (.encodePass [[0, 0, 0]]) (idle 0 [0, 1, 2])), isNext (exec (.writeBlocking []) (idle 0 [0, 1, 2])),
      isNext (exec (.writeSuspending [] { tag := 9 }) (idle 0 [0, 1, 2]))].all id = true := by decide

/-- StepKeepsTheInvariant, InvariantExcludesTheFault (both clauses), StepFollowsThePhaseDiagram, HistoryOnlyGrows: a state with the invariant
and an operation in progress that steps from Encoding to Idle with a new entry. -/
theorem wit_steps : Machine.Inv overfull ∧ overfull.pending ≠ [] ∧ overfull.peripheralTurn = false ∧
    (match step overfull with
      | .next t => (t.phase, t.history.length)
      | _ => (.encoding, 0)) = (.idle, 1) := ⟨overfull_inv, by decide, rfl, by decide⟩

/-- StepFollowsThePhaseDiagram: from Idle to Transmitting, and from Encoding. -/
theorem wit_steps_submit : Machine.Inv { idle 0 [0, 1, 2] with inputs := [.calls [0x09, 0x00]] } ∧ Machine.Inv finished ∧
    (match step { idle 0 [0, 1, 2] with inputs := [.calls [0x09, 0x00]] }, step finished with
      | .next t, .next u => (t.phase, u.phase)
      | _, _ => (.idle, .idle)) = (.transmitting, .transmitting) := ⟨idle_inv _, finished_inv, by decide⟩

/-- StepFollowsThePhaseDiagram: into Encoding, by the parts and as one step, and on in Encoding. -/
theorem wit_steps_encoding : Machine.Inv second ∧ Machine.Inv { second with inputs := [] } ∧
    (match step second, step { second with inputs := [] } with
      | .next t, .next u => (t.phase, t.filled, u.phase, u.filled)
      | _, _ => (.idle, none, .idle, none)) = (.encoding, some [], .encoding, some [end80]) ∧
    (match step { finished with pending := [.finish, .submit [end80]], cursor := 0 } with
      | .next t => (t.phase, t.filled)
      | _ => (.idle, none)) = (.encoding, some [end80]) := ⟨second_inv, second_inv, by decide, by decide⟩

/-- StepFollowsThePhaseDiagram, OnlyNewWritesTheRegisters, CapacityStaysWithinTheLimit: NEW constructs at 80 MHz. Whether one entry can be
allocated is BUFFER_LIMIT's, a free value, so it is a premise. -/
theorem wit_steps_new (h : allocFails Config.bufferLimit 1 = false) :
    Machine.Inv State.reset ∧ LimitInv State.reset ∧
    exec new80 State.reset = .next (construct (cfg80 0 [0, 1, 2]) table80 State.reset) := by
  refine ⟨reset_inv, fun hp => absurd rfl hp, ?_⟩
  have ht : computeTimings 80000000 (cfg80 0 [0, 1, 2]).spec = some table80 := by decide
  have hc : (cfg80 0 [0, 1, 2]).capacity = 1 := rfl
  have hn : newAdapter Config.bufferLimit (cfg80 0 [0, 1, 2]) State.reset = construct (cfg80 0 [0, 1, 2]) table80 State.reset := by
    unfold newAdapter
    rw [hc, h, show (cfg80 0 [0, 1, 2]).clockRate = 80000000 from rfl, ht]
  exact congrArg Host.Outcome.next hn

/-- BufIsFrozenWhileTransmitting, ReportedStatusIsLatched: a step with the report latched that ends nothing. -/
theorem wit_latched : Machine.Inv (flying (.reported .complete) none .blocking .running []) ∧
    step (flying (.reported .complete) none .blocking .running []) = .next (flying (.reported .complete) none .blocking .running []) ∧
    (flying (.reported .complete) none .blocking .running []).phase = .transmitting ∧
    (flight (.reported .complete) none).status = .reported .complete :=
  ⟨flying_inv _ _ _ _ _ (.inl ⟨rfl, rfl⟩), rfl, rfl, rfl⟩

/-- TransmissionEndsOnlyWhenReported: the step of `test_blocking_poll` starts in the invariant. -/
theorem wit_TransmissionEndsOnlyWhenReported : Machine.Inv (flying (.reported .complete) none .blocking .running [.poll]) ∧
    (flying (.reported .complete) none .blocking .running [.poll]).phase = .transmitting :=
  ⟨flying_inv _ _ _ _ _ (.inl ⟨rfl, rfl⟩), rfl⟩

/-- ErrorsLeaveTheAdapterReusable: an overflow, a hardware error that ends a blocking wait, and an error of COMPUTE_TIMINGS; and NEW's, with its
entry, when its one entry can be allocated. -/
theorem wit_ErrorsLeaveTheAdapterReusable :
    (match exec (.encodePass [[0, 0, 0]]) (idle 0 [0, 1, 2]) with
      | .next t => t.ret
      | _ => .unit) = .raised (.write .bufferOverflow) ∧
    (match exec (.pollComplete { tag := 7 }) (flying (.reported (.error { tag := 1 })) none .blocking .running []) with
      | .next u => (afterInstr (.pollComplete { tag := 7 }) u).ret
      | _ => .unit) = .raised (.write (.peripheralError { tag := 1 })) ∧
    (match exec (.computeTimings 0 spec350) constructing with
      | .next t => t.ret
      | _ => .unit) = .raised (.construct .invalidTiming) ∧
    (newAdapter none { cfg80 0 [0, 1, 2] with clockRate := 0 } State.reset).history = [.constructFailed .invalidTiming] := by decide

/-- The state after `test_blocking_poll`. -/
def ended : State :=
  { encoding [(0, end80)] 1 with
    phase := .idle, usedHandles := [{ tag := 7 }], result := some .ok, history := [.returned .ok], ret := .ok }

/-- A run in which the blocked caller is served at once, and nothing moves afterwards. -/
def servedRun : Nat → State
  | 0 => flying (.reported .complete) none .blocking .running [.poll]
  | _ + 1 => ended

theorem wit_BlockingAttemptEnds : IsRun servedRun ∧ (servedRun 0).phase = .transmitting ∧ WaitServed servedRun 0 := by
  refine ⟨?_, rfl, 0, Nat.le_refl 0, .inr ⟨_, _, _, rfl, rfl, rfl, rfl, rfl⟩⟩
  intro n
  cases n with
  | zero => rfl
  | succ n => rfl

/-- A run in which the suspended task is resumed at once, and nothing moves afterwards. -/
def resumedRun : Nat → State
  | 0 => flying (.reported .complete) (some { tag := 9 }) .suspending .suspended [.resume]
  | _ + 1 => { ended with waitMode := .suspending }

theorem wit_SuspendingAttemptEnds : IsRun resumedRun ∧ Machine.Inv (resumedRun 0) ∧ (resumedRun 0).phase = .transmitting ∧
    ResumeServed resumedRun 0 := by
  refine ⟨?_, flying_inv _ _ _ _ _ (.inr ⟨rfl, rfl, rfl⟩), rfl, 0, Nat.le_refl 0, .inr ⟨_, _, _, rfl, rfl, rfl, rfl, rfl⟩⟩
  intro n
  cases n with
  | zero => rfl
  | succ n => rfl

end Sys2Proof.Tests
end

section
/-! PROOFS. COMPUTE_TIMINGS: rounding to the nearest tick, and the table's durations as rounded durations of the protocol spec (R57 to R60). -/

namespace Sys2Proof.Machine

/-- The rounding with the constants of D3 as numerals. -/
theorem nsToTicks_eq (d clock : Nat) : nsToTicks d clock = (d * clock + 500000000) / 1000000000 := rfl

/-- Rounding to the nearest integer moves the exact quotient by half a tick at most (R57). -/
theorem nsToTicks_within_half_tick (d clock : Nat) :
    2 * 1000000000 * nsToTicks d clock ≤ 2 * (d * clock) + 1000000000 ∧
    2 * (d * clock) < 2 * 1000000000 * nsToTicks d clock + 1000000000 := by
  rw [nsToTicks_eq]
  omega

/-- COMPUTE_TIMINGS returns a table exactly when the five tick counts are legal, and the table holds them in R59's places. -/
theorem computeTimings_eq_some_iff {clock : Nat} {spec : ProtocolSpec} {t : TimingTable} :
    computeTimings clock spec = some t ↔
      (∀ d ∈ [spec.t0h, spec.t0l, spec.t1h, spec.t1l, spec.reset], ticksLegal (nsToTicks d clock) = true) ∧
      t = { code0 := { l0 := .high, d0 := nsToTicks spec.t0h clock, l1 := .low, d1 := nsToTicks spec.t0l clock }
            code1 := { l0 := .high, d0 := nsToTicks spec.t1h clock, l1 := .low, d1 := nsToTicks spec.t1l clock }
            resetCode := { l0 := .low, d0 := nsToTicks spec.reset clock, l1 := .low, d1 := 0 } } := by
  simp only [computeTimings, Option.ite_none_right_eq_some, Option.some.injEq, eq_comm (a := t)]
  simp

/-- Each duration of the protocol spec stands in a returned table as its rounded tick count. -/
theorem ticks_eq_nsToTicks_of_computeTimings {clock d ticks : Nat} {spec : ProtocolSpec} {t : TimingTable}
    (h : computeTimings clock spec = some t)
    (hmem : (d, ticks) ∈ [(spec.t0h, t.code0.d0), (spec.t0l, t.code0.d1), (spec.t1h, t.code1.d0),
      (spec.t1l, t.code1.d1), (spec.reset, t.resetCode.d0)]) :
    ticks = nsToTicks d clock := by
  obtain ⟨-, rfl⟩ := computeTimings_eq_some_iff.1 h
  simp only [List.mem_cons, Prod.mk.injEq, List.not_mem_nil, or_false] at hmem
  obtain h | h | h | h | h := hmem <;> rw [h.1, h.2]

/-- Settles O9: every tick count of the table is a rounded duration, so it is even within half a tick of the exact quotient. -/
theorem timingsWithinOneTick : Obligations.TimingsWithinOneTick := by
  unfold Obligations.TimingsWithinOneTick
  intro clock spec t h d ticks hmem
  obtain rfl := ticks_eq_nsToTicks_of_computeTimings h hmem
  obtain ⟨hupper, hlower⟩ := nsToTicks_within_half_tick d clock
  constructor <;> omega

end Sys2Proof.Machine
end

section
/-! PROOFS. The pulse encoder: what each ENCODE operation answers, where every bit stands in its result, and that nothing but CODE_0, CODE_1 and
CHANNEL_ORDER is read (R63 to R67). -/

namespace Sys2Proof.Machine

/-! ### What the ENCODE operations answer -/

theorem exec_encodeBit (bit : Bool) {s : State} (hs : s.phase ≠ .unconstructed) :
    exec (.encodeBit bit) s = .next (setRet (.code (encodeBit s.table bit)) s) := if_neg hs

theorem exec_encodeByte (b : Byte) {s : State} (hs : s.phase ≠ .unconstructed) :
    exec (.encodeByte b) s = .next (setRet (.codes (encodeByte s.table b)) s) := if_neg hs

theorem exec_encodeColor {c : Color} {s : State} (hs : s.phase ≠ .unconstructed) (hc : s.cfg.fits c = true) :
    exec (.encodeColor c) s = .next (setRet (.codes (encodeColor s.cfg.channelOrder s.table c)) s) :=
  (if_neg hs).trans (if_neg (by simp [hc]))

theorem fits_eq_true_iff {cfg : Cfg} {c : Color} : cfg.fits c = true ↔ c.length = cfg.channelOrder.length := beq_iff_eq

/-! ### Where each bit stands -/

/-- Bit `j` of a byte is sent at place `7 - j` (R51). -/
theorem byteBits_getElem? (b : Byte) {j : Nat} (hj : j ≤ 7) : (byteBits b)[7 - j]? = some (b.getLsbD j) := by
  interval_cases j <;> rfl

theorem encodeByte_getElem? (t : TimingTable) (b : Byte) {j : Nat} (hj : j ≤ 7) :
    (encodeByte t b)[7 - j]? = some (encodeBit t (b.getLsbD j)) := by
  rw [encodeByte, List.getElem?_map, byteBits_getElem? b hj, Option.map_some]

theorem encodeColor_cons (k : Nat) (ks : List Nat) (t : TimingTable) (c : Color) :
    encodeColor (k :: ks) t c = encodeByte t (colorField c k) ++ encodeColor ks t c := by
  simp [encodeColor, wireBytes]

/-- The codes `8k` to `8k + 7` are those of the field that the order names `k`-th. -/
theorem encodeColor_getElem? (t : TimingTable) (c : Color) {order : List Nat} {k field i : Nat}
    (hk : order[k]? = some field) (hi : i < 8) :
    (encodeColor order t c)[8 * k + i]? = (encodeByte t (colorField c field))[i]? := by
  induction order generalizing k with
  | nil => simp at hk
  | cons o os ih =>
    have hl := encodeByte_length t (colorField c o)
    rw [encodeColor_cons]
    cases k with
    | zero =>
      obtain rfl : o = field := by simpa using hk
      rw [Nat.mul_zero, Nat.zero_add, List.getElem?_append_left (by omega)]
    | succ k =>
      rw [List.getElem?_append_right (by omega), hl, show 8 * (k + 1) + i - 8 = 8 * k + i by omega]
      exact ih (by simpa using hk)

theorem colorField_of_getElem? {color : Color} {field : Nat} {b : Byte} (h : color[field]? = some b) :
    colorField color field = b := by
  simp [colorField, h]

/-! ### Every byte of the colour is sent once -/

theorem perm_range_of_orderLegal {o : List Nat} (h : orderLegal o = true) : o.Perm (List.range o.length) := by
  have : ∀ o ∈ channelOrders, o.Perm (List.range o.length) := by decide
  exact this o ((orderLegal_iff o).1 h)

/-- In the order of the fields, the wire bytes are the colour itself. -/
theorem wireBytes_range (c : Color) : wireBytes (List.range c.length) c = c := by
  apply List.ext_getElem
  · simp [wireBytes]
  · intro i _ hi
    simp [wireBytes, colorField, hi]

/-- A legal order only rearranges the fields (R65). -/
theorem wireBytes_perm {o : List Nat} {c : Color} (ho : orderLegal o = true) (hc : c.length = o.length) :
    (wireBytes o c).Perm c := by
  have h : (wireBytes o c).Perm (wireBytes (List.range c.length) c) := hc ▸ (perm_range_of_orderLegal ho).map _
  rwa [wireBytes_range] at h

/-! ### What the encoders read -/

section
variable {t u : TimingTable} (h0 : t.code0 = u.code0) (h1 : t.code1 = u.code1)
include h0 h1

theorem encodeBit_congr : encodeBit t = encodeBit u := by
  funext bit
  rw [encodeBit, encodeBit, h0, h1]

theorem encodeByte_congr : encodeByte t = encodeByte u := by
  funext b
  rw [encodeByte, encodeByte, encodeBit_congr h0 h1]

theorem encodeColor_congr (order : List Nat) : encodeColor order t = encodeColor order u := by
  funext c
  rw [encodeColor, encodeColor, encodeByte_congr h0 h1]

end

/-- An ENCODE operation that answers in one state answers the same in every state with the same CODE_0, CODE_1 and CHANNEL_ORDER,
and changes neither state otherwise. -/
theorem encoder_ret_congr {bit : Bool} {b : Byte} {c : Color} {i : Instr} {s1 s2 t1 : State}
    (hi : i ∈ [.encodeBit bit, .encodeByte b, .encodeColor c]) (hp2 : s2.phase ≠ .unconstructed)
    (h0 : s1.table.code0 = s2.table.code0) (h1 : s1.table.code1 = s2.table.code1)
    (ho : s1.cfg.channelOrder = s2.cfg.channelOrder) (h : exec i s1 = .next t1) :
    t1 = setRet t1.ret s1 ∧ exec i s2 = .next (setRet t1.ret s2) := by
  simp only [List.mem_cons, List.not_mem_nil, or_false] at hi
  obtain rfl | rfl | rfl := hi
  · obtain ⟨-, rfl⟩ := execEncodeBit_next h
    rw [exec_encodeBit bit hp2, ← encodeBit_congr h0 h1]
    exact ⟨rfl, rfl⟩
  · obtain ⟨-, rfl⟩ := execEncodeByte_next h
    rw [exec_encodeByte b hp2, ← encodeByte_congr h0 h1]
    exact ⟨rfl, rfl⟩
  · obtain ⟨-, hc, rfl⟩ := execEncodeColor_next h
    rw [exec_encodeColor hp2 (fits_eq_true_iff.2 (ho ▸ fits_eq_true_iff.1 hc)), ← ho, ← encodeColor_congr h0 h1]
    exact ⟨rfl, rfl⟩

/-! ### What an encode pass leaves -/

theorem passDone_filled (colors : List Color) (s : State) :
    (passDone colors s).filled = some (frameOf s.cfg s.table colors) :=
  Memory.readRange_writeAll s.buf 0 (frameOf s.cfg s.table colors)

/-- An overflow resets CURSOR, so nothing of BUF counts as filled (R76). -/
theorem passOverflow_filled (colors : List Color) (s : State) : (passOverflow colors s).filled = some [] := rfl

/-- Two passes of the same colours with the same registers both fit or both overflow, and then leave the same. -/
theorem execEncodePass_congr {colors : List Color} {s1 s2 t1 t2 : State} (hcfg : s1.cfg = s2.cfg) (htable : s1.table = s2.table)
    (h1 : execEncodePass colors s1 = .next t1) (h2 : execEncodePass colors s2 = .next t2) :
    t1.phase = t2.phase ∧ t1.cursor = t2.cursor ∧ t1.ret = t2.ret ∧ t1.filled = t2.filled := by
  obtain ⟨-, -, hpass1⟩ := execEncodePass_next h1
  obtain ⟨-, -, hpass2⟩ := execEncodePass_next h2
  rw [← hcfg] at hpass2
  obtain ⟨hfit, rfl⟩ | ⟨hfit, rfl⟩ := hpass1
  · obtain ⟨-, rfl⟩ := hpass2.resolve_right fun h => h.1 hfit
    rw [passDone_filled, passDone_filled]
    simp [passDone, hcfg, htable]
  · obtain ⟨-, rfl⟩ := hpass2.resolve_left fun h => hfit h.1
    exact ⟨rfl, rfl, rfl, rfl⟩

/-! ### The obligations -/

/-- Settles O15. -/
theorem encodeBitSelectsTheSymbol : Obligations.EncodeBitSelectsTheSymbol := by
  unfold Obligations.EncodeBitSelectsTheSymbol
  intro bit s hs
  exact exec_encodeBit bit hs

/-- Settles O16. -/
theorem encodeByteMostSignificantFirst : Obligations.EncodeByteMostSignificantFirst := by
  unfold Obligations.EncodeByteMostSignificantFirst
  intro b s hs
  exact ⟨_, exec_encodeByte b hs, encodeByte_length s.table b, fun j hj => encodeByte_getElem? s.table b hj⟩

/-- Settles O17: the `k`-th group of eight codes is the `k`-th wire byte's, and a legal order is a permutation of the field indices. -/
theorem encodeColorInChannelOrder : Obligations.EncodeColorInChannelOrder := by
  unfold Obligations.EncodeColorInChannelOrder
  intro color s hs ho hc
  refine ⟨⟨_, exec_encodeColor hs (fits_eq_true_iff.2 hc), encodeColor_length _ _ _, ?_⟩, wireBytes_perm ho hc⟩
  intro k field b hk hb j hj
  rw [encodeColor_getElem? s.table color hk (by omega), colorField_of_getElem? hb]
  exact encodeByte_getElem? s.table b hj

/-- Settles O33: the encoders' results are functions of what they read, and a pass ends in one of two states that the registers and the
colours decide. -/
theorem framesDependOnlyOnTheColours : Obligations.FramesDependOnlyOnTheColours := by
  unfold Obligations.FramesDependOnlyOnTheColours
  refine ⟨fun bit b c i s1 s2 t1 hi _ hp2 h0 h1 ho h => encoder_ret_congr hi hp2 h0 h1 ho h, ?_⟩
  intro colors s1 s2 t1 t2 hcfg htable h1 h2
  exact execEncodePass_congr hcfg htable h1 h2

end Sys2Proof.Machine
end

section
/-! PROOFS. The pulse buffer: what BEGIN answers in PHASE Encoding (R69). -/

namespace Sys2Proof.Machine

/-- BEGIN is enabled in Encoding, and answers its effect. -/
theorem exec_beginBuf {s : State} (hs : s.phase = .encoding) : exec .beginBuf s = .next (beginBuf s) :=
  if_neg (not_not_intro hs)

/-- The two updates of BEGIN's effect as one, so that what it leaves unchanged can be read off. -/
theorem beginBuf_eq (s : State) : beginBuf s = { s with cursor := 0, ret := .unit } := rfl

/-- Settles O19: in Encoding BEGIN is enabled, and its effect is on CURSOR and RET alone. -/
theorem beginResetsCursorOnly : Obligations.BeginResetsCursorOnly := by
  unfold Obligations.BeginResetsCursorOnly
  intro s hs
  rw [exec_beginBuf hs, beginBuf_eq]

end Sys2Proof.Machine
end

section
/-! PROOFS. The decoder against the encoder: the packed pulse word, both round trips of the operations, the symbols, and the channel orders
(R44, R45, R46, R48, R52, R54). -/

namespace Sys2Proof

open Machine (perm_range_of_orderLegal)

/-! ### Packed words and bytes -/

theorem levelOfBool_bit_eq (b : Bool) : (levelOfBool b).bit = b.toNat := by cases b <;> rfl

/-- Packing an unpacked word gives it back (R44). -/
theorem packPulse_unpackPulse (w : PulseWord) : packPulse (unpackPulse w) = w := by
  have hbit (k : Nat) : (w.getLsbD k).toNat = w.toNat / 2 ^ k % 2 := Nat.toNat_testBit w.toNat k
  have hw : w.toNat < 4294967296 := w.isLt
  apply BitVec.eq_of_toNat_eq
  rw [packPulse_toNat _ (unpackPulse_legal w)]
  simp only [unpackPulse, levelOfBool_bit_eq, hbit]
  norm_num
  omega

theorem natOfBytes_lt (bs : List Byte) : natOfBytes bs < 256 ^ bs.length := by
  induction bs with
  | nil => simp [natOfBytes]
  | cons b bs ih =>
    have hb : b.toNat < 256 := b.isLt
    simp only [natOfBytes, List.length_cons, pow_succ]
    omega

theorem bytesOfNat_natOfBytes (bs : List Byte) : bytesOfNat bs.length (natOfBytes bs) = bs := by
  induction bs with
  | nil => rfl
  | cons b bs ih =>
    have hb : b.toNat < 256 := b.isLt
    have hlow : BitVec.ofNat 8 (b.toNat + 256 * natOfBytes bs) = b := by
      apply BitVec.eq_of_toNat_eq
      rw [BitVec.toNat_ofNat]
      omega
    have hhigh : (b.toNat + 256 * natOfBytes bs) / 256 = natOfBytes bs := by omega
    simp only [natOfBytes, List.length_cons, bytesOfNat, hlow, hhigh, ih]

/-! ### What a decoder reads is its encoding -/

/-- A number has one form: bytes that read as `n` are its groups, whatever fuel is enough for them. -/
theorem eq_encodeNatFuel_of_decodeNat {bs rest : List Byte} {n : Nat} (fuel : Nat) (hn : n < 2 ^ fuel * 128)
    (h : decodeNat bs = .ok (n, rest)) : bs = encodeNatFuel fuel n ++ rest := by
  induction bs generalizing n fuel with
  | nil => cases h
  | cons b bs ih =>
    by_cases hb : b.toNat < 128
    · simp only [decodeNat, hb, if_true, Except.ok.injEq, Prod.mk.injEq] at h
      obtain ⟨rfl, rfl⟩ := h
      cases fuel <;> simp [encodeNatFuel, hb]
    · simp only [decodeNat, hb, if_false, parseThen_eq_ok] at h
      obtain ⟨m, bs', hm, h⟩ := h
      split at h
      · cases h
      · rename_i hm0
        cases h
        have hb' : b.toNat < 256 := b.isLt
        cases fuel with
        | zero => omega
        | succ fuel =>
          have hlow : BitVec.ofNat 8 (128 + (b.toNat - 128 + 128 * m) % 128) = b := by
            apply BitVec.eq_of_toNat_eq
            rw [BitVec.toNat_ofNat]
            omega
          have hhigh : (b.toNat - 128 + 128 * m) / 128 = m := by omega
          rw [encodeNatFuel, if_neg (by omega), hlow, hhigh, List.cons_append, ← ih fuel (by omega) hm]

theorem eq_encodeNat_of_decodeNat {bs rest : List Byte} {n : Nat} (h : decodeNat bs = .ok (n, rest)) :
    bs = encodeNat n ++ rest := by
  have := @Nat.lt_log2_self n
  exact eq_encodeNatFuel_of_decodeNat _ (by omega) h

theorem eq_cons_of_decodeByte {bs rest : List Byte} {b : Byte} (h : decodeByte bs = .ok (b, rest)) : bs = b :: rest := by
  cases bs with
  | nil => cases h
  | cons _ _ => cases h; rfl

theorem eq_flatMap_of_decodeMany {α : Type} {enc : α → List Byte} {dec : List Byte → Parsed α} {legal : α → Bool}
    (hdec : ∀ bs a rest, dec bs = .ok (a, rest) → legal a = true ∧ bs = enc a ++ rest)
    {n : Nat} {bs rest : List Byte} {as : List α} (h : decodeMany dec n bs = .ok (as, rest)) :
    as.length = n ∧ as.all legal = true ∧ bs = as.flatMap enc ++ rest := by
  induction n generalizing bs as with
  | zero => cases h; exact ⟨rfl, rfl, rfl⟩
  | succ n ih =>
    simp only [decodeMany, parseThen_eq_ok] at h
    obtain ⟨a, bs1, ha, as', bs2, has, h⟩ := h
    cases h
    obtain ⟨hlegal, rfl⟩ := hdec _ _ _ ha
    obtain ⟨hlen, hall, rfl⟩ := ih has
    simp [hlen, hlegal, hall]

theorem eq_encodeList_of_decodeList {α : Type} {enc : α → List Byte} {dec : List Byte → Parsed α} {legal : α → Bool}
    (hdec : ∀ bs a rest, dec bs = .ok (a, rest) → legal a = true ∧ bs = enc a ++ rest)
    {bs rest : List Byte} {as : List α} (h : decodeList dec bs = .ok (as, rest)) :
    as.all legal = true ∧ bs = encodeList enc as ++ rest := by
  simp only [decodeList, parseThen_eq_ok] at h
  obtain ⟨n, bs', hn, h⟩ := h
  obtain ⟨rfl, hall, rfl⟩ := eq_flatMap_of_decodeMany hdec h
  exact ⟨hall, by rw [eq_encodeNat_of_decodeNat hn, encodeList, List.append_assoc]⟩

theorem eq_encodePulse_of_decodePulse {bs rest : List Byte} {p : PulseCode} (h : decodePulse bs = .ok (p, rest)) :
    p.legal = true ∧ bs = encodePulse p ++ rest := by
  unfold decodePulse at h
  split at h
  · rename_i b0 b1 b2 b3 tail
    cases h
    refine ⟨unpackPulse_legal _, ?_⟩
    have hlt : natOfBytes [b0, b1, b2, b3] < 2 ^ 32 := (natOfBytes_lt _).trans_eq (by simp)
    rw [encodePulse, packPulse_unpackPulse, BitVec.toNat_ofNat, Nat.mod_eq_of_lt hlt]
    exact congrArg (· ++ rest) (bytesOfNat_natOfBytes [b0, b1, b2, b3]).symm
  · cases h

/-- The bytes of a colour, after its width selector. -/
theorem eq_append_of_decodeMany_decodeByte {n : Nat} {bs rest : List Byte} {c : Color}
    (h : decodeMany decodeByte n bs = .ok (c, rest)) : c.length = n ∧ bs = c ++ rest := by
  have hdec : ∀ bs (b : Byte) rest, decodeByte bs = .ok (b, rest) → (fun _ => true) b = true ∧ bs = [b] ++ rest :=
    fun _ _ _ h => ⟨rfl, eq_cons_of_decodeByte h⟩
  obtain ⟨hlen, -, rfl⟩ := eq_flatMap_of_decodeMany (enc := fun b => [b]) hdec h
  exact ⟨hlen, by simp⟩

theorem eq_encodeColorOperand_of_decode {bs rest : List Byte} {c : Color} (h : decodeColorOperand bs = .ok (c, rest)) :
    colorLegal c = true ∧ bs = encodeColorOperand c ++ rest := by
  have hsel {b : Byte} {k : Nat} (hb : b.toNat = k) : BitVec.ofNat 8 k = b := by rw [← hb, BitVec.ofNat_toNat, BitVec.setWidth_eq]
  cases bs with
  | nil => cases h
  | cons b bs =>
    simp only [decodeColorOperand] at h
    split at h
    · rename_i hb
      obtain ⟨hlen, rfl⟩ := eq_append_of_decodeMany_decodeByte h
      simp [colorLegal, encodeColorOperand, hlen, ← hsel hb]
    · split at h
      · rename_i hb
        obtain ⟨hlen, rfl⟩ := eq_append_of_decodeMany_decodeByte h
        simp [colorLegal, encodeColorOperand, hlen, ← hsel hb]
      · cases h

theorem eq_encodeColorList_of_decode {bs rest : List Byte} {cs : List Color} (h : decodeColorList bs = .ok (cs, rest)) :
    cs.all colorLegal = true ∧ bs = encodeColorList cs ++ rest :=
  eq_encodeList_of_decodeList (fun _ _ _ => eq_encodeColorOperand_of_decode) h

/-- R48's table repeats no row. -/
theorem channelOrders_nodup : channelOrders.Nodup := by decide

theorem eq_encodeOrder_of_decodeOrder {bs rest : List Byte} {o : List Nat} (h : decodeOrder bs = .ok (o, rest)) :
    orderLegal o = true ∧ bs = encodeOrder o ++ rest := by
  cases bs with
  | nil => cases h
  | cons b bs =>
    simp only [decodeOrder] at h
    split at h
    · rename_i o' ho
      cases h
      refine ⟨(orderLegal_iff o).2 (List.mem_of_getElem? ho), ?_⟩
      obtain ⟨hlt, rfl⟩ := List.getElem?_eq_some_iff.1 ho
      rw [encodeOrder, channelOrders_nodup.idxOf_getElem, BitVec.ofNat_toNat, BitVec.setWidth_eq]
      rfl
    · cases h

theorem eq_encodeBitOperand_of_decode {bs rest : List Byte} {b : Bool} (h : decodeBitOperand bs = .ok (b, rest)) :
    bs = encodeBitOperand b ++ rest := by
  cases bs with
  | nil => cases h
  | cons c bs =>
    simp only [decodeBitOperand] at h
    split at h
    · rename_i hc
      cases h
      obtain rfl : c = 0 := BitVec.eq_of_toNat_eq hc
      rfl
    · split at h
      · rename_i hc
        cases h
        obtain rfl : c = 1 := BitVec.eq_of_toNat_eq hc
        rfl
      · cases h

theorem eq_encodeSpec_of_decodeSpec {bs rest : List Byte} {p : ProtocolSpec} (h : decodeSpec bs = .ok (p, rest)) :
    bs = encodeSpec p ++ rest := by
  simp only [decodeSpec, parseThen_eq_ok] at h
  obtain ⟨t0h, _, h0h, t0l, _, h0l, t1h, _, h1h, t1l, _, h1l, reset, _, hreset, h⟩ := h
  cases h
  simp [encodeSpec, eq_encodeNat_of_decodeNat h0h, eq_encodeNat_of_decodeNat h0l, eq_encodeNat_of_decodeNat h1h,
    eq_encodeNat_of_decodeNat h1l, eq_encodeNat_of_decodeNat hreset]

theorem eq_encodeChannel_of_decodeChannel {bs rest : List Byte} {c : Channel} (h : decodeChannel bs = .ok (c, rest)) :
    bs = encodeChannel c ++ rest := by
  simp only [decodeChannel, parseThen_eq_ok] at h
  obtain ⟨tag, _, htag, clockRate, _, hclock, h⟩ := h
  cases h
  simp [encodeChannel, eq_encodeNat_of_decodeNat htag, eq_encodeNat_of_decodeNat hclock]

/-! ### Operations -/

/-- What is read after an operation number is a well-formed operation of that number, and the bytes are its operands. -/
theorem eq_encode_of_decodeOperands {op : Nat} {bs rest : List Byte} {i : Instr} (h : decodeOperands op bs = .ok (i, rest)) :
    i.wellFormed = true ∧ symbolPulse i = none ∧ BitVec.ofNat 8 op :: bs = encode i ++ rest := by
  unfold decodeOperands at h
  split at h <;> try simp only [parseThen_eq_ok] at h
  case h_1 =>
    obtain ⟨channel, _, hchannel, pin, _, hpin, spec, _, hspec, leds, _, hleds, order, _, horder, h⟩ := h
    cases h
    obtain ⟨hlegal, rfl⟩ := eq_encodeOrder_of_decodeOrder horder
    simp [Instr.wellFormed, hlegal, symbolPulse, encode, eq_encodeChannel_of_decodeChannel hchannel,
      eq_encodeNat_of_decodeNat hpin, eq_encodeSpec_of_decodeSpec hspec, eq_encodeNat_of_decodeNat hleds]
  case h_2 =>
    obtain ⟨clock, _, hclock, spec, _, hspec, h⟩ := h
    cases h
    simp [Instr.wellFormed, symbolPulse, encode, eq_encodeNat_of_decodeNat hclock, eq_encodeSpec_of_decodeSpec hspec]
  case h_3 =>
    obtain ⟨b, _, hb, h⟩ := h
    cases h
    simp [Instr.wellFormed, symbolPulse, encode, eq_encodeBitOperand_of_decode hb]
  case h_4 =>
    obtain ⟨b, _, hb, h⟩ := h
    cases h
    simp [Instr.wellFormed, symbolPulse, encode, eq_cons_of_decodeByte hb]
  case h_5 =>
    obtain ⟨c, _, hc, h⟩ := h
    cases h
    obtain ⟨hlegal, rfl⟩ := eq_encodeColorOperand_of_decode hc
    simp [Instr.wellFormed, hlegal, symbolPulse, encode]
  case h_6 => cases h; exact ⟨rfl, rfl, rfl⟩
  case h_7 =>
    obtain ⟨p, _, hp, h⟩ := h
    cases h
    obtain ⟨hlegal, rfl⟩ := eq_encodePulse_of_decodePulse hp
    simp [Instr.wellFormed, hlegal, symbolPulse, encode]
  case h_8 => cases h; exact ⟨rfl, rfl, rfl⟩
  case h_9 =>
    obtain ⟨cs, _, hcs, h⟩ := h
    cases h
    obtain ⟨hlegal, rfl⟩ := eq_encodeColorList_of_decode hcs
    exact ⟨hlegal, rfl, rfl⟩
  case h_10 =>
    obtain ⟨cs, _, hcs, h⟩ := h
    cases h
    obtain ⟨hlegal, rfl⟩ := eq_encodeColorList_of_decode hcs
    exact ⟨hlegal, rfl, rfl⟩
  case h_11 =>
    obtain ⟨cs, _, hcs, w, _, hw, h⟩ := h
    cases h
    obtain ⟨hlegal, rfl⟩ := eq_encodeColorList_of_decode hcs
    refine ⟨hlegal, rfl, ?_⟩
    simp [encode, eq_encodeNat_of_decodeNat hw]
  case h_12 =>
    obtain ⟨frame, _, hframe, h⟩ := h
    cases h
    obtain ⟨hlegal, rfl⟩ := eq_encodeList_of_decodeList (fun _ _ _ => eq_encodePulse_of_decodePulse) hframe
    exact ⟨hlegal, rfl, rfl⟩
  case h_13 =>
    obtain ⟨handle, _, hhandle, h⟩ := h
    cases h
    simp [Instr.wellFormed, symbolPulse, encode, eq_encodeNat_of_decodeNat hhandle]
  case h_14 =>
    obtain ⟨handle, _, hhandle, w, _, hw, h⟩ := h
    cases h
    simp [Instr.wellFormed, symbolPulse, encode, eq_encodeNat_of_decodeNat hhandle, eq_encodeNat_of_decodeNat hw]
  case h_15 => cases h; exact ⟨rfl, rfl, rfl⟩
  case h_16 => cases h; exact ⟨rfl, rfl, rfl⟩
  case h_17 => cases h

theorem eq_encode_of_decodeOp {bs rest : List Byte} {i : Instr} (h : decodeOp bs = .ok (i, rest)) :
    i.wellFormed = true ∧ symbolPulse i = none ∧ bs = encode i ++ rest := by
  cases bs with
  | nil => cases h
  | cons b bs =>
    have hb := eq_encode_of_decodeOperands h
    rwa [BitVec.ofNat_toNat, BitVec.setWidth_eq] at hb

/-- The decoder's reading, one lemma per constructor, of every instruction. -/
theorem roundTrip (i : Instr) : Laws.RoundTrip.Statement i :=
  match i with
  | .new channel pin spec leds order => Laws.RoundTrip.new channel pin spec leds order
  | .computeTimings clockRate spec => Laws.RoundTrip.computeTimings clockRate spec
  | .encodeBit bit => Laws.RoundTrip.encodeBit bit
  | .encodeByte b => Laws.RoundTrip.encodeByte b
  | .encodeColor c => Laws.RoundTrip.encodeColor c
  | .beginBuf => Laws.RoundTrip.beginBuf
  | .push p => Laws.RoundTrip.push p
  | .finish => Laws.RoundTrip.finish
  | .encodePass colors => Laws.RoundTrip.encodePass colors
  | .writeBlocking colors => Laws.RoundTrip.writeBlocking colors
  | .writeSuspending colors w => Laws.RoundTrip.writeSuspending colors w
  | .submit frame => Laws.RoundTrip.submit frame
  | .pollComplete h => Laws.RoundTrip.pollComplete h
  | .onComplete h w => Laws.RoundTrip.onComplete h w
  | .periphDone => Laws.RoundTrip.periphDone
  | .resume => Laws.RoundTrip.resume
  | .code0 high low => Laws.RoundTrip.code0 high low
  | .code1 high low => Laws.RoundTrip.code1 high low
  | .resetCode ticks => Laws.RoundTrip.resetCode ticks

/-! ### Symbols -/

theorem checkSymbol_eq_ok {i j : Instr} : checkSymbol i = .ok j ↔ i.wellFormed = true ∧ i = j := by
  unfold checkSymbol
  split <;> simp_all

theorem checkSymbol_eq_illegalDuration {i : Instr} (h : i.wellFormed = false) : checkSymbol i = .error .illegalDuration :=
  if_neg (by simp [h])

/-- A pulse code that reads as a symbol reads as one with that very code and with legal durations (R54). -/
theorem wellFormed_of_decodeSymbol {code0 code1 p : PulseCode} {i : Instr} (h : decodeSymbol code0 code1 p = .ok i) :
    i.wellFormed = true ∧ symbolPulse i = some p := by
  obtain ⟨l0, d0, l1, d1⟩ := p
  unfold decodeSymbol at h
  split at h
  · rename_i hl
    obtain ⟨rfl, rfl⟩ := hl
    -- in each of the four readings of a High-Low code the symbol has the code's own durations
    split at h
    · obtain ⟨hwf, rfl⟩ := checkSymbol_eq_ok.1 h
      exact ⟨hwf, rfl⟩
    · split at h
      · obtain ⟨hwf, rfl⟩ := checkSymbol_eq_ok.1 h
        exact ⟨hwf, rfl⟩
      · split at h
        · obtain ⟨hwf, rfl⟩ := checkSymbol_eq_ok.1 h
          exact ⟨hwf, rfl⟩
        · obtain ⟨hwf, rfl⟩ := checkSymbol_eq_ok.1 h
          exact ⟨hwf, rfl⟩
  · split at h
    · rename_i hl
      obtain ⟨rfl, rfl, rfl⟩ := hl
      obtain ⟨hwf, rfl⟩ := checkSymbol_eq_ok.1 h
      exact ⟨hwf, rfl⟩
    · cases h

/-- A High-Low code is read as one of the two data symbols with its durations, whatever the table is. -/
theorem decodeSymbol_of_data (code0 code1 : PulseCode) {p : PulseCode} (h0 : p.l0 = .high) (h1 : p.l1 = .low) :
    decodeSymbol code0 code1 p = checkSymbol (.code0 p.d0 p.d1) ∨ decodeSymbol code0 code1 p = checkSymbol (.code1 p.d0 p.d1) := by
  unfold decodeSymbol
  rw [if_pos ⟨h0, h1⟩]
  split
  · exact .inl rfl
  · split
    · exact .inr rfl
    · split
      · exact .inl rfl
      · exact .inr rfl

theorem decodeSymbol_of_end (code0 code1 : PulseCode) (ticks : Nat) :
    decodeSymbol code0 code1 { l0 := .low, d0 := ticks, l1 := .low, d1 := 0 } = checkSymbol (.resetCode ticks) := by
  simp [decodeSymbol]

theorem decodeSymbol_table_code0 (code1 : PulseCode) (high low : Nat) :
    decodeSymbol { l0 := .high, d0 := high, l1 := .low, d1 := low } code1 { l0 := .high, d0 := high, l1 := .low, d1 := low } =
      checkSymbol (.code0 high low) := by
  simp [decodeSymbol]

theorem decodeSymbol_table_code1 {code0 : PulseCode} {high low : Nat} (h : code0 ≠ { l0 := .high, d0 := high, l1 := .low, d1 := low }) :
    decodeSymbol code0 { l0 := .high, d0 := high, l1 := .low, d1 := low } { l0 := .high, d0 := high, l1 := .low, d1 := low } =
      checkSymbol (.code1 high low) := by
  simp [decodeSymbol, h.symm]

/-! ### The obligations -/

/-- Settles O3, by the round trip of each constructor. -/
theorem decodeOfEncodeIsTheOperation : Obligations.DecodeOfEncodeIsTheOperation := by
  unfold Obligations.DecodeOfEncodeIsTheOperation
  intro i rest hwf hsym
  have h := roundTrip i hwf rest
  rwa [hsym] at h

/-- Settles O4, by the canonical form of each operand's bytes. -/
theorem encodeOfDecodeIsTheBytes : Obligations.EncodeOfDecodeIsTheBytes := by
  unfold Obligations.EncodeOfDecodeIsTheBytes
  intro bs rest i h
  exact eq_encode_of_decodeOp h

/-- Settles O2. -/
theorem pulseWordRoundTrip : Obligations.PulseWordRoundTrip := by
  unfold Obligations.PulseWordRoundTrip
  exact ⟨unpackPulse_packPulse, fun w => ⟨unpackPulse_legal w, packPulse_unpackPulse w⟩⟩

/-- Settles O5: every branch of the symbol decoder ends in the check of the durations. -/
theorem symbolWordsDecode : Obligations.SymbolWordsDecode := by
  unfold Obligations.SymbolWordsDecode
  refine ⟨?_, fun i p code0 code1 h => wellFormed_of_decodeSymbol h, ?_⟩
  · intro i p code0 code1 rest hwf hsym
    have h := roundTrip i hwf rest
    rw [hsym] at h
    refine ⟨h, ?_, ?_, ?_⟩
    · rintro ⟨high, low, rfl⟩ rfl
      cases hsym
      rw [decodeSymbol_table_code0, checkSymbol_eq_ok]
      exact ⟨hwf, rfl⟩
    · rintro ⟨high, low, rfl⟩ rfl hne
      cases hsym
      rw [decodeSymbol_table_code1 hne, checkSymbol_eq_ok]
      exact ⟨hwf, rfl⟩
    · rintro ⟨ticks, rfl⟩
      cases hsym
      rw [decodeSymbol_of_end, checkSymbol_eq_ok]
      exact ⟨hwf, rfl⟩
  · intro p code0 code1 h1
    constructor
    · intro h0 hzero
      obtain h | h := decodeSymbol_of_data code0 code1 h0 h1 <;> rw [h]
      · exact checkSymbol_eq_illegalDuration (by obtain h | h := hzero <;> simp [Instr.wellFormed, ticksLegal, h])
      · exact checkSymbol_eq_illegalDuration (by obtain h | h := hzero <;> simp [Instr.wellFormed, ticksLegal, h])
    · intro h0 hd1 hd0
      obtain ⟨l0, d0, l1, d1⟩ := p
      obtain ⟨rfl, rfl, rfl, rfl⟩ : l0 = .low ∧ l1 = .low ∧ d1 = 0 ∧ d0 = 0 := ⟨h0, h1, hd1, hd0⟩
      rw [decodeSymbol_of_end]
      exact checkSymbol_eq_illegalDuration rfl

theorem orderLegal_iff_perm (o : List Nat) : orderLegal o = true ↔ o.Perm [0, 1, 2] ∨ o.Perm [0, 1, 2, 3] := by
  constructor
  · intro h
    have hperm := perm_range_of_orderLegal h
    obtain hl | hl := Machine.orderLegal_length h
    · rw [hl] at hperm
      exact .inl hperm
    · rw [hl] at hperm
      exact .inr hperm
  · rintro (h | h) <;> simp [orderLegal, h.length_eq, h.mem_iff]

/-- Settles O6. -/
theorem channelOrdersAreThePermutations : Obligations.ChannelOrdersAreThePermutations := by
  unfold Obligations.ChannelOrdersAreThePermutations
  exact ⟨orderLegal_iff_perm, orderLegal_iff, channelOrders_nodup, rfl⟩

/-- Settles O1, by running the decoder on each word. -/
theorem decodeReadsSpecWords : Obligations.DecodeReadsSpecWords := by
  unfold Obligations.DecodeReadsSpecWords
  decide

end Sys2Proof
end

section
/-! PROOFS. The timing table and construction: rounding, the range of the tick counts, COMPUTE_TIMINGS inside a NEW, and what NEW answers
(R57, R59, R60, R89, R111). -/

namespace Sys2Proof.Machine

/-! ### Rounding and range -/

theorem nsToTicks_eq_zero_iff (d clock : Nat) : nsToTicks d clock = 0 ↔ d * clock < 500000000 := by
  rw [nsToTicks_eq]
  omega

theorem nsToTicks_mono {d d' clock clock' : Nat} (hd : d ≤ d') (hc : clock ≤ clock') : nsToTicks d clock ≤ nsToTicks d' clock' :=
  Nat.div_le_div_right (Nat.add_le_add_right (Nat.mul_le_mul hd hc) _)

theorem ticksLegal_iff (n : Nat) : ticksLegal n = true ↔ 1 ≤ n ∧ n ≤ 32767 := by
  rw [← Config.tickMax_eq]
  simp only [ticksLegal, Bool.and_eq_true, decide_eq_true_eq]

theorem computeTimings_isSome_iff {clock : Nat} {spec : ProtocolSpec} : (computeTimings clock spec).isSome = true ↔
    ∀ d ∈ [spec.t0h, spec.t0l, spec.t1h, spec.t1l, spec.reset], ticksLegal (nsToTicks d clock) = true := by
  rw [Option.isSome_iff_exists]
  constructor
  · rintro ⟨t, ht⟩
    exact (computeTimings_eq_some_iff.1 ht).1
  · intro h
    exact ⟨_, computeTimings_eq_some_iff.2 ⟨h, rfl⟩⟩

theorem ticksLegal_eq_false_iff (n : Nat) : ticksLegal n ≠ true ↔ n = 0 ∨ 32767 < n := by
  rw [ne_eq, ticksLegal_iff]
  omega

/-- InvalidTiming is exactly a tick count of 0 or above TICK_MAX (R60). -/
theorem computeTimings_eq_none_iff {clock : Nat} {spec : ProtocolSpec} : computeTimings clock spec = none ↔
    ∃ d ∈ [spec.t0h, spec.t0l, spec.t1h, spec.t1l, spec.reset], nsToTicks d clock = 0 ∨ 32767 < nsToTicks d clock := by
  rw [← Option.not_isSome_iff_eq_none, computeTimings_isSome_iff, not_forall]
  simp only [Classical.not_imp, ticksLegal_eq_false_iff]

/-- Settles O8. -/
theorem ticksRoundToNearest : Obligations.TicksRoundToNearest := by
  unfold Obligations.TicksRoundToNearest
  intro d c
  obtain ⟨hupper, hlower⟩ := nsToTicks_within_half_tick d c
  exact ⟨hupper, hlower, nsToTicks_eq_zero_iff d c, fun _ _ => nsToTicks_mono⟩

/-- Settles O10. -/
theorem timingsFailExactlyOutOfRange : Obligations.TimingsFailExactlyOutOfRange := by
  unfold Obligations.TimingsFailExactlyOutOfRange
  intro clock spec
  exact ⟨computeTimings_eq_none_iff, fun t ht => (computeTimings_eq_some_iff.1 ht).2⟩

/-- Settles O11: the shortest duration, 350 ns, sets the lower end, and the reset time, 280000 ns, the upper one. -/
theorem sourceSpecClockRange : Obligations.SourceSpecClockRange := by
  unfold Obligations.SourceSpecClockRange
  intro clock
  rw [computeTimings_isSome_iff]
  simp only [List.forall_mem_cons, List.not_mem_nil, false_imp_iff, implies_true, and_true, ticksLegal_iff, nsToTicks_eq]
  omega

/-! ### COMPUTE_TIMINGS inside a NEW -/

/-- The table is named by an equation, so that no proof about the end state computes it. -/
theorem exec_computeTimings {clock : Nat} {spec : ProtocolSpec} {r : Ret} {s : State} (h : s.newInProgress = true)
    (hr : r = timingsRet (computeTimings clock spec)) : exec (.computeTimings clock spec) s = .next (setRet r s) := by
  rw [hr]
  exact if_neg (by simp [h])

theorem exec_computeTimings_refused (clock : Nat) (spec : ProtocolSpec) {s : State} (h : s.newInProgress = false) :
    exec (.computeTimings clock spec) s = .refused .internalOperation :=
  if_pos h

/-- Settles O12: whether a NEW is in progress decides. -/
theorem computeTimingsReturnsTheTable : Obligations.ComputeTimingsReturnsTheTable := by
  unfold Obligations.ComputeTimingsReturnsTheTable
  intro clock spec s
  constructor
  · intro channel pin spec' leds order ps hpending
    rw [exec_computeTimings (newInProgress_iff.2 ⟨_, _, _, _, _, _, hpending⟩) rfl]
    cases computeTimings clock spec <;> rfl
  · intro hnone
    refine exec_computeTimings_refused clock spec (Bool.eq_false_iff.2 fun hnew => ?_)
    obtain ⟨channel, pin, spec', leds, order, ps, hpending⟩ := newInProgress_iff.1 hnew
    exact hnone _ _ _ _ _ _ hpending

/-! ### NEW -/

section
variable {channel : Channel} {pin : Pin} {spec : ProtocolSpec} {leds : Nat} {order : List Nat} {s : State}

theorem exec_new (hp : s.phase = .unconstructed) (ho : orderLegal order = true) :
    exec (.new channel pin spec leds order) s =
      .next (newAdapter Config.bufferLimit (newCfg channel pin spec leds order) s) := by
  have hnone : newRefusal order s = none := newRefusal_none.2 ⟨hp, ho⟩
  simp only [exec, execNew, hnone]

theorem exec_new_of_refusal {r : Refusal} (h : newRefusal order s = some r) :
    exec (.new channel pin spec leds order) s = .refused r := by
  simp only [exec, execNew, h]

end

/-- The buffer cannot be allocated exactly when there is a limit and CAPACITY is above it (R89). -/
theorem allocFails_eq_true_iff {limit : Option Nat} {capacity : Nat} :
    allocFails limit capacity = true ↔ ∃ l, limit = some l ∧ l < capacity := by
  cases limit <;> simp [allocFails]

theorem allocFails_eq_false_iff {limit : Option Nat} {capacity : Nat} :
    allocFails limit capacity = false ↔ ¬ ∃ l, limit = some l ∧ l < capacity := by
  rw [← allocFails_eq_true_iff, Bool.not_eq_true]

/-! The four cases of NEW's pseudocode, by its two conditions. -/

section
variable {limit : Option Nat} {cfg : Cfg} (s : State)

theorem newAdapter_constructs {table : TimingTable} (ha : allocFails limit cfg.capacity = false)
    (ht : computeTimings cfg.clockRate cfg.spec = some table) : newAdapter limit cfg s = construct cfg table s := by
  simp only [newAdapter, ha, ht]

theorem newAdapter_allocationFailed {table : TimingTable} (ha : allocFails limit cfg.capacity = true)
    (ht : computeTimings cfg.clockRate cfg.spec = some table) :
    newAdapter limit cfg s = takeError (.construct .allocationFailed) s := by
  simp only [newAdapter, ha, ht]

theorem newAdapter_invalidTiming (ha : allocFails limit cfg.capacity = false)
    (ht : computeTimings cfg.clockRate cfg.spec = none) :
    newAdapter limit cfg s = takeError (.construct .invalidTiming) s := by
  simp only [newAdapter, ha, ht]

theorem newAdapter_chosenError (ha : allocFails limit cfg.capacity = true)
    (ht : computeTimings cfg.clockRate cfg.spec = none) :
    newAdapter limit cfg s =
      takeError (.construct (chosenError (Config.constructErrChoice s.draws))) { s with draws := s.draws + 1 } := by
  simp only [newAdapter, ha, ht]

end

/-- Settles O13, one clause for each case of NEW's two conditions. -/
theorem newConstructsOrFails : Obligations.NewConstructsOrFails := by
  unfold Obligations.NewConstructsOrFails
  intro channel pin spec leds order s hp ho cfg
  refine ⟨exec_new hp ho, fun limit => ⟨?_, ?_, ?_, ?_⟩⟩
  · intro t hsmall ht
    exact newAdapter_constructs s (allocFails_eq_false_iff.2 hsmall) ht
  · intro t hbig ht
    exact newAdapter_allocationFailed s (allocFails_eq_true_iff.2 hbig) ht
  · intro hsmall ht
    exact newAdapter_invalidTiming s (allocFails_eq_false_iff.2 hsmall) ht
  · intro hbig ht
    rw [newAdapter_chosenError s (allocFails_eq_true_iff.2 hbig) ht]
    cases Config.constructErrChoice s.draws
    · exact .inr rfl
    · exact .inl rfl

/-- Settles O14: the two refusals of NEW. -/
theorem newOnlyBeforeTheAdapter : Obligations.NewOnlyBeforeTheAdapter := by
  unfold Obligations.NewOnlyBeforeTheAdapter
  intro channel pin spec leds order s
  constructor
  · intro hp
    exact exec_new_of_refusal (by simp [newRefusal, hp])
  · intro hp ho
    exact exec_new_of_refusal (by simp [newRefusal, hp, ho])

end Sys2Proof.Machine
end

section
/-! PROOFS. Frames and the pulse buffer: the test decoder, the closed form of a frame, PUSH and FINISH with room and without, and the boundary law
(R36, R50, R68, R70, R71, R73). -/

namespace Sys2Proof.Machine

/-! ### The test decoder -/

/-- The threshold lies between the two high times (R68). -/
theorem decodeBit_encodeBit {t : TimingTable} (h : t.code0.d0 < t.code1.d0) (bit : Bool) : decodeBit t (encodeBit t bit) = bit := by
  cases bit
  · simp only [decodeBit, encodeBit, Bool.false_eq_true, if_false, decide_eq_false_iff_not]
    omega
  · simp only [decodeBit, encodeBit, if_true, decide_eq_true_eq]
    omega

/-- The value of a byte from its bits, bit 7 first. -/
theorem foldl_byteBits (b : Byte) : (byteBits b).foldl (fun acc bit => 2 * acc + bit.toNat) 0 = b.toNat := by
  have hbit (j : Nat) : (byteBit b j).toNat = b.toNat / 2 ^ j % 2 := Nat.toNat_testBit b.toNat j
  have hb : b.toNat < 256 := b.isLt
  simp only [byteBits, List.map_cons, List.map_nil, List.foldl_cons, List.foldl_nil, hbit]
  omega

/-- Settles O18: decoding undoes encoding bit by bit. -/
theorem byteRoundTripLaw : Obligations.ByteRoundTripLaw := by
  unfold Obligations.ByteRoundTripLaw
  intro t b h
  simp only [decodePulses, encodeByte, List.foldl_map, decodeBit_encodeBit h]
  exact foldl_byteBits b

/-! ### The closed form of a frame -/

/-- Each colour's codes stand at a multiple of BITS_PER_COLOR. -/
theorem dataCodes_getElem? {cfg : Cfg} (t : TimingTable) {colors : List Color} {i r : Nat} {color : Color}
    (hi : colors[i]? = some color) (hr : r < cfg.bitsPerColor) :
    (dataCodes cfg t colors)[i * cfg.bitsPerColor + r]? = (encodeColor cfg.channelOrder t color)[r]? := by
  induction colors generalizing i with
  | nil => simp at hi
  | cons c cs ih =>
    have hl : (encodeColor cfg.channelOrder t c).length = cfg.bitsPerColor := encodeColor_length _ _ _
    rw [dataCodes_cons]
    cases i with
    | zero =>
      obtain rfl : c = color := by simpa using hi
      rw [Nat.zero_mul, Nat.zero_add, List.getElem?_append_left (by omega)]
    | succ i =>
      rw [Nat.succ_mul, List.getElem?_append_right (by omega), hl,
        show i * cfg.bitsPerColor + cfg.bitsPerColor + r - cfg.bitsPerColor = i * cfg.bitsPerColor + r by omega]
      exact ih (by simpa using hi)

theorem frameOf_getElem?_last (cfg : Cfg) (t : TimingTable) (colors : List Color) :
    (frameOf cfg t colors)[colors.length * cfg.bitsPerColor]? = some t.resetCode := by
  rw [frameOf, ← dataCodes_length cfg t colors, List.getElem?_append_right (Nat.le_refl _), Nat.sub_self]
  rfl

/-- Settles O24: the place of a colour in the frame, of a field in the colour, and of a bit in the field. -/
theorem frameClosedForm : Obligations.FrameClosedForm := by
  unfold Obligations.FrameClosedForm
  intro cfg t colors _ _
  refine ⟨frameOf_length cfg t colors, frameOf_getElem?_last cfg t colors, ?_⟩
  intro i k j field color b hi hk hb hj
  have hlt : k < cfg.channelOrder.length := (List.getElem?_eq_some_iff.1 hk).1
  have hr : 8 * k + (7 - j) < cfg.bitsPerColor := by
    simp only [Cfg.bitsPerColor, Cfg.nch]
    omega
  have hcode : (dataCodes cfg t colors)[i * cfg.bitsPerColor + (8 * k + (7 - j))]? = some (encodeBit t (b.getLsbD j)) := by
    rw [dataCodes_getElem? t hi hr, encodeColor_getElem? t color hk (by omega), colorField_of_getElem? hb,
      encodeByte_getElem? t b hj]
  rw [frameOf, Nat.add_assoc, List.getElem?_append_left (List.getElem?_eq_some_iff.1 hcode).1, hcode, encodeBit]

/-! ### The filled entries -/

/-- A store at CURSOR adds its code to the filled entries. -/
theorem storeCode_filled {s : State} {pre : List PulseCode} (c : PulseCode) (h : s.filled = some pre) :
    (storeCode c s).filled = some (pre ++ [c]) := by
  obtain ⟨hlen, hread⟩ := (Memory.readRange_eq_some _ _ _ _).1 h
  refine (Memory.readRange_eq_some _ _ _ _).2 ⟨by simp [hlen], fun k hk => ?_⟩
  simp only [storeCode_buf, storeCode_cursor, Nat.zero_add, Memory.read_write] at hk hread ⊢
  by_cases hlast : k = s.cursor
  · rw [if_pos hlast, hlast, ← hlen, List.getElem?_concat_length]
  · rw [if_neg hlast, hread k (by omega), List.getElem?_append_left (by omega)]

/-- A store at CURSOR does not write an entry below it. -/
theorem storeCode_filled_eq_none {s : State} (c : PulseCode) (h : s.filled = none) : (storeCode c s).filled = none := by
  rw [← Option.not_isSome_iff_eq_none] at h ⊢
  refine fun hsome => h ((Memory.readRange_isSome _ _ _).2 fun k hk => ?_)
  have hk' := (Memory.readRange_isSome _ _ _).1 hsome k (by simp; omega)
  rwa [storeCode_buf, Memory.read_write_other _ _ _ _ (by omega)] at hk'

/-- From CURSOR 0 on, what is filled is what was stored. -/
theorem storeCodes_filled {s : State} (cs : List PulseCode) (h : s.cursor = 0) : (storeCodes cs s).filled = some cs := by
  simp only [State.filled, storeCodes, h, Nat.zero_add]
  exact Memory.readRange_writeAll s.buf 0 cs

/-! ### PUSH and FINISH -/

section
variable {p : PulseCode} {s : State} (hs : s.phase = .encoding)
include hs

theorem exec_push_of_room (hroom : s.cursor < s.cfg.capacity) : exec (.push p) s = .next (setRet .unit (storeCode p s)) := by
  simp only [exec, execPush, pushCode, hs, appendCode_of_room hroom, ne_eq, not_true_eq_false, if_false]

theorem exec_push_full (hfull : s.cfg.capacity ≤ s.cursor) :
    exec (.push p) s = .next (takeError (.write .bufferOverflow) s) := by
  simp only [exec, execPush, pushCode, hs, appendCode_full hfull, ne_eq, not_true_eq_false, if_false]

theorem exec_finish : exec .finish s = finishBuf s := if_neg (not_not_intro hs)

theorem exec_finish_of_room {pre : List PulseCode} (hroom : s.cursor < s.cfg.capacity) (hpre : s.filled = some pre) :
    exec .finish s = .next (setRet (.frame (pre ++ [s.table.resetCode])) (storeCode s.table.resetCode s)) := by
  rw [exec_finish hs, finishBuf_of_room hroom (storeCode_filled _ hpre)]

theorem exec_finish_unwritten (hroom : s.cursor < s.cfg.capacity) (hnone : s.filled = none) :
    exec .finish s = .fault .unwrittenRead := by
  simp only [exec_finish hs, finishBuf, appendCode_of_room hroom, storeCode_filled_eq_none _ hnone]

theorem exec_finish_full (hfull : s.cfg.capacity ≤ s.cursor) :
    exec .finish s = .next (takeError (.write .bufferOverflow) s) := by
  simp only [exec_finish hs, finishBuf, appendCode_full hfull]

end

/-- Settles O20. -/
theorem pushAppendsOrRaises : Obligations.PushAppendsOrRaises := by
  unfold Obligations.PushAppendsOrRaises
  intro p s hs
  exact ⟨fun hroom => ⟨exec_push_of_room hs hroom, fun k => Memory.read_write _ _ _ _⟩,
    fun hfull => ⟨appendCode_full hfull, exec_push_full hs hfull⟩⟩

/-- Settles O21: whether there is room, and whether what is filled is written. -/
theorem finishAppendsMarkerOrRaises : Obligations.FinishAppendsMarkerOrRaises := by
  unfold Obligations.FinishAppendsMarkerOrRaises
  intro s hs
  exact ⟨exec_finish_unwritten hs, fun pre => exec_finish_of_room hs,
    fun hfull => ⟨appendCode_full hfull, exec_finish_full hs hfull⟩⟩

/-- Settles O22. -/
theorem bufReadsTheLastWrite : Obligations.BufReadsTheLastWrite := by
  unfold Obligations.BufReadsTheLastWrite
  intro m i k c d
  exact ⟨Memory.read_write_same _ _ _, Memory.read_write_other _ _ _ _, Memory.write_wf _ _ _⟩

/-! ### Operations in sequence -/

theorem runOps_cons {i : Instr} {is : List Instr} {s t : State} (h : exec i s = .next t) : runOps (i :: is) s = runOps is t := by
  simp only [runOps, h]

theorem runOps_append {is : List Instr} (js : List Instr) {s t : State} (h : runOps is s = .next t) :
    runOps (is ++ js) s = runOps js t := by
  induction is generalizing s with
  | nil => cases h; rfl
  | cons i is ih =>
    simp only [runOps] at h
    split at h
    · rename_i u hu
      rw [List.cons_append, runOps_cons hu, ih h]
    · cases h
    · cases h

theorem storeCodes_cons (c : PulseCode) (cs : List PulseCode) (s : State) :
    storeCodes (c :: cs) s = storeCodes cs (storeCode c s) := by
  simp [storeCodes, storeCode, Memory.writeAll, Nat.add_assoc, Nat.add_comm 1]

/-- PUSHes that fit store their codes one after the other. -/
theorem runOps_pushes {codes : List PulseCode} {s : State} (hs : s.phase = .encoding) (hret : s.ret = .unit)
    (hfit : s.cursor + codes.length ≤ s.cfg.capacity) : runOps (codes.map .push) s = .next (storeCodes codes s) := by
  induction codes generalizing s with
  | nil => rfl
  | cons c cs ih =>
    rw [List.length_cons] at hfit
    have hunit : setRet .unit (storeCode c s) = storeCode c s := by
      rw [setRet, ← hret]
      rfl
    rw [List.map_cons, runOps_cons (exec_push_of_room hs (by omega)), hunit, storeCodes_cons]
    exact ih hs hret (by simp only [storeCode_cursor, storeCode_cfg]; omega)

/-- BEGIN and PUSHes that fit. -/
theorem runOps_begin_pushes {codes : List PulseCode} {s : State} (hs : s.phase = .encoding)
    (hfit : codes.length ≤ s.cfg.capacity) :
    runOps (.beginBuf :: codes.map .push) s = .next (storeCodes codes (beginBuf s)) := by
  rw [runOps_cons (exec_beginBuf hs)]
  exact runOps_pushes hs rfl (by simpa using hfit)

/-- BEGIN, PUSHes that leave room for the marker, and FINISH. -/
theorem runOps_begin_pushes_finish {codes : List PulseCode} {s : State} (hs : s.phase = .encoding)
    (hfit : codes.length ≤ s.cfg.dataCapacity) :
    runOps (.beginBuf :: codes.map .push ++ [.finish]) s =
      .next (setRet (.frame (codes ++ [s.table.resetCode])) (storeCode s.table.resetCode (storeCodes codes (beginBuf s)))) := by
  have hc : s.cfg.capacity = s.cfg.dataCapacity + 1 := rfl
  have hroom : (storeCodes codes (beginBuf s)).cursor < s.cfg.capacity := by
    simp only [storeCodes, beginBuf_cursor]
    omega
  rw [runOps_append _ (runOps_begin_pushes hs (by omega)),
    runOps_cons (exec_finish_of_room (s := storeCodes codes (beginBuf s)) hs hroom (storeCodes_filled codes rfl))]
  rfl

/-- Settles O23: DATA_CAPACITY codes leave room for the marker, and one more leaves none for either. -/
theorem boundaryLaw : Obligations.BoundaryLaw := by
  unfold Obligations.BoundaryLaw
  intro codes p s hs
  constructor
  · intro hfit
    exact ⟨_, runOps_begin_pushes_finish hs hfit, hs, rfl⟩
  · intro hlen
    have hcursor : (storeCodes codes (beginBuf s)).cursor = s.cfg.capacity := by
      simp only [storeCodes, beginBuf_cursor, Nat.zero_add, hlen]
      rfl
    refine ⟨_, runOps_begin_pushes hs (Nat.le_of_eq hlen), hs, hcursor, ?_⟩
    rintro i (rfl | rfl)
    · exact ⟨_, exec_finish_full hs hcursor.ge, rfl, rfl, rfl⟩
    · exact ⟨_, exec_push_full hs hcursor.ge, rfl, rfl, rfl⟩

end Sys2Proof.Machine
end

section
/-! PROOFS. The peripheral's interface: what SUBMIT, POLL_COMPLETE, ON_COMPLETE, PERIPH_DONE, RESUME and the symbols answer with a transmission in
flight (R77 to R81, R87). -/

namespace Sys2Proof.Machine

/-! ### Answers with a transmission in flight -/

theorem exec_submit {frame : List PulseCode} {s : State} (hp : s.phase = .encoding) (hl : frame.all PulseCode.legal = true)
    (hr : s.ret = .frame frame) : exec (.submit frame) s = .next (submitFrame frame s) := by
  simp only [exec, execSubmit, hp, hl, hr, ne_eq, not_true_eq_false, Bool.true_eq_false, if_false]

section
variable {x : Tx} {s : State} (hx : s.tx = some x)
include hx

theorem exec_pollComplete {h : Handle} (hh : x.handle = h) :
    exec (.pollComplete h) s = .next (setRet (.status x.status) s) := by
  simp only [exec, execPollComplete, hx, hh, ne_eq, not_true_eq_false, if_false]

theorem exec_pollComplete_stale {h : Handle} (hh : x.handle ≠ h) : exec (.pollComplete h) s = .refused .staleHandle := by
  simp only [exec, execPollComplete, hx, hh, ne_eq, not_false_eq_true, if_true]

theorem exec_onComplete {h : Handle} (w : Waker) (hh : x.handle = h) :
    exec (.onComplete h w) s = .next (registerWaker x w s) := by
  simp only [exec, execOnComplete, hx, hh, ne_eq, not_true_eq_false, if_false]

theorem exec_onComplete_stale {h : Handle} (w : Waker) (hh : x.handle ≠ h) : exec (.onComplete h w) s = .refused .staleHandle := by
  simp only [exec, execOnComplete, hx, hh, ne_eq, not_false_eq_true, if_true]

theorem exec_periphDone (hst : x.status = .pending) : exec .periphDone s = .next (reportDone s.nextReport x s) := by
  simp only [exec, execPeriphDone, hx, hst, ne_eq, not_true_eq_false, if_false]

theorem exec_periphDone_reported {r : Report} (hst : x.status = .reported r) : exec .periphDone s = .refused .alreadyReported := by
  simp only [exec, execPeriphDone, hx, hst, ne_eq, reduceCtorEq, not_false_eq_true, if_true]

theorem exec_resume {r : Report} (hst : x.status = .reported r) (hw : x.wakerBit = true) (ht : s.task = .suspended) :
    exec .resume s = .next (endAttempt r.result s) := by
  simp [exec, execResume, hx, hst, hw, ht, endWait_eq]

/-- RESUME needs a report, a registered waker and a suspended task (R81). -/
theorem exec_resume_refused (h : x.status = .pending ∨ x.wakerBit = false ∨ s.task = .running) :
    exec .resume s = .refused .notResumable := by
  simp only [exec, execResume, hx]
  cases hst : x.status with
  | pending => rfl
  | reported r =>
    refine if_pos ?_
    obtain h | h | h := h
    · rw [hst] at h
      cases h
    · exact .inl h
    · exact .inr (by simp [h])

/-- The next code of a Pending frame is played. -/
theorem playPulse_eq {p : PulseCode} (hst : x.status = .pending) (hp : x.frame[x.sent]? = some p) :
    playPulse p s = .next { s with
      wire := s.wire ++ segmentsOf p
      line := levelAfter p
      tx := some { x with sent := if endsOutput p then x.frame.length else x.sent + 1 }
      ret := .unit } := by
  simp only [playPulse, hx, hst, hp, ne_eq, not_true_eq_false, if_false]

end

/-! ### The symbols -/

/-- The bounds of a symbol's durations are those of R54. -/
theorem playSymbol_of_wellFormed {i : Instr} {p : PulseCode} {s : State} (h : i.wellFormed = true) :
    playSymbol i p s = playPulse p s := if_neg (by simp [h])

/-- A symbol's meaning is that its pulse code is played, if its durations are legal. -/
theorem exec_symbol {i : Instr} {p : PulseCode} (s : State) (h : symbolPulse i = some p) : exec i s = playSymbol i p s := by
  cases i <;> cases h <;> rfl

/-- The level of the pin after a symbol of R45 or R46. -/
theorem levelAfter_symbol {i : Instr} {p : PulseCode} (h : symbolPulse i = some p) : levelAfter p = .low := by
  have hlow : p.l1 = .low := by cases i <;> cases h <;> rfl
  unfold levelAfter
  split
  · rfl
  · exact hlow

/-! ### The obligations -/

/-- A handle drawn for a SUBMIT is one not used before (D20). -/
theorem nextHandle_not_mem (s : State) : s.nextHandle ∉ s.usedHandles := freshHandle_not_mem _ _

/-- Settles O35. -/
theorem submitHandsTheFrameOver : Obligations.SubmitHandsTheFrameOver := by
  unfold Obligations.SubmitHandsTheFrameOver
  intro frame s hp hl hr
  exact ⟨s.nextHandle, nextHandle_not_mem s, exec_submit hp hl hr⟩

/-- Settles O36. -/
theorem pollReturnsTheStatus : Obligations.PollReturnsTheStatus := by
  unfold Obligations.PollReturnsTheStatus
  intro h x s hx
  exact ⟨exec_pollComplete hx, exec_pollComplete_stale hx⟩

/-- Settles O37. -/
theorem onCompleteRegistersTheWaker : Obligations.OnCompleteRegistersTheWaker := by
  unfold Obligations.OnCompleteRegistersTheWaker
  intro h w x s hx
  exact ⟨exec_onComplete hx w, exec_onComplete_stale hx w⟩

/-- Settles O38: the report, the part of the waveform and the level are those the draw gives. -/
theorem periphDoneReports : Obligations.PeriphDoneReports := by
  unfold Obligations.PeriphDoneReports
  intro x s hx
  refine ⟨fun hst => ⟨s.nextReport, Config.errorWireTicks s.draws, levelOfBool (Config.errorPinLevel s.draws), ?_⟩,
    fun r => exec_periphDone_reported hx⟩
  rw [exec_periphDone hx hst]
  cases s.nextReport <;> rfl

/-- Settles O39: the attempt's end leaves no transmission, so RESUME is not enabled again. -/
theorem resumeEndsTheAttempt : Obligations.ResumeEndsTheAttempt := by
  unfold Obligations.ResumeEndsTheAttempt
  intro x s hx
  refine ⟨fun r hst hw ht => ⟨r.result, r.result.ret, _, exec_resume hx hst hw ht, rfl, ?_, ?_, rfl⟩, exec_resume_refused hx⟩
  · rintro rfl
    exact ⟨rfl, rfl⟩
  · rintro e rfl
    exact ⟨rfl, rfl⟩

/-- Settles O41: neither segment of a data symbol ends the output, and the end symbol's second one does. -/
theorem symbolsDriveTheWire : Obligations.SymbolsDriveTheWire := by
  unfold Obligations.SymbolsDriveTheWire
  intro x s hx hst
  constructor
  · intro high low hhigh hhigh' hlow hlow' hp i hi
    have h1 : high ≠ 0 := by omega
    have h2 : low ≠ 0 := by omega
    have hsym : symbolPulse i = some { l0 := .high, d0 := high, l1 := .low, d1 := low } := by obtain rfl | rfl := hi <;> rfl
    have hwf : i.wellFormed = true := by
      obtain rfl | rfl := hi <;> simp only [Instr.wellFormed, Bool.and_eq_true, ticksLegal_iff] <;> omega
    rw [exec_symbol s hsym, playSymbol_of_wellFormed hwf, playPulse_eq hx hst hp, levelAfter_symbol hsym]
    simp [segmentsOf, endsOutput, h1, h2]
  · intro ticks hticks hticks' hp
    have h1 : ticks ≠ 0 := by omega
    have hsym : symbolPulse (.resetCode ticks) = some { l0 := .low, d0 := ticks, l1 := .low, d1 := 0 } := rfl
    have hwf : (Instr.resetCode ticks).wellFormed = true := (ticksLegal_iff ticks).2 ⟨hticks, hticks'⟩
    rw [exec_symbol s hsym, playSymbol_of_wellFormed hwf, playPulse_eq hx hst hp, levelAfter_symbol hsym]
    simp [segmentsOf, endsOutput, h1]

end Sys2Proof.Machine
end

section
/-! PROOFS. Attempts: where the operations have no step, the encode pass that fits and that overflows, and the two WRITE operations as single
steps (R75, R76, R82, R83, R84). -/

namespace Sys2Proof.Machine

/-! ### Where the operations have no step -/

section
variable {colors : List Color} {s : State} {r : Refusal} (h : startRefusal colors s = some r)
include h

theorem exec_encodePass_refused : exec (.encodePass colors) s = .refused r := by
  simp only [exec, execEncodePass, h]

theorem exec_writeBlocking_refused : exec (.writeBlocking colors) s = .refused r := by
  simp only [exec, execWriteBlocking, h]

theorem exec_writeSuspending_refused (w : Waker) : exec (.writeSuspending colors w) s = .refused r := by
  simp only [exec, execWriteSuspending, h]

/-- The three operations that start an attempt are refused alike. -/
theorem exec_attempt_refused {w : Waker} {i : Instr}
    (hi : i = .encodePass colors ∨ i = .writeBlocking colors ∨ i = .writeSuspending colors w) : exec i s = .refused r := by
  obtain rfl | rfl | rfl := hi
  · exact exec_encodePass_refused h
  · exact exec_writeBlocking_refused h
  · exact exec_writeSuspending_refused h w

end

theorem startRefusal_unconstructed (colors : List Color) {s : State} (hp : s.phase = .unconstructed) :
    startRefusal colors s = some .noAdapter := if_pos hp

theorem startRefusal_busy (colors : List Color) {s : State} (hb : s.busy = true) : startRefusal colors s = some .busy := by
  simp only [State.busy, Bool.or_eq_true, decide_eq_true_eq] at hb
  obtain hp | hp := hb <;> simp [startRefusal, hp]

theorem startRefusal_colorWidth {colors : List Color} {s : State} (hp : s.phase = .idle)
    (hc : ∃ c ∈ colors, c.length ≠ s.cfg.channelOrder.length) : startRefusal colors s = some .colorWidth := by
  have hall : colors.all s.cfg.fits = false := by
    obtain ⟨c, hmem, hlen⟩ := hc
    exact List.all_eq_false.2 ⟨c, hmem, fun hfit => hlen (fits_eq_true_iff.1 hfit)⟩
  simp [startRefusal, hp, hall]

theorem exec_encoder_unconstructed {bit : Bool} {b : Byte} {c : Color} {s : State} {i : Instr}
    (hi : i ∈ [.encodeBit bit, .encodeByte b, .encodeColor c]) (hp : s.phase = .unconstructed) : exec i s = .refused .noAdapter := by
  simp only [List.mem_cons, List.not_mem_nil, or_false] at hi
  obtain rfl | rfl | rfl := hi
  · exact if_pos hp
  · exact if_pos hp
  · exact if_pos hp

theorem exec_encodeColor_colorWidth {c : Color} {s : State} (hp : s.phase ≠ .unconstructed)
    (hc : c.length ≠ s.cfg.channelOrder.length) : exec (.encodeColor c) s = .refused .colorWidth :=
  (if_neg hp).trans (if_pos (by simpa using mt fits_eq_true_iff.1 hc))

theorem exec_buffer_notEncoding {p : PulseCode} {frame : List PulseCode} {s : State} {i : Instr}
    (hi : i ∈ [.beginBuf, .push p, .finish, .submit frame]) (hp : s.phase ≠ .encoding) : exec i s = .refused .notEncoding := by
  simp only [List.mem_cons, List.not_mem_nil, or_false] at hi
  obtain rfl | rfl | rfl | rfl := hi
  · exact if_pos hp
  · exact if_pos hp
  · exact if_pos hp
  · exact if_pos hp

theorem exec_peripheral_noTransmission {h : Handle} {w : Waker} {s : State} {i : Instr}
    (hi : i ∈ [.pollComplete h, .onComplete h w, .periphDone, .resume]) (hx : s.tx = none) :
    exec i s = .refused .noTransmission := by
  simp only [List.mem_cons, List.not_mem_nil, or_false] at hi
  obtain rfl | rfl | rfl | rfl := hi
  · simp only [exec, execPollComplete, hx]
  · simp only [exec, execOnComplete, hx]
  · simp only [exec, execPeriphDone, hx]
  · simp only [exec, execResume, hx]

theorem playPulse_noTransmission (p : PulseCode) {s : State} (hx : s.tx = none) : playPulse p s = .refused .noTransmission := by
  simp only [playPulse, hx]

/-- Settles O34: each operation's first guard that fails names the refusal. -/
theorem attemptsStartOnlyInIdle : Obligations.AttemptsStartOnlyInIdle := by
  unfold Obligations.AttemptsStartOnlyInIdle
  refine ⟨fun colors w s i hi => ⟨fun hp => ?_, fun hb => ?_, fun hp hc => ?_⟩,
    fun bit b c s i hi hp => exec_encoder_unconstructed hi hp,
    fun c s hp hc => exec_encodeColor_colorWidth hp hc,
    fun p frame s i hi hp => exec_buffer_notEncoding hi hp,
    fun h w s i hi hx => exec_peripheral_noTransmission hi hx, fun s i hsym => ?_⟩
  · exact exec_attempt_refused (startRefusal_unconstructed colors hp) hi
  · exact exec_attempt_refused (startRefusal_busy colors hb) hi
  · exact exec_attempt_refused (startRefusal_colorWidth hp hc) hi
  · obtain ⟨p, hp⟩ := Option.ne_none_iff_exists'.1 hsym
    rw [exec_symbol s hp]
    constructor
    · intro hwf hx
      rw [playSymbol_of_wellFormed hwf, playPulse_noTransmission p hx]
    · exact fun hwf => if_pos hwf

/-! ### What an attempt answers as one step -/

section
variable {colors : List Color} {s : State} (hp : s.phase = .idle) (hc : colors.all s.cfg.fits = true)
include hp hc

theorem exec_encodePass_fit (hfit : Fits colors s.cfg) : exec (.encodePass colors) s = .next (passDone colors s) := by
  simp only [exec, execEncodePass, startRefusal_none.2 ⟨hp, hc⟩, encodePass_fit _ _ hfit]

theorem exec_encodePass_overflow (hfit : ¬ Fits colors s.cfg) : exec (.encodePass colors) s = .next (passOverflow colors s) := by
  simp only [exec, execEncodePass, startRefusal_none.2 ⟨hp, hc⟩, encodePass_overflow _ _ hfit]

theorem exec_writeBlocking_fit (hfit : Fits colors s.cfg) : exec (.writeBlocking colors) s =
    .next (submitFrame (frameOf s.cfg s.table colors) (passDone colors { s with waitMode := .blocking })) := by
  simp only [exec, execWriteBlocking, startRefusal_none.2 ⟨hp, hc⟩]
  exact encodeAndSubmit_fit _ { s with waitMode := .blocking } hfit

theorem exec_writeBlocking_overflow (hfit : ¬ Fits colors s.cfg) : exec (.writeBlocking colors) s =
    .next (passOverflow colors { s with waitMode := .blocking }) := by
  simp only [exec, execWriteBlocking, startRefusal_none.2 ⟨hp, hc⟩]
  exact encodeAndSubmit_overflow _ { s with waitMode := .blocking } hfit

theorem exec_writeSuspending_fit (w : Waker) (hfit : Fits colors s.cfg) : exec (.writeSuspending colors w) s =
    .next (suspendTask w (submitFrame (frameOf s.cfg s.table colors) (passDone colors { s with waitMode := .suspending }))) := by
  simp only [exec, execWriteSuspending, startRefusal_none.2 ⟨hp, hc⟩,
    encodeAndSubmit_fit _ { s with waitMode := .suspending } hfit]

theorem exec_writeSuspending_overflow (w : Waker) (hfit : ¬ Fits colors s.cfg) : exec (.writeSuspending colors w) s =
    .next (passOverflow colors { s with waitMode := .suspending }) := by
  simp only [exec, execWriteSuspending, startRefusal_none.2 ⟨hp, hc⟩,
    encodeAndSubmit_overflow _ { s with waitMode := .suspending } hfit]
  simp [suspendTask, passOverflow]

end

/-! ### What a pass leaves in BUF -/

theorem Memory.read_writeAll_zero (m : Memory) (k : Nat) (cs : List PulseCode) :
    Memory.read (Memory.writeAll m 0 cs) k = if k < cs.length then cs[k]? else Memory.read m k := by
  simp [Memory.read_writeAll]

/-- The entries a pass that fits has stored: the frame, from index 0 on. -/
theorem read_passDone_buf (colors : List Color) (s : State) (k : Nat) :
    Memory.read (passDone colors s).buf k =
      if k < colors.length * s.cfg.bitsPerColor + 1 then (frameOf s.cfg s.table colors)[k]? else Memory.read s.buf k := by
  rw [← frameOf_length s.cfg s.table colors]
  exact Memory.read_writeAll_zero _ _ _

/-- More colours than MAX_LED_COUNT do not fit, whatever the legal order is (R76). -/
theorem not_fits_of_lt {colors : List Color} {cfg : Cfg} (ho : orderLegal cfg.channelOrder = true)
    (hlt : cfg.maxLedCount < colors.length) : ¬ Fits colors cfg := by
  have hnch : 1 ≤ cfg.nch := by
    have := orderLegal_length ho
    simp only [Cfg.nch]
    omega
  rw [fits_iff hnch]
  omega

/-- The entries a pass that overflows has stored: as many data codes as BUF holds. -/
theorem read_passOverflow_buf {colors : List Color} {s : State} (hfit : ¬ Fits colors s.cfg) (k : Nat) :
    Memory.read (passOverflow colors s).buf k =
      if k < s.cfg.capacity then (dataCodes s.cfg s.table colors)[k]? else Memory.read s.buf k := by
  have hlen : ((dataCodes s.cfg s.table colors).take s.cfg.capacity).length = s.cfg.capacity := by
    have hc : s.cfg.capacity = s.cfg.dataCapacity + 1 := rfl
    rw [List.length_take, dataCodes_length]
    unfold Fits at hfit
    omega
  refine (Memory.read_writeAll_zero _ _ _).trans ?_
  rw [hlen]
  split
  · rename_i hk
    rw [List.getElem?_take_of_lt hk]
  · rfl

/-! ### The obligations -/

/-- Settles O25. -/
theorem encodePassBuildsTheFrame : Obligations.EncodePassBuildsTheFrame := by
  unfold Obligations.EncodePassBuildsTheFrame
  intro colors s hp hc hle
  refine ⟨(passDone colors s).buf, ?_, read_passDone_buf colors s⟩
  rw [exec_encodePass_fit hp hc (fits_of_le hle), ← frameOf_length s.cfg s.table colors]
  rfl

/-- Settles O26. -/
theorem encodePassOverflow : Obligations.EncodePassOverflow := by
  unfold Obligations.EncodePassOverflow
  intro colors s hp ho hc hlt
  have hfit := not_fits_of_lt ho hlt
  exact ⟨(passOverflow colors s).buf, exec_encodePass_overflow hp hc hfit, read_passOverflow_buf hfit⟩

/-- Settles O29: the frame of the pass is submitted with the next handle. -/
theorem writeBlockingSubmitsTheFrame : Obligations.WriteBlockingSubmitsTheFrame := by
  unfold Obligations.WriteBlockingSubmitsTheFrame
  intro colors s hp hc hle
  refine ⟨(passDone colors s).buf, s.nextHandle, nextHandle_not_mem s, ?_, read_passDone_buf colors s⟩
  rw [exec_writeBlocking_fit hp hc (fits_of_le hle), ← frameOf_length s.cfg s.table colors]
  rfl

/-- Settles O30: as O29, and the waker is registered on what SUBMIT put in flight. -/
theorem writeSuspendingSubmitsAndSuspends : Obligations.WriteSuspendingSubmitsAndSuspends := by
  unfold Obligations.WriteSuspendingSubmitsAndSuspends
  intro colors w s hp hc hle
  refine ⟨(passDone colors s).buf, s.nextHandle, nextHandle_not_mem s, ?_, read_passDone_buf colors s⟩
  rw [exec_writeSuspending_fit hp hc w (fits_of_le hle), ← frameOf_length s.cfg s.table colors]
  rfl

/-- Settles O31: both variants end in the pass's overflow. -/
theorem writeOverflowTransmitsNothing : Obligations.WriteOverflowTransmitsNothing := by
  unfold Obligations.WriteOverflowTransmitsNothing
  intro colors w s hp ho hc hlt
  have hfit := not_fits_of_lt ho hlt
  refine ⟨(passOverflow colors s).buf, read_passOverflow_buf hfit, ?_⟩
  rintro i mode (⟨rfl, rfl⟩ | ⟨rfl, rfl⟩)
  · exact exec_writeBlocking_overflow hp hc hfit
  · exact exec_writeSuspending_overflow hp hc w hfit

/-- A blocking wait ends with the poll that answers a report (R82). -/
theorem afterInstr_pollComplete_reported {h : Handle} {r : Report} {s : State} (hr : s.ret = .status (.reported r))
    (hw : s.blockingWait = true) : afterInstr (.pollComplete h) s = endAttempt r.result s := by
  simp only [afterInstr, leaveLoop, hr, hw, if_true, endWait_eq]

/-- Settles O32: the two attempts differ in WAIT_MODE, TASK and the waker until the wait ends, and the end writes the last two alike. -/
theorem writeVariantsAgree : Obligations.WriteVariantsAgree := by
  unfold Obligations.WriteVariantsAgree
  intro colors w s hp _ hc hle
  have hfit := fits_of_le hle
  have hpoll (r : Report) (x : Tx) (b : State) (hb : b.blockingWait = true) :
      afterInstr (.pollComplete s.nextHandle) (setRet (.status (.reported r)) (reportDone r x b)) =
        endAttempt r.result (setRet (.status (.reported r)) (reportDone r x b)) :=
    afterInstr_pollComplete_reported rfl hb
  refine ⟨_, _, _, _, _, _, s.nextHandle, exec_writeBlocking_fit hp hc hfit, exec_periphDone rfl rfl, exec_pollComplete rfl rfl,
    exec_writeSuspending_fit hp hc w hfit, exec_periphDone rfl rfl, exec_resume rfl rfl (by rfl) (by rfl), rfl, rfl, rfl, rfl, ?_, ?_⟩
  · exact congrArg State.phase (hpoll _ _ _ rfl)
  · refine Eq.trans ?_ (congrArg (fun b : State => { b with waitMode := .suspending }) (hpoll _ _ _ rfl).symm)
    rfl

end Sys2Proof.Machine
end

section
/-! PROOFS. Steps: which instruction runs next, the blocked caller's poll, and operations run by their parts against the same operations as one
step (R10, R52, R53, R76, R82, R83). -/

namespace Sys2Proof.Machine

/-! ### What runs next -/

theorem external_iff (i : Instr) : external i = true ↔
    (∃ channel pin spec leds order, i = .new channel pin spec leds order) ∨ (∃ colors, i = .writeBlocking colors) ∨
      ∃ colors w, i = .writeSuspending colors w := by
  cases i <;> simp [external]

theorem peripheralTurn_iff (s : State) : s.peripheralTurn = true ↔
    s.phase = .transmitting ∧ (s.inputs.head? = some .play ∨ s.inputs.head? = some .report) := by
  simp only [State.peripheralTurn, Bool.and_eq_true, decide_eq_true_eq]
  refine and_congr_right fun _ => ?_
  cases s.inputs with
  | nil => simp
  | cons a as => cases a <;> simp

theorem step_of_fetch {s s' : State} {i : Instr} (h : fetch s = .ok (some i, s')) : step s = runInstr i s' := by
  simp only [step, h]

theorem runInstr_of_exec {i : Instr} {s t : State} (h : exec i s = .next t) : runInstr i s = .next (afterInstr i t) := by
  simp only [runInstr, h]

theorem step_of_fetch_error {s : State} {r : Refusal} (h : fetch s = .error r) : step s = .refused r := by
  simp only [step, h]

theorem step_of_fetch_none {s s' : State} (h : fetch s = .ok (none, s')) : step s = .next s' := by
  simp only [step, h]

/-- With nothing in progress, and on the peripheral's turn, the schedule says what moves. -/
theorem fetch_eq_fetchInput {s : State} (h : s.pending = [] ∨ s.peripheralTurn = true) : fetch s = fetchInput s := by
  obtain h | h := h
  · exact fetch_nil h
  · unfold fetch
    split
    · rfl
    · rw [if_pos h]

/-- The operation in progress goes on, unless the peripheral takes a turn or the schedule takes the next part apart. -/
theorem step_pending {s : State} {i : Instr} {ps : List Instr} (hn : s.pending = i :: ps) (hsplit : s.inputs.head? ≠ some .split)
    (hturn : s.peripheralTurn = false) : step s = runInstr i { s with pending := ps } := by
  refine step_of_fetch ?_
  simp only [fetch, hn, hturn, Bool.false_eq_true, if_false, fetchPending]
  split
  · rename_i rest hi
    exact absurd (by rw [hi]; rfl) hsplit
  · rfl

section
variable {s : State} {rest : List Input}

theorem fetchInput_calls {bytes more : List Byte} {i : Instr} (hi : s.inputs = .calls bytes :: rest)
    (hd : decodeOp bytes = .ok (i, more)) : fetchInput s =
      if external i = false then .error .internalOperation else .ok (some i, { s with inputs := remaining more rest }) := by
  simp only [fetchInput, hi, fetchCall, hd]
  split <;> rfl

theorem fetchInput_calls_illegal {bytes : List Byte} {e : DecodeError} (hi : s.inputs = .calls bytes :: rest)
    (hd : decodeOp bytes = .error e) : fetchInput s = .error .illegalEncoding := by
  simp only [fetchInput, hi, fetchCall, hd, whole]

theorem fetchInput_poll {x : Tx} (hi : s.inputs = .poll :: rest) (hx : s.tx = some x) (hw : s.waitMode = .blocking) :
    fetchInput s = .ok (some (.pollComplete x.handle), { s with inputs := rest }) := by
  simp only [fetchInput, hi, fetchPoll, hx, hw, if_true, whole]

theorem fetchInput_resume (hi : s.inputs = .resume :: rest) : fetchInput s = .ok (some .resume, { s with inputs := rest }) := by
  simp only [fetchInput, hi]

theorem fetchInput_report (hi : s.inputs = .report :: rest) :
    fetchInput s = .ok (some .periphDone, { s with inputs := rest }) := by
  simp only [fetchInput, hi]

theorem fetchInput_play {x : Tx} {p : PulseCode} {ps : List PulseCode} {i : Instr} (hi : s.inputs = .play :: rest)
    (hx : s.tx = some x) (hr : x.rest = p :: ps) (hd : decodeSymbol s.table.code0 s.table.code1 p = .ok i) :
    fetchInput s = .ok (some i, { s with inputs := rest }) := by
  simp only [fetchInput, hi, fetchPlay, hx, hr, hd, whole]

theorem fetchInput_nil (hi : s.inputs = []) : fetchInput s = .ok (none, s) := by
  simp only [fetchInput, hi]

theorem fetchInput_split_calls {bytes more : List Byte} {i : Instr} (hi : s.inputs = .split :: .calls bytes :: rest)
    (hd : decodeOp bytes = .ok (i, more)) (he : external i = true) :
    fetchInput s = split i { s with inputs := remaining more rest } := by
  simp only [fetchInput, hi, fetchCall, hd, he, Bool.true_eq_false, if_false, byParts]

end

/-- Settles O7: one fetch lemma for each entry of the schedule. -/
theorem stepRunsTheFetchedInstruction : Obligations.StepRunsTheFetchedInstruction := by
  unfold Obligations.StepRunsTheFetchedInstruction
  refine ⟨external_iff, fun s rest => ⟨fun i ps hn hsplit hturn => ?_, fun hn => ⟨fun bytes more i hi hd => ⟨fun he => ?_, fun he => ?_⟩,
    fun bytes e hi hd => ?_, fun x hi hx hw => ?_, fun hi => ?_, fun hi => ?_⟩, fun hq => ?_⟩⟩
  · exact step_pending hn hsplit (Bool.eq_false_iff.2 (mt (peripheralTurn_iff s).1 hturn))
  · exact step_of_fetch ((fetch_nil hn).trans ((fetchInput_calls hi hd).trans (if_neg (by simp [he]))))
  · exact step_of_fetch_error ((fetch_nil hn).trans ((fetchInput_calls hi hd).trans (if_pos he)))
  · exact step_of_fetch_error ((fetch_nil hn).trans (fetchInput_calls_illegal hi hd))
  · exact step_of_fetch ((fetch_nil hn).trans (fetchInput_poll hi hx hw))
  · exact step_of_fetch ((fetch_nil hn).trans (fetchInput_resume hi))
  · exact step_of_fetch_none ((fetch_nil hn).trans (fetchInput_nil hi))
  · constructor
    · intro hi
      have hturn := hq.imp_right fun hp => (peripheralTurn_iff s).2 ⟨hp, .inr (by rw [hi]; rfl)⟩
      exact step_of_fetch ((fetch_eq_fetchInput hturn).trans (fetchInput_report hi))
    · intro x p ps i hi hx hr hd
      have hturn := hq.imp_right fun hp => (peripheralTurn_iff s).2 ⟨hp, .inl (by rw [hi]; rfl)⟩
      exact step_of_fetch ((fetch_eq_fetchInput hturn).trans (fetchInput_play hi hx hr hd))

/-! ### The blocked caller's poll -/

section
variable {x : Tx} {rest : List Input} {s : State} (hx : s.tx = some x) (hw : s.waitMode = .blocking) (hn : s.pending = [])
  (hi : s.inputs = .poll :: rest)
include hx hw hn hi

theorem step_poll : step s = .next (afterInstr (.pollComplete x.handle) (setRet (.status x.status) { s with inputs := rest })) :=
  (step_of_fetch ((fetch_nil hn).trans (fetchInput_poll hi hx hw))).trans
    (runInstr_of_exec (exec_pollComplete (s := { s with inputs := rest }) hx rfl))

theorem step_poll_pending (hst : x.status = .pending) : step s = .next (setRet (.status .pending) { s with inputs := rest }) := by
  rw [step_poll hx hw hn hi, hst]
  rfl

theorem step_poll_reported {r : Report} (hp : s.phase = .transmitting) (hst : x.status = .reported r) :
    step s = .next (endAttempt r.result { s with inputs := rest }) := by
  have hwait : (setRet (.status x.status) { s with inputs := rest }).blockingWait = true := by
    simp [State.blockingWait, hp, hw]
  rw [step_poll hx hw hn hi, afterInstr_pollComplete_reported (r := r) (by simp [hst]) hwait]
  rfl

end

/-- Settles O40. -/
theorem blockingPollEndsTheAttempt : Obligations.BlockingPollEndsTheAttempt := by
  unfold Obligations.BlockingPollEndsTheAttempt
  intro x rest s hx hp hw hn hi
  have hended (r : Report) (hst : x.status = .reported r) :
      step s = .next { endAttempt r.result { s with inputs := rest } with pending := s.pending } := by
    rw [step_poll_reported hx hw hn hi hp hst, hn]
    rfl
  exact ⟨step_poll_pending hx hw hn hi, hended .complete, fun e => hended (.error e)⟩

/-! ### An encode pass by its parts -/

theorem storeCodes_append (cs ds : List PulseCode) (s : State) : storeCodes (cs ++ ds) s = storeCodes ds (storeCodes cs s) := by
  simp [storeCodes, Memory.writeAll_append, Nat.add_assoc]

/-- The end of a pass that fits: its data codes and the marker have been stored from index 0 on. -/
theorem passDone_eq_storeCodes (colors : List Color) (s : State) : passDone colors s =
    setRet (.frame (frameOf s.cfg s.table colors))
      (storeCodes (frameOf s.cfg s.table colors) (beginBuf { s with phase := .encoding, stream := [] })) := by
  simp [passDone, storeCodes, setRet, beginBuf, resetCursor]

theorem runSteps_add {m n : Nat} {s t : State} (h : runSteps m s = .next t) : runSteps (m + n) s = runSteps n t := by
  induction m generalizing s with
  | zero => cases h; rw [Nat.zero_add]
  | succ m ih =>
    rw [Nat.succ_add]
    simp only [runSteps] at h ⊢
    split at h
    · exact ih h
    · cases h
    · cases h

theorem runSteps_one {s t : State} (h : step s = .next t) : runSteps 1 s = .next t := by
  simp only [runSteps, h]

/-- Some number of steps leads from `s` to `t`, whatever the last of them returns. -/
def Reaches (s t : State) : Prop := ∃ n r, runSteps n s = .next (setRet r t)

theorem Reaches.refl (s : State) : Reaches s s := ⟨0, s.ret, rfl⟩

theorem Reaches.of_step {s t : State} {r : Ret} (h : step s = .next (setRet r t)) : Reaches s t := ⟨1, r, runSteps_one h⟩

theorem Reaches.trans {s t u : State} (h : Reaches s t) (h' : ∀ r, Reaches (setRet r t) u) : Reaches s u := by
  obtain ⟨m, r, hm⟩ := h
  obtain ⟨n, r', hn⟩ := h' r
  exact ⟨m + n, r', (runSteps_add hm).trans hn⟩

/-- In Encoding the next part runs as one step when the schedule does not take it apart. -/
theorem step_encoding_part {s u : State} {i : Instr} {ps : List Instr} (hp : s.phase = .encoding)
    (hsplit : s.inputs.head? ≠ some .split) (hn : s.pending = i :: ps) (hu : exec i { s with pending := ps } = .next u) :
    step s = .next (afterInstr i u) :=
  (step_part hn hsplit (by simp [hp])).trans (runInstr_of_exec hu)

/-- The PUSHes left to run store their codes. -/
theorem reaches_pushes {codes : List PulseCode} {ps : List Instr} {s : State} (hp : s.phase = .encoding)
    (hsplit : s.inputs.head? ≠ some .split) (hfit : s.cursor + codes.length ≤ s.cfg.capacity)
    (hn : s.pending = codes.map .push ++ ps) : Reaches s (storeCodes codes { s with pending := ps }) := by
  induction codes generalizing s with
  | nil =>
    have hs : storeCodes [] { s with pending := ps } = s := by
      rw [show ps = s.pending from hn.symm]
      rfl
    exact hs.symm ▸ Reaches.refl s
  | cons c cs ih =>
    rw [List.length_cons] at hfit
    have hstep : step s = .next (setRet .unit (storeCode c { s with pending := cs.map .push ++ ps })) :=
      step_encoding_part hp hsplit hn (exec_push_of_room hp (show s.cursor < s.cfg.capacity by omega))
    refine (Reaches.of_step hstep).trans fun r => ?_
    rw [storeCodes_cons]
    exact ih (s := setRet r (storeCode c { s with pending := cs.map .push ++ ps })) hp hsplit
      (by simp only [setRet_cursor, storeCode_cursor, setRet_cfg, storeCode_cfg]; omega) rfl

/-- The parts of one colour take it from the stream and store its codes. -/
theorem reaches_color {c : Color} {ps : List Instr} {s : State} (hp : s.phase = .encoding) (hsplit : s.inputs.head? ≠ some .split)
    (hc : s.cfg.fits c = true) (hfit : s.cursor + s.cfg.bitsPerColor ≤ s.cfg.capacity)
    (hn : s.pending = colorParts s.cfg s.table c ++ ps) :
    Reaches s (storeCodes (encodeColor s.cfg.channelOrder s.table c) { s with stream := s.stream.drop 1, pending := ps }) := by
  have hlen : (encodeColor s.cfg.channelOrder s.table c).length = s.cfg.bitsPerColor := encodeColor_length _ _ _
  have hstep : step s = .next (setRet (.codes (encodeColor s.cfg.channelOrder s.table c))
      (takeColor { s with pending := (encodeColor s.cfg.channelOrder s.table c).map .push ++ ps })) :=
    step_encoding_part hp hsplit hn (exec_encodeColor (by simp [hp]) hc)
  refine (Reaches.of_step hstep).trans fun r => ?_
  exact reaches_pushes (s := setRet r (takeColor { s with pending := _ })) hp hsplit
    (by simp only [setRet_cursor, takeColor_cursor, setRet_cfg, takeColor_cfg]; omega) rfl

/-- The parts of all the colours empty the stream and store the data codes. -/
theorem reaches_colors {colors : List Color} {ps : List Instr} {s : State} (hp : s.phase = .encoding)
    (hsplit : s.inputs.head? ≠ some .split) (hc : colors.all s.cfg.fits = true) (hs : s.stream = colors)
    (hfit : s.cursor + colors.length * s.cfg.bitsPerColor ≤ s.cfg.capacity)
    (hn : s.pending = colors.flatMap (colorParts s.cfg s.table) ++ ps) :
    Reaches s (storeCodes (dataCodes s.cfg s.table colors) { s with stream := [], pending := ps }) := by
  induction colors generalizing s with
  | nil =>
    have hend : storeCodes (dataCodes s.cfg s.table []) { s with stream := [], pending := ps } = s := by
      rw [dataCodes_nil, show ps = s.pending from hn.symm, ← hs]
      rfl
    exact hend.symm ▸ Reaches.refl s
  | cons c cs ih =>
    rw [List.all_cons, Bool.and_eq_true] at hc
    rw [List.length_cons, Nat.add_mul, Nat.one_mul] at hfit
    rw [List.flatMap_cons, List.append_assoc] at hn
    have hlen : (encodeColor s.cfg.channelOrder s.table c).length = s.cfg.bitsPerColor := encodeColor_length _ _ _
    refine (reaches_color hp hsplit hc.1 (by omega) hn).trans fun r => ?_
    rw [dataCodes_cons, storeCodes_append]
    exact ih (s := setRet r (storeCodes _ { s with stream := s.stream.drop 1, pending := _ })) hp hsplit hc.2
      (by simp [storeCodes, hs]) (by simp only [setRet_cursor, setRet_cfg, storeCodes]; omega) rfl

/-- Taking an encode pass apart runs its BEGIN. -/
theorem step_split_encodePass {colors : List Color} {ps : List Instr} {rest : List Input} {s : State} (hp : s.phase = .idle)
    (hc : colors.all s.cfg.fits = true) (hn : s.pending = .encodePass colors :: ps) (hi : s.inputs = .split :: rest) :
    step s = .next (beginBuf { s with
      phase := .encoding, stream := colors, inputs := rest, pending := passParts s.cfg s.table colors ++ ps }) := by
  have hturn : s.peripheralTurn = false := by simp [State.peripheralTurn, hp]
  have hstart : startRefusal colors { s with pending := ps, inputs := rest } = none := startRefusal_none.2 ⟨hp, hc⟩
  have hfetch : fetch s = .ok (some .beginBuf, { s with
      phase := .encoding, stream := colors, inputs := rest, pending := passParts s.cfg s.table colors ++ ps }) := by
    simp only [fetch, hn, hturn, Bool.false_eq_true, if_false, fetchPending, hi, split, hstart]
    rfl
  exact (step_of_fetch hfetch).trans (runInstr_of_exec (exec_beginBuf rfl))

/-- An encode pass that fits, run by its parts, leads to the state it leads to as one step. -/
theorem runSteps_split_encodePass {colors : List Color} {s : State} (ps : List Instr) {rest : List Input} (hp : s.phase = .idle)
    (hc : colors.all s.cfg.fits = true) (hfit : Fits colors s.cfg) (hsplit : rest.head? ≠ some .split) :
    ∃ n, runSteps n { s with pending := .encodePass colors :: ps, inputs := .split :: rest } =
      .next { passDone colors s with pending := ps, inputs := rest } := by
  have hcap : s.cfg.capacity = s.cfg.dataCapacity + 1 := rfl
  have hlen := dataCodes_length s.cfg s.table colors
  unfold Fits at hfit
  have hbegin := step_split_encodePass (s := { s with pending := .encodePass colors :: ps, inputs := .split :: rest }) hp hc rfl rfl
  obtain ⟨n, r, hcolors⟩ := reaches_colors (ps := .finish :: ps) (colors := colors)
    (s := beginBuf { s with
      phase := .encoding, stream := colors, inputs := rest, pending := passParts s.cfg s.table colors ++ ps })
    rfl hsplit hc rfl (by simp only [beginBuf_cursor, beginBuf_cfg]; omega) (by simp [passParts])
  refine ⟨1 + (n + 1), (runSteps_add (runSteps_one hbegin)).trans ((runSteps_add hcolors).trans (runSteps_one ?_))⟩
  refine (step_encoding_part (ps := ps) rfl hsplit rfl (exec_finish_of_room (pre := dataCodes s.cfg s.table colors) rfl
    (by simp only [setRet_cursor, setRet_cfg, storeCodes, beginBuf_cursor, beginBuf_cfg, beginBuf_table]; omega) (storeCodes_filled _ rfl))).trans ?_
  rw [passDone_eq_storeCodes, frameOf, storeCodes_append]
  rfl

/-- Settles O27: as one step the pass ends as BEGIN, the PUSHes and FINISH do, and so do its parts. -/
theorem encodePassIsItsExpansion : Obligations.EncodePassIsItsExpansion := by
  unfold Obligations.EncodePassIsItsExpansion
  intro colors s hp hc hle
  have hfit := fits_of_le hle
  constructor
  · have hcodes : (dataCodes s.cfg s.table colors).length ≤ s.cfg.dataCapacity := by
      rw [dataCodes_length]
      exact hfit
    rw [exec_encodePass_fit hp hc hfit, passDone_eq_storeCodes, frameOf, storeCodes_append]
    exact (runOps_begin_pushes_finish (s := { s with phase := .encoding, stream := [] }) rfl hcodes).symm
  · intro ps rest hsplit
    obtain ⟨n, hn⟩ := runSteps_split_encodePass ps hp hc hfit hsplit
    exact ⟨n, passDone colors s, exec_encodePass_fit hp hc hfit, hn⟩

/-! ### The WRITEs by their parts -/

theorem encodeBit_isData (t : TimingTable) (bit : Bool) : t.isData (encodeBit t bit) = true := by
  cases bit <;> simp [TimingTable.isData, encodeBit]

/-- What a pass pushes is CODE_0 or CODE_1 (R54). -/
theorem encodeColor_isData (order : List Nat) (t : TimingTable) (c : Color) : (encodeColor order t c).all t.isData = true := by
  simp [encodeColor, encodeByte, encodeBit_isData]

theorem dataCodes_isData (cfg : Cfg) (t : TimingTable) (colors : List Color) : (dataCodes cfg t colors).all t.isData = true := by
  simp [dataCodes, encodeColor_isData]

theorem legal_of_isData {t : TimingTable} {p : PulseCode} (ht : t.legal = true) (hp : t.isData p = true) : p.legal = true := by
  simp only [TimingTable.legal, Bool.and_eq_true] at ht
  simp only [TimingTable.isData, Bool.or_eq_true, decide_eq_true_eq] at hp
  obtain rfl | rfl := hp
  · exact ht.1.1
  · exact ht.1.2

/-- A frame of a legal table's symbols is a list of pulse codes, as SUBMIT needs it. -/
theorem legal_of_isFrame {t : TimingTable} {codes : List PulseCode} (ht : t.legal = true) (hcodes : codes.all t.isData = true) :
    (codes ++ [t.resetCode]).all PulseCode.legal = true := by
  have hreset : t.resetCode.legal = true := by
    simp only [TimingTable.legal, Bool.and_eq_true] at ht
    exact ht.2
  have hdata : codes.all PulseCode.legal = true :=
    List.all_eq_true.2 fun p hp => legal_of_isData ht (List.all_eq_true.1 hcodes p hp)
  simp [hdata, hreset]

section
variable {colors : List Color} {s : State} (hp : s.phase = .idle) (hc : colors.all s.cfg.fits = true) (hfit : Fits colors s.cfg)
include hp hc hfit

/-- ENCODE_PASS and SUBMIT of the frame it returned. -/
theorem runOps_encodePass_submit (is : List Instr) (ht : s.table.legal = true) :
    runOps (.encodePass colors :: .submit (frameOf s.cfg s.table colors) :: is) s =
      runOps is (submitFrame (frameOf s.cfg s.table colors) (passDone colors s)) := by
  have hlegal := legal_of_isFrame ht (dataCodes_isData s.cfg s.table colors)
  rw [runOps_cons (exec_encodePass_fit hp hc hfit)]
  exact runOps_cons (exec_submit (s := passDone colors s) rfl hlegal rfl)

end

/-- A call taken apart, with nothing in progress. -/
theorem step_split_call {bytes more : List Byte} {i : Instr} {rest : List Input} {s t : State} (hn : s.pending = [])
    (hi : s.inputs = .split :: .calls bytes :: rest) (hd : decodeOp bytes = .ok (i, more)) (he : external i = true)
    (ht : split i { s with inputs := remaining more rest } = .ok (none, t)) : step s = .next t :=
  step_of_fetch_none ((fetch_nil hn).trans ((fetchInput_split_calls hi hd he).trans ht))

section
variable {colors : List Color} {s : State} (h : startRefusal colors s = none)
include h

theorem split_writeBlocking : split (.writeBlocking colors) s =
    .ok (none, invoke (writeParts colors [] s) { s with waitMode := .blocking }) := by
  simp only [split, h]

theorem split_writeSuspending (w : Waker) : split (.writeSuspending colors w) s =
    .ok (none, invoke (writeParts colors [.onComplete s.nextHandle w] s) { s with waitMode := .suspending }) := by
  simp only [split, h]

end

/-- Settles O28: SUBMIT accepts the frame of a legal table, and the handle it draws is the one the registration names. -/
theorem writesAreTheirExpansions : Obligations.WritesAreTheirExpansions := by
  unfold Obligations.WritesAreTheirExpansions
  intro colors w s hp ht hc
  constructor
  · intro hle
    have hfit := fits_of_le hle
    constructor
    · rw [exec_writeBlocking_fit hp hc hfit]
      exact (runOps_encodePass_submit (s := { s with waitMode := .blocking }) hp hc hfit [] ht).symm
    · refine ⟨_, (runOps_encodePass_submit (s := { s with waitMode := .suspending }) hp hc hfit _ ht).trans
        (runOps_cons (exec_onComplete rfl w rfl)), ?_, rfl⟩
      rw [exec_writeSuspending_fit hp hc w hfit]
      rfl
  · intro bytes more rest hn hi
    have hstart : startRefusal colors { s with inputs := remaining more rest } = none := startRefusal_none.2 ⟨hp, hc⟩
    constructor
    · intro hd
      rw [step_split_call hn hi hd rfl (split_writeBlocking hstart)]
      simp [invoke, writeParts, hn]
    · intro hd
      rw [step_split_call hn hi hd rfl (split_writeSuspending hstart w)]
      simp [invoke, writeParts, hn, State.nextHandle]

end Sys2Proof.Machine
end

section
/-! PROOFS. The wire: playing a symbol moves its stretch of the waveform, and the waveform of a frame this block builds (R87, R117). -/

namespace Sys2Proof.Machine

/-- Settles O42: the code played is the head of what is left of the frame. -/
theorem playingKeepsTheWaveform : Obligations.PlayingKeepsTheWaveform := by
  unfold Obligations.PlayingKeepsTheWaveform
  intro i s t hsym h
  obtain ⟨p, hp⟩ := Option.ne_none_iff_exists'.1 hsym
  rw [exec_symbol s hp] at h
  obtain ⟨x, hx, -, hnext, rfl⟩ := playPulse_next (playSymbol_next h).2
  obtain ⟨hlt, hget⟩ := List.getElem?_eq_some_iff.1 hnext
  have hrest : x.frame.drop x.sent = p :: x.frame.drop (x.sent + 1) := by rw [List.drop_eq_getElem_cons hlt, hget]
  refine ⟨x, _, hx, rfl, ?_, ?_, levelAfter_symbol hp, rfl⟩
  · cases endsOutput p
    · exact Nat.lt_succ_self _
    · exact hlt
  · rw [hrest, waveform_cons, List.append_assoc]
    cases endsOutput p
    · rfl
    · simp [waveform]

/-! ### The waveform of a frame -/

/-- The stretch of the waveform a data bit denotes (R45, R87). -/
def bitSegments (t : TimingTable) (bit : Bool) : List Segment :=
  if bit = true then [{ level := .high, ticks := t.code1.d0 }, { level := .low, ticks := t.code1.d1 }]
  else [{ level := .high, ticks := t.code0.d0 }, { level := .low, ticks := t.code0.d1 }]

/-- The data codes are those of the bits in wire order (R30, R31). -/
theorem dataCodes_eq_map (cfg : Cfg) (t : TimingTable) (colors : List Color) :
    dataCodes cfg t colors = (wireBits cfg colors).map (encodeBit t) := by
  simp only [dataCodes, wireBits, List.map_flatMap]
  rfl

section
variable {clock : Nat} {spec : ProtocolSpec} {t : TimingTable} (ht : computeTimings clock spec = some t)
include ht

/-- A data symbol of a computed table is played whole, High then Low. -/
theorem waveform_encodeBit_cons (bit : Bool) (ps : List PulseCode) :
    waveform (encodeBit t bit :: ps) = bitSegments t bit ++ waveform ps := by
  obtain ⟨hlegal, rfl⟩ := computeTimings_eq_some_iff.1 ht
  simp only [List.forall_mem_cons, ticksLegal_iff] at hlegal
  obtain ⟨h0h, h0l, h1h, h1l, -⟩ := hlegal
  have hne {n : Nat} (h : 1 ≤ n ∧ n ≤ 32767) : n ≠ 0 := by omega
  cases bit
  · simp [waveform, endsOutput, segmentsOf, encodeBit, bitSegments, hne h0h, hne h0l]
  · simp [waveform, endsOutput, segmentsOf, encodeBit, bitSegments, hne h1h, hne h1l]

/-- The end symbol of a computed table is Low for TRESET ticks, and ends the output. -/
theorem waveform_resetCode : waveform [t.resetCode] = [{ level := .low, ticks := t.resetCode.d0 }] := by
  obtain ⟨hlegal, rfl⟩ := computeTimings_eq_some_iff.1 ht
  simp only [List.forall_mem_cons, ticksLegal_iff] at hlegal
  obtain ⟨-, -, -, -, hreset, -⟩ := hlegal
  have hne : nsToTicks spec.reset clock ≠ 0 := by omega
  simp [waveform, endsOutput, segmentsOf, hne]

theorem waveform_frame (bits : List Bool) : waveform (bits.map (encodeBit t) ++ [t.resetCode]) =
    bits.flatMap (bitSegments t) ++ [{ level := .low, ticks := t.resetCode.d0 }] := by
  induction bits with
  | nil => exact waveform_resetCode ht
  | cons bit bits ih =>
    rw [List.map_cons, List.cons_append, waveform_encodeBit_cons ht, ih, List.flatMap_cons, List.append_assoc]

end

theorem totalTicks_append (gs hs : List Segment) : totalTicks (gs ++ hs) = totalTicks gs + totalTicks hs := by
  simp [totalTicks]

/-- Each bit lasts its symbol's two durations (R117). -/
theorem totalTicks_bits (t : TimingTable) (bits : List Bool) : totalTicks (bits.flatMap (bitSegments t)) =
    bits.count false * (t.code0.d0 + t.code0.d1) + bits.count true * (t.code1.d0 + t.code1.d1) := by
  induction bits with
  | nil => simp [totalTicks]
  | cons bit bits ih =>
    rw [List.flatMap_cons, totalTicks_append, ih]
    cases bit
    · simp [bitSegments, totalTicks, Nat.add_mul]
      omega
    · simp [bitSegments, totalTicks, Nat.add_mul]
      omega

/-- Settles O43: the frame is the codes of the wire bits and the marker. -/
theorem frameWaveform : Obligations.FrameWaveform := by
  unfold Obligations.FrameWaveform
  refine ⟨fun cfg t colors ht => ?_, fun frame => ⟨levelAt_end (waveform frame), fun pre g post n hw hn => ?_⟩⟩
  · have hwave := waveform_frame ht (wireBits cfg colors)
    rw [← dataCodes_eq_map] at hwave
    refine ⟨hwave, ?_⟩
    rw [frameOf, hwave, totalTicks_append, totalTicks_bits]
    rfl
  · rw [hw]
    exact levelAt_inside pre post g n hn

end Sys2Proof.Machine
end

section
/-! PROOFS. What an instruction can answer, said once for all of them; what each leaves unchanged; the history, the registers, the frozen buffer and the
errors (R12, R14, R24, R38, R97). -/

namespace Sys2Proof.Machine

/-! ### The answers of the instructions -/

/-- Everything an instruction can answer next, with the guard it passed: the inversion lemmas of the meanings as one relation. -/
inductive Answers (s : State) : Instr → State → Prop where
  | constructed {channel pin spec leds order} (table : TimingTable) (hp : s.phase = .unconstructed) (ho : orderLegal order = true)
      (ht : computeTimings channel.clockRate spec = some table)
      (hl : allocFails Config.bufferLimit (newCfg channel pin spec leds order).capacity = false) :
      Answers s (.new channel pin spec leds order) (construct (newCfg channel pin spec leds order) table s)
  | constructFailed {channel pin spec leds order} (k : ConstructError) (n : Nat) (hp : s.phase = .unconstructed) :
      Answers s (.new channel pin spec leds order)
        { s with history := s.history ++ [.constructFailed k], ret := .raised (.construct k), draws := s.draws + n }
  | timings {clock spec r} (hn : s.newInProgress = true) (hr : r = timingsRet (computeTimings clock spec)) :
      Answers s (.computeTimings clock spec) (setRet r s)
  | bit {b} (hp : s.phase ≠ .unconstructed) : Answers s (.encodeBit b) (setRet (.code (encodeBit s.table b)) s)
  | byte {b} (hp : s.phase ≠ .unconstructed) : Answers s (.encodeByte b) (setRet (.codes (encodeByte s.table b)) s)
  | color {c} (hp : s.phase ≠ .unconstructed) (hc : s.cfg.fits c = true) :
      Answers s (.encodeColor c) (setRet (.codes (encodeColor s.cfg.channelOrder s.table c)) s)
  | began (hp : s.phase = .encoding) : Answers s .beginBuf (beginBuf s)
  | pushed {p} (hp : s.phase = .encoding) (hroom : s.cursor < s.cfg.capacity) : Answers s (.push p) (setRet .unit (storeCode p s))
  | pushFull {p} (hp : s.phase = .encoding) (hfull : s.cfg.capacity ≤ s.cursor) :
      Answers s (.push p) (takeError (.write .bufferOverflow) s)
  | finished {frame} (hp : s.phase = .encoding) (hroom : s.cursor < s.cfg.capacity)
      (hf : (storeCode s.table.resetCode s).filled = some frame) :
      Answers s .finish (setRet (.frame frame) (storeCode s.table.resetCode s))
  | finishFull (hp : s.phase = .encoding) (hfull : s.cfg.capacity ≤ s.cursor) :
      Answers s .finish (takeError (.write .bufferOverflow) s)
  | passed {colors} (hp : s.phase = .idle) (hc : colors.all s.cfg.fits = true) (hfit : Fits colors s.cfg) :
      Answers s (.encodePass colors) (passDone colors s)
  | passFull {colors} (hp : s.phase = .idle) (hfit : ¬ Fits colors s.cfg) : Answers s (.encodePass colors) (passOverflow colors s)
  | wroteBlocking {colors} (hp : s.phase = .idle) (hc : colors.all s.cfg.fits = true) (hfit : Fits colors s.cfg) :
      Answers s (.writeBlocking colors)
        (submitFrame (frameOf s.cfg s.table colors) (passDone colors { s with waitMode := .blocking }))
  | blockingFull {colors} (hp : s.phase = .idle) (hfit : ¬ Fits colors s.cfg) :
      Answers s (.writeBlocking colors) (passOverflow colors { s with waitMode := .blocking })
  | wroteSuspending {colors w} (hp : s.phase = .idle) (hc : colors.all s.cfg.fits = true) (hfit : Fits colors s.cfg) :
      Answers s (.writeSuspending colors w) (suspend (registerWaker (newTx s.nextHandle (frameOf s.cfg s.table colors)) w
        (submitFrame (frameOf s.cfg s.table colors) (passDone colors { s with waitMode := .suspending }))))
  | suspendingFull {colors w} (hp : s.phase = .idle) (hfit : ¬ Fits colors s.cfg) :
      Answers s (.writeSuspending colors w) (passOverflow colors { s with waitMode := .suspending })
  | submitted {frame} (hp : s.phase = .encoding) (hret : s.ret = .frame frame) : Answers s (.submit frame) (submitFrame frame s)
  | polled {x} (hx : s.tx = some x) : Answers s (.pollComplete x.handle) (setRet (.status x.status) s)
  | registered {x w} (hx : s.tx = some x) : Answers s (.onComplete x.handle w) (registerWaker x w s)
  | reported {x} (hx : s.tx = some x) (hst : x.status = .pending) : Answers s .periphDone (reportDone s.nextReport x s)
  | resumed {x r} (hx : s.tx = some x) (hst : x.status = .reported r) (hw : x.wakerBit = true) (ht : s.task = .suspended) :
      Answers s .resume (endAttempt r.result s)
  | played {i p x} (hi : symbolPulse i = some p) (hx : s.tx = some x) (hst : x.status = .pending) (hp : x.frame[x.sent]? = some p) :
      Answers s i { s with
        wire := s.wire ++ segmentsOf p
        line := levelAfter p
        tx := some { x with sent := if endsOutput p then x.frame.length else x.sent + 1 }
        ret := .unit }

theorem Answers.of_playSymbol {s t : State} {i : Instr} {p : PulseCode} (hi : symbolPulse i = some p)
    (h : playSymbol i p s = .next t) : Answers s i t := by
  obtain ⟨x, hx, hst, hp, rfl⟩ := playPulse_next (playSymbol_next h).2
  exact .played hi hx hst hp

theorem Answers.of_exec {s t : State} {i : Instr} (h : exec i s = .next t) : Answers s i t := by
  cases i with
  | new channel pin spec leds order =>
    obtain ⟨hp, ho, rfl⟩ := execNew_next h
    obtain ⟨table, ht, hl, he⟩ | ⟨k, n, he⟩ := newAdapter_cases Config.bufferLimit (newCfg channel pin spec leds order) s
    · exact he ▸ .constructed table hp ho ht hl
    · exact he ▸ .constructFailed k n hp
  | computeTimings clock spec =>
    obtain ⟨hn, r, hr, rfl⟩ := execComputeTimings_next h
    exact .timings hn hr
  | encodeBit b =>
    obtain ⟨hp, rfl⟩ := execEncodeBit_next h
    exact .bit hp
  | encodeByte b =>
    obtain ⟨hp, rfl⟩ := execEncodeByte_next h
    exact .byte hp
  | encodeColor c =>
    obtain ⟨hp, hc, rfl⟩ := execEncodeColor_next h
    exact .color hp hc
  | beginBuf =>
    obtain ⟨hp, rfl⟩ := execBegin_next h
    exact .began hp
  | push p =>
    obtain ⟨hp, ⟨hroom, rfl⟩ | ⟨hfull, rfl⟩⟩ := execPush_next h
    · exact .pushed hp hroom
    · exact .pushFull hp hfull
  | finish =>
    obtain ⟨hp, hf⟩ := execFinish_next h
    obtain ⟨hroom, frame, hfilled, rfl⟩ | ⟨hfull, rfl⟩ := finishBuf_next hf
    · exact .finished hp hroom hfilled
    · exact .finishFull hp hfull
  | encodePass colors =>
    obtain ⟨hp, hc, ⟨hfit, rfl⟩ | ⟨hfit, rfl⟩⟩ := execEncodePass_next h
    · exact .passed hp hc hfit
    · exact .passFull hp hfit
  | writeBlocking colors =>
    obtain ⟨hp, hc, ⟨hfit, rfl⟩ | ⟨hfit, rfl⟩⟩ := execWriteBlocking_next h
    · exact .wroteBlocking hp hc hfit
    · exact .blockingFull hp hfit
  | writeSuspending colors w =>
    obtain ⟨hp, hc, ⟨hfit, rfl⟩ | ⟨hfit, rfl⟩⟩ := execWriteSuspending_next h
    · exact .wroteSuspending hp hc hfit
    · exact .suspendingFull hp hfit
  | submit frame =>
    obtain ⟨hp, -, hret, rfl⟩ := execSubmit_next h
    exact .submitted hp hret
  | pollComplete hd =>
    obtain ⟨x, hx, rfl, rfl⟩ := execPollComplete_next h
    exact .polled hx
  | onComplete hd w =>
    obtain ⟨x, hx, rfl, rfl⟩ := execOnComplete_next h
    exact .registered hx
  | periphDone =>
    obtain ⟨x, hx, hst, rfl⟩ := execPeriphDone_next h
    exact .reported hx hst
  | resume =>
    obtain ⟨x, r, hx, hst, hw, ht, rfl⟩ := execResume_next h
    exact .resumed hx hst hw ht
  | code0 high low => exact .of_playSymbol rfl h
  | code1 high low => exact .of_playSymbol rfl h
  | resetCode ticks => exact .of_playSymbol rfl h

/-- The symbols answer only by playing. -/
theorem Answers.played_of_symbol {s t : State} {i : Instr} {p : PulseCode} (hi : symbolPulse i = some p) (h : Answers s i t) :
    ∃ x n, s.tx = some x ∧ t = { s with
      wire := s.wire ++ segmentsOf p, line := levelAfter p, tx := some { x with sent := n }, ret := .unit } := by
  cases h with
  | played hi' hx =>
    obtain rfl := Option.some.inj (hi'.symm.trans hi)
    exact ⟨_, _, hx, rfl⟩
  | _ => cases hi

/-! ### Fields of the ends of a pass -/

@[simp] theorem passDone_cfg (colors : List Color) (s : State) : (passDone colors s).cfg = s.cfg := rfl
@[simp] theorem passDone_table (colors : List Color) (s : State) : (passDone colors s).table = s.table := rfl
@[simp] theorem passDone_phase (colors : List Color) (s : State) : (passDone colors s).phase = .encoding := rfl
@[simp] theorem passDone_waitMode (colors : List Color) (s : State) : (passDone colors s).waitMode = s.waitMode := rfl
@[simp] theorem passDone_result (colors : List Color) (s : State) : (passDone colors s).result = s.result := rfl
@[simp] theorem passDone_tx (colors : List Color) (s : State) : (passDone colors s).tx = s.tx := rfl
@[simp] theorem passDone_task (colors : List Color) (s : State) : (passDone colors s).task = s.task := rfl
@[simp] theorem passDone_history (colors : List Color) (s : State) : (passDone colors s).history = s.history := rfl
@[simp] theorem passDone_wire (colors : List Color) (s : State) : (passDone colors s).wire = s.wire := rfl
@[simp] theorem passDone_line (colors : List Color) (s : State) : (passDone colors s).line = s.line := rfl
@[simp] theorem passDone_usedHandles (colors : List Color) (s : State) : (passDone colors s).usedHandles = s.usedHandles := rfl
@[simp] theorem passDone_pending (colors : List Color) (s : State) : (passDone colors s).pending = s.pending := rfl
@[simp] theorem passDone_inputs (colors : List Color) (s : State) : (passDone colors s).inputs = s.inputs := rfl
@[simp] theorem passDone_draws (colors : List Color) (s : State) : (passDone colors s).draws = s.draws := rfl

@[simp] theorem passOverflow_cfg (colors : List Color) (s : State) : (passOverflow colors s).cfg = s.cfg := rfl
@[simp] theorem passOverflow_table (colors : List Color) (s : State) : (passOverflow colors s).table = s.table := rfl
@[simp] theorem passOverflow_cursor (colors : List Color) (s : State) : (passOverflow colors s).cursor = 0 := rfl
@[simp] theorem passOverflow_phase (colors : List Color) (s : State) : (passOverflow colors s).phase = .idle := rfl
@[simp] theorem passOverflow_waitMode (colors : List Color) (s : State) : (passOverflow colors s).waitMode = s.waitMode := rfl
@[simp] theorem passOverflow_result (colors : List Color) (s : State) :
    (passOverflow colors s).result = some (.failed .bufferOverflow) := rfl
@[simp] theorem passOverflow_tx (colors : List Color) (s : State) : (passOverflow colors s).tx = none := rfl
@[simp] theorem passOverflow_task (colors : List Color) (s : State) : (passOverflow colors s).task = .running := rfl
@[simp] theorem passOverflow_history (colors : List Color) (s : State) :
    (passOverflow colors s).history = s.history ++ [.returned (.failed .bufferOverflow)] := rfl
@[simp] theorem passOverflow_wire (colors : List Color) (s : State) : (passOverflow colors s).wire = s.wire := rfl
@[simp] theorem passOverflow_line (colors : List Color) (s : State) : (passOverflow colors s).line = s.line := rfl
@[simp] theorem passOverflow_usedHandles (colors : List Color) (s : State) : (passOverflow colors s).usedHandles = s.usedHandles := rfl
@[simp] theorem passOverflow_inputs (colors : List Color) (s : State) : (passOverflow colors s).inputs = s.inputs := rfl
@[simp] theorem passOverflow_ret (colors : List Color) (s : State) :
    (passOverflow colors s).ret = .raised (.write .bufferOverflow) := rfl
@[simp] theorem passOverflow_draws (colors : List Color) (s : State) : (passOverflow colors s).draws = s.draws := rfl

/-! ### Frames of the instructions -/

/-- Settles O44: each end state is an update of the elements the statement names. -/
theorem frameOfNonStoringInstructions : Obligations.FrameOfNonStoringInstructions := by
  unfold Obligations.FrameOfNonStoringInstructions
  intro clock spec bit b c frame h w high low i s t hi hexec
  have hans := Answers.of_exec hexec
  simp only [List.mem_cons, List.not_mem_nil, or_false] at hi
  obtain rfl | rfl | rfl | rfl | rfl | rfl | rfl | rfl | rfl | rfl | rfl | rfl | rfl := hi
  case _ => cases hans with | timings => simp | played hi => cases hi
  case _ => cases hans with | bit => simp | played hi => cases hi
  case _ => cases hans with | byte => simp | played hi => cases hi
  case _ => cases hans with | color => simp | played hi => cases hi
  case _ => cases hans with | began => simp | played hi => cases hi
  case _ => cases hans with | submitted => simp | played hi => cases hi
  case _ => cases hans with | polled => simp | played hi => cases hi
  case _ => cases hans with | registered => simp | played hi => cases hi
  case _ => cases hans with | reported => simp | played hi => cases hi
  case _ => cases hans with | resumed => simp | played hi => cases hi
  all_goals
    obtain ⟨x, n, -, rfl⟩ := hans.played_of_symbol rfl
    simp

/-- PUSH and FINISH store one code at CURSOR, or take BufferOverflow. -/
theorem Answers.store_or_overflow {s t : State} {p : PulseCode} {i : Instr} (hi : i ∈ [.push p, .finish]) (h : Answers s i t) :
    (∃ c r, t = setRet r (storeCode c s)) ∨ (s.cfg.capacity ≤ s.cursor ∧ t = takeError (.write .bufferOverflow) s) := by
  cases h with
  | pushed => exact .inl ⟨_, _, rfl⟩
  | finished => exact .inl ⟨_, _, rfl⟩
  | pushFull _ hfull => exact .inr ⟨hfull, rfl⟩
  | finishFull _ hfull => exact .inr ⟨hfull, rfl⟩
  | played hsym =>
    simp only [List.mem_cons, List.not_mem_nil, or_false] at hi
    obtain rfl | rfl := hi <;> cases hsym
  | _ => simp at hi

/-- A pass that fits stores its frame. -/
theorem passDone_buf_of_fits {colors : List Color} {s : State} (hfit : Fits colors s.cfg) :
    ∃ cs, (passDone colors s).buf = Memory.writeAll s.buf 0 cs ∧
      cs.length ≤ min (colors.length * s.cfg.bitsPerColor + 1) s.cfg.capacity := by
  refine ⟨_, rfl, ?_⟩
  have hcap : s.cfg.capacity = s.cfg.dataCapacity + 1 := rfl
  unfold Fits at hfit
  rw [frameOf_length]
  omega

/-- A pass that overflows stores data codes, no more than BUF has entries. -/
theorem passOverflow_buf (colors : List Color) (s : State) :
    ∃ cs, (passOverflow colors s).buf = Memory.writeAll s.buf 0 cs ∧
      cs.length ≤ min (colors.length * s.cfg.bitsPerColor + 1) s.cfg.capacity := by
  refine ⟨_, rfl, ?_⟩
  rw [List.length_take, dataCodes_length]
  omega

theorem read_eq_of_writeAll {m m' : Memory} {cs : List PulseCode} {n k : Nat} (hm : m' = Memory.writeAll m 0 cs) (hcs : cs.length ≤ n)
    (hk : ¬ k < n) : Memory.read m' k = Memory.read m k := by
  rw [hm, Memory.read_writeAll_zero, if_neg (by omega)]

/-- Settles O45: the stores are at CURSOR, or from index 0 on up to the length of what a pass stores. -/
theorem frameOfStoringInstructions : Obligations.FrameOfStoringInstructions := by
  unfold Obligations.FrameOfStoringInstructions
  intro p colors w i s t hexec
  have hans := Answers.of_exec hexec
  constructor
  · intro hi
    obtain ⟨c, r, rfl⟩ | ⟨hfull, rfl⟩ := hans.store_or_overflow hi
    · refine ⟨fun k hk => ?_, by simp⟩
      exact Memory.read_write_other _ _ _ _ hk
    · simp [Nat.not_lt.2 hfull]
  · intro hi
    -- the end state's BUF is that of a pass, whatever follows the pass
    have hstored : ∃ cs, t.buf = Memory.writeAll s.buf 0 cs ∧
        cs.length ≤ min (colors.length * s.cfg.bitsPerColor + 1) s.cfg.capacity := by
      simp only [List.mem_cons, List.not_mem_nil, or_false] at hi
      obtain rfl | rfl | rfl := hi
      · cases hans with
        | passed _ _ hfit => exact passDone_buf_of_fits hfit
        | passFull => exact passOverflow_buf colors s
        | played hsym => cases hsym
      · cases hans with
        | wroteBlocking _ _ hfit => exact passDone_buf_of_fits (s := s) hfit
        | blockingFull => exact passOverflow_buf colors s
        | played hsym => cases hsym
      · cases hans with
        | wroteSuspending _ _ hfit => exact passDone_buf_of_fits (s := s) hfit
        | suspendingFull => exact passOverflow_buf colors s
        | played hsym => cases hsym
    obtain ⟨cs, hbuf, hcs⟩ := hstored
    refine ⟨fun k hk => read_eq_of_writeAll hbuf hcs hk, ?_⟩
    simp only [List.mem_cons, List.not_mem_nil, or_false] at hi
    obtain rfl | rfl | rfl := hi
    · cases hans with | passed => simp | passFull => simp | played hsym => cases hsym
    · cases hans with | wroteBlocking => simp | blockingFull => simp | played hsym => cases hsym
    · cases hans with | wroteSuspending => simp | suspendingFull => simp | played hsym => cases hsym

/-! ### The history -/

/-- An instruction adds at most one entry. -/
theorem Answers.history {s t : State} {i : Instr} (h : Answers s i t) :
    ∃ events, t.history = s.history ++ events ∧ events.length ≤ 1 := by
  have hsame {u : State} (hu : u.history = s.history) : ∃ events, u.history = s.history ++ events ∧ events.length ≤ 1 :=
    ⟨[], by simp [hu]⟩
  cases h with
  | constructed => exact ⟨[_], rfl, Nat.le_refl 1⟩
  | constructFailed => exact ⟨[_], rfl, Nat.le_refl 1⟩
  | pushFull => exact ⟨[_], rfl, Nat.le_refl 1⟩
  | finishFull => exact ⟨[_], rfl, Nat.le_refl 1⟩
  | passFull => exact ⟨[_], rfl, Nat.le_refl 1⟩
  | wroteBlocking => exact ⟨[_], rfl, Nat.le_refl 1⟩
  | blockingFull => exact ⟨[_], rfl, Nat.le_refl 1⟩
  | wroteSuspending => exact ⟨[_], rfl, Nat.le_refl 1⟩
  | suspendingFull => exact ⟨[_], rfl, Nat.le_refl 1⟩
  | submitted => exact ⟨[_], rfl, Nat.le_refl 1⟩
  | reported => exact ⟨[_], rfl, Nat.le_refl 1⟩
  | resumed => exact ⟨[_], rfl, Nat.le_refl 1⟩
  | _ => exact hsame rfl

/-- What the invoker does next adds an entry only when the instruction added none. -/
theorem Answers.history_afterInstr {s u : State} {i : Instr} (h : Answers s i u) :
    ∃ events, (afterInstr i u).history = s.history ++ events ∧ events.length ≤ 1 := by
  obtain he | ⟨c, -, he⟩ | ⟨hd, w, -, he⟩ | ⟨hd, r, rfl, -, -, he⟩ := afterInstr_cases i u <;> rw [he]
  · exact h.history
  · exact h.history
  · exact h.history
  · cases h with
    | polled => exact ⟨[_], rfl, Nat.le_refl 1⟩
    | played hsym => cases hsym

/-- Taking an operation apart writes only WAIT_MODE, the stream and what is left to run. -/
theorem split_none {s t : State} {i : Instr} (h : split i s = .ok (none, t)) :
    ∃ mode stream ps, t = { s with waitMode := mode, stream := stream, pending := ps } := by
  obtain ⟨he, -⟩ | ⟨colors, -, -, -, he, -⟩ | ⟨-, hparts⟩ := split_ok h
  · cases he
  · cases he
  · obtain ⟨channel, pin, spec, leds, order, -, -, -, rfl⟩ | ⟨colors, -, -, -, rfl⟩ | ⟨colors, w, -, -, -, rfl⟩ | ⟨c, -, rfl⟩ |
      ⟨b, -, rfl⟩ := hparts
    · exact ⟨_, _, _, rfl⟩
    · exact ⟨_, _, _, rfl⟩
    · exact ⟨_, _, _, rfl⟩
    · exact ⟨_, _, _, rfl⟩
    · exact ⟨_, _, _, rfl⟩

/-- Everything a step can do to the elements of the spec: an instruction's answer and what its invoker does next; or nothing to them but
WAIT_MODE, the stream and, when an encode pass is taken apart, PHASE and CURSOR. -/
theorem step_cases {s t : State} (h : step s = .next t) :
    (∃ i ps inputs u, Fetched s i ps inputs ∧ Answers { s with inputs := inputs, pending := ps } i u ∧ t = afterInstr i u) ∨
      (∃ mode stream ps inputs, t = { s with waitMode := mode, stream := stream, pending := ps, inputs := inputs }) ∨
      ∃ colors ps inputs, s.phase = .idle ∧
        t = beginBuf { s with phase := .encoding, stream := colors, pending := ps, inputs := inputs } := by
  obtain ⟨-, inputs, rfl⟩ | ⟨i, ps, inputs, u, hf, hu, rfl⟩ | ⟨i, ps, inputs, -, hs⟩ | ⟨colors, ps, inputs, -, hp, -, rfl⟩ := step_next h
  · exact .inr (.inl ⟨_, _, _, inputs, rfl⟩)
  · exact .inl ⟨i, ps, inputs, u, hf, .of_exec hu, rfl⟩
  · obtain ⟨mode, stream, ps', rfl⟩ := split_none hs
    exact .inr (.inl ⟨mode, stream, ps', inputs, rfl⟩)
  · exact .inr (.inr ⟨colors, _, inputs, hp, rfl⟩)

/-- Settles O53. -/
theorem historyOnlyGrows : Obligations.HistoryOnlyGrows := by
  unfold Obligations.HistoryOnlyGrows
  intro s t h
  obtain ⟨i, ps, inputs, u, -, hans, rfl⟩ | ⟨mode, stream, ps, inputs, rfl⟩ | ⟨colors, ps, inputs, -, rfl⟩ := step_cases h
  · exact hans.history_afterInstr
  · exact ⟨[], by simp⟩
  · exact ⟨[], by simp⟩

/-! ### The registers -/

/-- An instruction leaves the registers alone, or is the NEW that constructs the adapter. -/
theorem Answers.registers {s t : State} {i : Instr} (h : Answers s i t) :
    (t.cfg = s.cfg ∧ t.table = s.table ∧ (s.phase ≠ .unconstructed → t.phase ≠ .unconstructed)) ∨
      (s.phase = .unconstructed ∧ afterInstr i t = t ∧ t.history = s.history ++ [.constructed t.cfg t.table] ∧
        computeTimings t.cfg.clockRate t.cfg.spec = some t.table) := by
  cases h with
  | constructed table hp ho ht => exact .inr ⟨hp, rfl, rfl, ht⟩
  | _ => exact .inl (by simp)

theorem afterInstr_registers (i : Instr) (s : State) : (afterInstr i s).cfg = s.cfg ∧ (afterInstr i s).table = s.table ∧
    (s.phase ≠ .unconstructed → (afterInstr i s).phase ≠ .unconstructed) := by
  obtain he | ⟨c, -, he⟩ | ⟨hd, w, -, he⟩ | ⟨hd, r, -, -, -, he⟩ := afterInstr_cases i s <;> rw [he] <;> simp

/-- Settles O52. -/
theorem onlyNewWritesTheRegisters : Obligations.OnlyNewWritesTheRegisters := by
  unfold Obligations.OnlyNewWritesTheRegisters
  intro s t h
  have hsame {u : State} (hcfg : u.cfg = s.cfg) (htable : u.table = s.table) (hu : s.phase ≠ .unconstructed → u.phase ≠ .unconstructed) :
      (s.phase ≠ .unconstructed → u.cfg = s.cfg ∧ u.table = s.table ∧ u.phase ≠ .unconstructed) ∧
      (u.cfg ≠ s.cfg ∨ u.table ≠ s.table →
        u.history = s.history ++ [.constructed u.cfg u.table] ∧ computeTimings u.cfg.clockRate u.cfg.spec = some u.table) :=
    ⟨fun hp => ⟨hcfg, htable, hu hp⟩, fun hne => absurd hne (by simp [hcfg, htable])⟩
  obtain ⟨i, ps, inputs, u, -, hans, rfl⟩ | ⟨mode, stream, ps, inputs, rfl⟩ | ⟨colors, ps, inputs, hp, rfl⟩ := step_cases h
  · obtain ⟨hcfg, htable, hphase⟩ | ⟨hp, hafter, hhist, ht⟩ := hans.registers
    · obtain ⟨hcfg', htable', hphase'⟩ := afterInstr_registers i u
      exact hsame (hcfg'.trans hcfg) (htable'.trans htable) fun hp => hphase' (hphase hp)
    · rw [hafter]
      exact ⟨fun hne => absurd hp hne, fun _ => ⟨hhist, ht⟩⟩
  · exact hsame rfl rfl id
  · exact hsame rfl rfl fun _ => by simp

/-! ### The buffer while Transmitting -/

/-- What stays as it is while the buffer belongs to the peripheral (R38). -/
def Frozen (s t : State) : Prop :=
  t.buf = s.buf ∧ t.cursor = s.cursor ∧ ∀ x y, s.tx = some x → t.tx = some y → y.frame = x.frame ∧ y.handle = x.handle

theorem Frozen.of_tx_none {s t : State} (hbuf : t.buf = s.buf) (hcursor : t.cursor = s.cursor) (htx : t.tx = none) : Frozen s t :=
  ⟨hbuf, hcursor, fun x y _ hy => by simp [htx] at hy⟩

theorem Frozen.of_tx_some {s t : State} {x y : Tx} (hbuf : t.buf = s.buf) (hcursor : t.cursor = s.cursor) (hx : s.tx = some x)
    (hy : t.tx = some y) (hxy : y.frame = x.frame ∧ y.handle = x.handle) : Frozen s t := by
  refine ⟨hbuf, hcursor, fun x' y' hx' hy' => ?_⟩
  obtain rfl : x = x' := by simpa [hx] using hx'
  obtain rfl : y = y' := by simpa [hy] using hy'
  exact hxy

theorem Frozen.of_tx_eq {s t : State} (hbuf : t.buf = s.buf) (hcursor : t.cursor = s.cursor) (htx : t.tx = s.tx) : Frozen s t := by
  refine ⟨hbuf, hcursor, fun x y hx hy => ?_⟩
  obtain rfl : x = y := by simpa [htx, hx] using hy
  exact ⟨rfl, rfl⟩

/-- In Transmitting every operation of the buffer is refused, and the peripheral's interface keeps frame and handle. -/
theorem Answers.frozen {s t : State} {i : Instr} (hp : s.phase = .transmitting) (h : Answers s i t) : Frozen s t := by
  cases h with
  | timings => exact .of_tx_eq rfl rfl rfl
  | bit => exact .of_tx_eq rfl rfl rfl
  | byte => exact .of_tx_eq rfl rfl rfl
  | color => exact .of_tx_eq rfl rfl rfl
  | polled => exact .of_tx_eq rfl rfl rfl
  | registered hx => exact .of_tx_some rfl rfl hx rfl ⟨rfl, rfl⟩
  | reported hx => exact .of_tx_some rfl rfl hx rfl ⟨rfl, rfl⟩
  | resumed => exact .of_tx_none rfl rfl rfl
  | played _ hx => exact .of_tx_some rfl rfl hx rfl ⟨rfl, rfl⟩
  | _ => simp_all

theorem Frozen.afterInstr {s t : State} (i : Instr) (h : Frozen s t) : Frozen s (afterInstr i t) := by
  obtain he | ⟨c, -, he⟩ | ⟨hd, w, -, he⟩ | ⟨hd, r, -, -, -, he⟩ := afterInstr_cases i t <;> rw [he]
  · exact h
  · exact h
  · exact h
  · exact .of_tx_none h.1 h.2.1 rfl

/-- Settles O55. -/
theorem bufIsFrozenWhileTransmitting : Obligations.BufIsFrozenWhileTransmitting := by
  unfold Obligations.BufIsFrozenWhileTransmitting
  intro s t hp h
  obtain ⟨i, ps, inputs, u, -, hans, rfl⟩ | ⟨mode, stream, ps, inputs, rfl⟩ | ⟨colors, ps, inputs, hidle, rfl⟩ := step_cases h
  · exact (Answers.frozen (s := { s with inputs := inputs, pending := ps }) hp hans).afterInstr i
  · exact Frozen.of_tx_eq rfl rfl rfl
  · rw [hp] at hidle
    cases hidle

end Sys2Proof.Machine
end

section
/-! PROOFS. Errors and the history: an error leaves the adapter reusable and reaches the invoker, and no instruction reads the history
(R24, R94, R97). -/

namespace Sys2Proof.Machine

/-! ### Errors -/

/-- What an instruction's end state `t` says of an error: one of a WRITE has ended the attempt, one of construction has changed nothing but
the history, and an entry that reports an error was raised (R94, R97). -/
def ReportsErrors (i : Instr) (s t : State) : Prop :=
  (∀ e, t.ret = .raised (.write e) →
    t.phase = .idle ∧ t.tx = none ∧ t.task = .running ∧ t.result = some (.failed e) ∧
      t.history = s.history ++ [.returned (.failed e)] ∧ (e = .bufferOverflow → t.cursor = 0)) ∧
  (∀ k, t.ret = .raised (.construct k) →
    t = { s with history := t.history, draws := t.draws, ret := t.ret } ∧
    (((∃ channel pin spec leds order, i = .new channel pin spec leds order) ∧ t.history = s.history ++ [.constructFailed k]) ∨
      ((∃ clock spec, i = .computeTimings clock spec) ∧ t.history = s.history))) ∧
  (∀ e, t.history = s.history ++ [.returned (.failed e)] → t.ret = .raised (.write e)) ∧
  ∀ k, t.history = s.history ++ [.constructFailed k] → t.ret = .raised (.construct k)

/-- Nothing was raised, and no entry added reports an error. -/
theorem ReportsErrors.of_quiet {i : Instr} {s t : State} (events : List Event) (hret : ∀ e, t.ret ≠ .raised e)
    (hhist : t.history = s.history ++ events) (hwrite : ∀ e, events ≠ [.returned (.failed e)])
    (hconstruct : ∀ k, events ≠ [.constructFailed k]) : ReportsErrors i s t := by
  refine ⟨fun e he => absurd he (hret _), fun k hk => absurd hk (hret _), fun e he => ?_, fun k hk => ?_⟩
  · exact absurd (List.append_cancel_left (hhist.symm.trans he)) (hwrite e)
  · exact absurd (List.append_cancel_left (hhist.symm.trans hk)) (hconstruct k)

/-- Nothing was raised, and no entry was added. -/
theorem ReportsErrors.of_history_eq {i : Instr} {s t : State} (hret : ∀ e, t.ret ≠ .raised e) (hhist : t.history = s.history) :
    ReportsErrors i s t :=
  .of_quiet [] hret (by simp [hhist]) (by simp) (by simp)

/-- The attempt ended with an error. -/
theorem ReportsErrors.of_failed {i : Instr} {s u : State} (e : WriteError) (hhist : u.history = s.history)
    (hcursor : e = .bufferOverflow → u.cursor = 0) : ReportsErrors i s (endAttempt (.failed e) u) := by
  refine ⟨fun e' he => ?_, fun k hk => ?_, fun e' he => ?_, fun k hk => ?_⟩
  · obtain rfl : e = e' := by simpa [AttemptResult.ret] using he
    exact ⟨rfl, rfl, rfl, rfl, by simp [hhist], hcursor⟩
  · cases hk
  · obtain rfl : e = e' := by simpa [hhist] using he
    rfl
  · simp [hhist] at hk

/-- The wait of an attempt ended with a report. -/
theorem ReportsErrors.of_report {i : Instr} {s u : State} (r : Report) (hhist : u.history = s.history) :
    ReportsErrors i s (endAttempt r.result u) := by
  cases r with
  | complete => exact .of_quiet [.returned .ok] (fun e => nofun) (by simp [hhist, Report.result]) (by simp) (by simp)
  | error e => exact .of_failed _ hhist nofun

theorem Answers.reportsErrors {s u : State} {i : Instr} (h : Answers s i u) : ReportsErrors i s u := by
  cases h with
  | constructed => exact .of_quiet [_] (fun e => nofun) rfl (by simp) (by simp)
  | constructFailed k n =>
    refine ⟨fun e he => ?_, fun k' hk => ⟨rfl, .inl ⟨⟨_, _, _, _, _, rfl⟩, ?_⟩⟩, fun e he => ?_, fun k' hk => ?_⟩
    · cases he
    · cases hk; rfl
    · simp at he
    · obtain rfl : k = k' := by simpa using hk
      rfl
  | @timings clock spec r hn hr =>
    cases ht : computeTimings clock spec with
    | some table =>
      obtain rfl : r = .timings table := by rw [hr, ht]; rfl
      exact .of_history_eq (fun e => nofun) rfl
    | none =>
      obtain rfl : r = .raised (.construct .invalidTiming) := by rw [hr, ht]; rfl
      refine ⟨fun e he => ?_, fun k hk => ⟨rfl, .inr ⟨⟨_, _, rfl⟩, rfl⟩⟩, fun e he => ?_, fun k hk => ?_⟩
      · cases he
      · simp at he
      · simp at hk
  | pushFull => exact .of_failed _ rfl fun _ => rfl
  | finishFull => exact .of_failed _ rfl fun _ => rfl
  | passFull => exact .of_failed _ rfl fun _ => rfl
  | blockingFull => exact .of_failed _ rfl fun _ => rfl
  | suspendingFull => exact .of_failed _ rfl fun _ => rfl
  | wroteBlocking => exact .of_quiet [_] (fun e => nofun) rfl (by simp) (by simp)
  | wroteSuspending => exact .of_quiet [_] (fun e => nofun) rfl (by simp) (by simp)
  | submitted => exact .of_quiet [_] (fun e => nofun) rfl (by simp) (by simp)
  | reported => exact .of_quiet [_] (fun e => nofun) rfl (by simp) (by simp)
  | resumed => exact .of_report _ rfl
  | _ => exact .of_history_eq (fun e => nofun) rfl

/-- Settles O58: an error ends the attempt or was NEW's, and what the invoker does next raises none but the end of a wait. -/
theorem errorsLeaveTheAdapterReusable : Obligations.ErrorsLeaveTheAdapterReusable := by
  unfold Obligations.ErrorsLeaveTheAdapterReusable
  rintro i s u t hexec rfl
  have hans := Answers.of_exec hexec
  obtain he | ⟨c, rfl, he⟩ | ⟨hd, w, rfl, he⟩ | ⟨hd, r, rfl, -, -, he⟩ := afterInstr_cases i u <;> rw [he]
  · exact hans.reportsErrors
  · cases hans with
    | color => exact ReportsErrors.of_history_eq (fun e => nofun) rfl
    | played hsym => cases hsym
  · cases hans with
    | registered => exact ReportsErrors.of_history_eq (fun e => nofun) rfl
    | played hsym => cases hsym
  · cases hans with
    | polled => exact ReportsErrors.of_report r rfl
    | played hsym => cases hsym

/-! ### The history is never read -/

/-- In `s` an instruction answers the same with the history `h`, and adds the same entries to it. -/
def SameWithHistory (i : Instr) (h : List Event) (s : State) : Prop :=
  exec i { s with history := h } = match exec i s with
    | .next t => .next { t with history := h ++ t.history.drop s.history.length }
    | .fault f => .fault f
    | .refused r => .refused r

namespace SameWithHistory

variable {i : Instr} {h : List Event} {s : State}

theorem of_refused {r : Refusal} (hs : exec i s = .refused r) (hh : exec i { s with history := h } = .refused r) :
    SameWithHistory i h s := by
  simp only [SameWithHistory, hs, hh]

theorem of_fault {f : Fault} (hs : exec i s = .fault f) (hh : exec i { s with history := h } = .fault f) :
    SameWithHistory i h s := by
  simp only [SameWithHistory, hs, hh]

/-- The end state adds `events`. -/
theorem of_next {t t' : State} (events : List Event) (hs : exec i s = .next t) (hh : exec i { s with history := h } = .next t')
    (ht : t.history = s.history ++ events) (ht' : t' = { t with history := h ++ events }) : SameWithHistory i h s := by
  simp only [SameWithHistory, hs, hh, ht', ht, List.drop_left]

/-- The end state keeps the history. -/
theorem of_next_same {t t' : State} (hs : exec i s = .next t) (hh : exec i { s with history := h } = .next t')
    (ht : t.history = s.history) (ht' : t' = { t with history := h }) : SameWithHistory i h s := by
  simp only [SameWithHistory, hs, hh, ht', ht, List.drop_length, List.append_nil]

end SameWithHistory

section
variable (h : List Event) (s : State)

/-- The four ends of NEW. -/
theorem newAdapter_sameWithHistory {i : Instr} {cfg : Cfg} (hs : exec i s = .next (newAdapter Config.bufferLimit cfg s))
    (hh : exec i { s with history := h } = .next (newAdapter Config.bufferLimit cfg { s with history := h })) :
    SameWithHistory i h s := by
  cases ha : allocFails Config.bufferLimit cfg.capacity <;> cases ht : computeTimings cfg.clockRate cfg.spec
  · rw [newAdapter_invalidTiming _ ha ht] at hs hh
    exact .of_next [_] hs hh rfl rfl
  · rw [newAdapter_constructs _ ha ht] at hs hh
    exact .of_next [_] hs hh rfl rfl
  · rw [newAdapter_chosenError _ ha ht] at hs hh
    exact .of_next [_] hs hh rfl rfl
  · rw [newAdapter_allocationFailed _ ha ht] at hs hh
    exact .of_next [_] hs hh rfl rfl

theorem new_sameWithHistory (channel : Channel) (pin : Pin) (spec : ProtocolSpec) (leds : Nat) (order : List Nat) :
    SameWithHistory (.new channel pin spec leds order) h s := by
  cases hr : newRefusal order s with
  | some r => exact .of_refused (exec_new_of_refusal hr) (exec_new_of_refusal (s := { s with history := h }) hr)
  | none =>
    obtain ⟨hp, ho⟩ := newRefusal_none.1 hr
    exact newAdapter_sameWithHistory h s (exec_new hp ho) (exec_new (s := { s with history := h }) hp ho)

theorem computeTimings_sameWithHistory (clock : Nat) (spec : ProtocolSpec) : SameWithHistory (.computeTimings clock spec) h s := by
  cases hn : s.newInProgress
  · exact .of_refused (exec_computeTimings_refused clock spec hn)
      (exec_computeTimings_refused clock spec (s := { s with history := h }) hn)
  · obtain ⟨r, hr⟩ : ∃ r, r = timingsRet (computeTimings clock spec) := ⟨_, rfl⟩
    exact .of_next_same (exec_computeTimings hn hr) (exec_computeTimings (s := { s with history := h }) hn hr) rfl rfl

theorem encodeBit_sameWithHistory (b : Bool) : SameWithHistory (.encodeBit b) h s := by
  by_cases hp : s.phase = .unconstructed
  · exact .of_refused (if_pos hp) (if_pos hp)
  · exact .of_next_same (exec_encodeBit b hp) (exec_encodeBit b (s := { s with history := h }) hp) rfl rfl

theorem encodeByte_sameWithHistory (b : Byte) : SameWithHistory (.encodeByte b) h s := by
  by_cases hp : s.phase = .unconstructed
  · exact .of_refused (if_pos hp) (if_pos hp)
  · exact .of_next_same (exec_encodeByte b hp) (exec_encodeByte b (s := { s with history := h }) hp) rfl rfl

theorem encodeColor_sameWithHistory (c : Color) : SameWithHistory (.encodeColor c) h s := by
  by_cases hp : s.phase = .unconstructed
  · exact .of_refused (if_pos hp) (if_pos hp)
  · by_cases hc : s.cfg.fits c = true
    · exact .of_next_same (exec_encodeColor hp hc) (exec_encodeColor (s := { s with history := h }) hp hc) rfl rfl
    · have hlen : c.length ≠ s.cfg.channelOrder.length := mt fits_eq_true_iff.2 hc
      exact .of_refused (exec_encodeColor_colorWidth hp hlen) (exec_encodeColor_colorWidth (s := { s with history := h }) hp hlen)

theorem begin_sameWithHistory : SameWithHistory .beginBuf h s := by
  by_cases hp : s.phase = .encoding
  · exact .of_next_same (exec_beginBuf hp) (exec_beginBuf (s := { s with history := h }) hp) rfl rfl
  · exact .of_refused (if_pos hp) (if_pos hp)

theorem push_sameWithHistory (p : PulseCode) : SameWithHistory (.push p) h s := by
  by_cases hp : s.phase = .encoding
  · by_cases hroom : s.cursor < s.cfg.capacity
    · exact .of_next_same (exec_push_of_room hp hroom) (exec_push_of_room (s := { s with history := h }) hp hroom) rfl rfl
    · have hfull := Nat.le_of_not_lt hroom
      exact .of_next [_] (exec_push_full hp hfull) (exec_push_full (s := { s with history := h }) hp hfull) rfl rfl
  · exact .of_refused (if_pos hp) (if_pos hp)

theorem finish_sameWithHistory : SameWithHistory .finish h s := by
  by_cases hp : s.phase = .encoding
  · by_cases hroom : s.cursor < s.cfg.capacity
    · cases hf : s.filled with
      | none => exact .of_fault (exec_finish_unwritten hp hroom hf) (exec_finish_unwritten (s := { s with history := h }) hp hroom hf)
      | some pre =>
        exact .of_next_same (exec_finish_of_room hp hroom hf) (exec_finish_of_room (s := { s with history := h }) hp hroom hf) rfl rfl
    · have hfull := Nat.le_of_not_lt hroom
      exact .of_next [_] (exec_finish_full hp hfull) (exec_finish_full (s := { s with history := h }) hp hfull) rfl rfl
  · exact .of_refused (if_pos hp) (if_pos hp)

/-- The three operations that start an attempt. -/
theorem attempt_sameWithHistory (colors : List Color) (w : Waker) {i : Instr}
    (hi : i = .encodePass colors ∨ i = .writeBlocking colors ∨ i = .writeSuspending colors w) : SameWithHistory i h s := by
  cases hr : startRefusal colors s with
  | some r => exact .of_refused (exec_attempt_refused hr hi) (exec_attempt_refused (s := { s with history := h }) hr hi)
  | none =>
    obtain ⟨hp, hc⟩ := startRefusal_none.1 hr
    by_cases hfit : Fits colors s.cfg
    · obtain rfl | rfl | rfl := hi
      · exact .of_next_same (exec_encodePass_fit hp hc hfit) (exec_encodePass_fit (s := { s with history := h }) hp hc hfit) rfl rfl
      · exact .of_next [_] (exec_writeBlocking_fit hp hc hfit)
          (exec_writeBlocking_fit (s := { s with history := h }) hp hc hfit) rfl rfl
      · exact .of_next [_] (exec_writeSuspending_fit hp hc w hfit)
          (exec_writeSuspending_fit (s := { s with history := h }) hp hc w hfit) rfl rfl
    · obtain rfl | rfl | rfl := hi
      · exact .of_next [_] (exec_encodePass_overflow hp hc hfit)
          (exec_encodePass_overflow (s := { s with history := h }) hp hc hfit) rfl rfl
      · exact .of_next [_] (exec_writeBlocking_overflow hp hc hfit)
          (exec_writeBlocking_overflow (s := { s with history := h }) hp hc hfit) rfl rfl
      · exact .of_next [_] (exec_writeSuspending_overflow hp hc w hfit)
          (exec_writeSuspending_overflow (s := { s with history := h }) hp hc w hfit) rfl rfl

theorem submit_sameWithHistory (frame : List PulseCode) : SameWithHistory (.submit frame) h s := by
  by_cases hp : s.phase = .encoding
  · by_cases hl : frame.all PulseCode.legal = true
    · by_cases hr : s.ret = .frame frame
      · exact .of_next [_] (exec_submit hp hl hr) (exec_submit (s := { s with history := h }) hp hl hr) rfl rfl
      · simp [SameWithHistory, exec, execSubmit, hp, hl, hr]
    · simp [SameWithHistory, exec, execSubmit, hp, hl]
  · exact .of_refused (if_pos hp) (if_pos hp)

/-- The peripheral's interface and RESUME. -/
theorem peripheral_sameWithHistory (hd : Handle) (w : Waker) {i : Instr}
    (hi : i ∈ [.pollComplete hd, .onComplete hd w, .periphDone, .resume]) : SameWithHistory i h s := by
  cases hx : s.tx with
  | none =>
    exact .of_refused (exec_peripheral_noTransmission hi hx) (exec_peripheral_noTransmission (s := { s with history := h }) hi hx)
  | some x =>
    simp only [List.mem_cons, List.not_mem_nil, or_false] at hi
    obtain rfl | rfl | rfl | rfl := hi
    · by_cases hh : x.handle = hd
      · exact .of_next_same (exec_pollComplete hx hh) (exec_pollComplete (s := { s with history := h }) hx hh) rfl rfl
      · exact .of_refused (exec_pollComplete_stale hx hh) (exec_pollComplete_stale (s := { s with history := h }) hx hh)
    · by_cases hh : x.handle = hd
      · exact .of_next_same (exec_onComplete hx w hh) (exec_onComplete (s := { s with history := h }) hx w hh) rfl rfl
      · exact .of_refused (exec_onComplete_stale hx w hh) (exec_onComplete_stale (s := { s with history := h }) hx w hh)
    · cases hst : x.status with
      | pending => exact .of_next [_] (exec_periphDone hx hst) (exec_periphDone (s := { s with history := h }) hx hst) rfl rfl
      | reported r =>
        exact .of_refused (exec_periphDone_reported hx hst) (exec_periphDone_reported (s := { s with history := h }) hx hst)
    · by_cases hready : x.status = .pending ∨ x.wakerBit = false ∨ s.task = .running
      · exact .of_refused (exec_resume_refused hx hready) (exec_resume_refused (s := { s with history := h }) hx hready)
      · simp only [not_or, Bool.not_eq_false] at hready
        obtain ⟨hst, hw, ht⟩ := hready
        have ht' : s.task = .suspended := by cases h : s.task <;> simp_all
        cases hst' : x.status with
        | pending => exact absurd hst' hst
        | reported r =>
          exact .of_next [_] (exec_resume hx hst' hw ht') (exec_resume (s := { s with history := h }) hx hst' hw ht') rfl rfl

theorem symbol_sameWithHistory {i : Instr} {p : PulseCode} (hi : symbolPulse i = some p) : SameWithHistory i h s := by
  have hplay (s : State) := exec_symbol s hi
  by_cases hwf : i.wellFormed = true
  · simp only [playSymbol_of_wellFormed hwf] at hplay
    cases hx : s.tx with
    | none => exact .of_refused ((hplay s).trans (playPulse_noTransmission p hx)) ((hplay _).trans (playPulse_noTransmission p hx))
    | some x =>
      simp only [SameWithHistory, hplay, playPulse, hx]
      by_cases hst : x.status ≠ .pending
      · simp only [if_pos hst]
      · by_cases hp : x.frame[x.sent]? ≠ some p
        · simp only [if_neg hst, if_pos hp]
        · simp only [if_neg hst, if_neg hp, List.drop_length, List.append_nil]
  · exact .of_refused ((hplay s).trans (if_pos (by simpa using hwf))) ((hplay _).trans (if_pos (by simpa using hwf)))

end

/-- Settles O54: every guard and every result is a function of the other elements. -/
theorem historyIsNeverRead : Obligations.HistoryIsNeverRead := by
  unfold Obligations.HistoryIsNeverRead
  intro i h s
  cases i with
  | new channel pin spec leds order => exact new_sameWithHistory h s channel pin spec leds order
  | computeTimings clock spec => exact computeTimings_sameWithHistory h s clock spec
  | encodeBit b => exact encodeBit_sameWithHistory h s b
  | encodeByte b => exact encodeByte_sameWithHistory h s b
  | encodeColor c => exact encodeColor_sameWithHistory h s c
  | beginBuf => exact begin_sameWithHistory h s
  | push p => exact push_sameWithHistory h s p
  | finish => exact finish_sameWithHistory h s
  | encodePass colors => exact attempt_sameWithHistory h s colors ⟨0⟩ (.inl rfl)
  | writeBlocking colors => exact attempt_sameWithHistory h s colors ⟨0⟩ (.inr (.inl rfl))
  | writeSuspending colors w => exact attempt_sameWithHistory h s colors w (.inr (.inr rfl))
  | submit frame => exact submit_sameWithHistory h s frame
  | pollComplete hd => exact peripheral_sameWithHistory h s hd ⟨0⟩ (by simp)
  | onComplete hd w => exact peripheral_sameWithHistory h s hd w (by simp)
  | periphDone => exact peripheral_sameWithHistory h s ⟨0⟩ ⟨0⟩ (by simp)
  | resume => exact peripheral_sameWithHistory h s ⟨0⟩ ⟨0⟩ (by simp)
  | code0 high low => exact symbol_sameWithHistory h s rfl
  | code1 high low => exact symbol_sameWithHistory h s rfl
  | resetCode ticks => exact symbol_sameWithHistory h s rfl

end Sys2Proof.Machine
end

section
/-! PROOFS. The invariant without what is left to run: each update of the state keeps it (R14, R15, R16, R22, R23, R34, R38, R54). -/

namespace Sys2Proof.Machine

/-- The invariant but for `PendingInv`. -/
structure CoreInv (s : State) : Prop where
  buf : BufInv s
  cursor : CursorInv s
  tx : TxInv s
  task : TaskInv s
  table : TableInv s

theorem inv_iff {s : State} : Inv s ↔ CoreInv s ∧ PendingInv s :=
  ⟨fun ⟨hbuf, hcursor, htx, htask, htable, hpending⟩ => ⟨⟨hbuf, hcursor, htx, htask, htable⟩, hpending⟩,
    fun ⟨⟨hbuf, hcursor, htx, htask, htable⟩, hpending⟩ => ⟨hbuf, hcursor, htx, htask, htable, hpending⟩⟩

section
variable {s : State} (h : CoreInv s)
include h

theorem CoreInv.tx_none (hp : s.phase ≠ .transmitting) : s.tx = none := by
  have hiff := h.tx.1
  cases hx : s.tx with
  | none => rfl
  | some x => exact absurd (hiff.1 (by simp [hx])) hp

theorem CoreInv.transmitting {x : Tx} (hx : s.tx = some x) : s.phase = .transmitting := h.tx.1.1 (by simp [hx])

/-- A suspended task waits for a transmission. -/
theorem CoreInv.task_running (hp : s.phase ≠ .transmitting) : s.task = .running := by
  cases ht : s.task with
  | running => rfl
  | suspended =>
    obtain ⟨-, x, hx, -⟩ := h.task ht
    exact absurd (h.transmitting hx) hp

theorem CoreInv.filled : ∃ pre, s.filled = some pre := Option.isSome_iff_exists.1 h.cursor.2

end

/-! ### Parts of the invariant -/

theorem TxInv.of_none {s : State} (hx : s.tx = none) (hp : s.phase ≠ .transmitting) : TxInv s :=
  ⟨by simp [hx, hp], fun x hx' => by simp [hx] at hx'⟩

theorem TaskInv.of_running {s : State} (ht : s.task = .running) : TaskInv s := fun h => by simp [ht] at h

theorem TableInv.of_phase {s : State} (h : TableInv s) (hp : s.phase ≠ .unconstructed) (phase : Phase) :
    TableInv { s with phase := phase } := ⟨h.1, fun _ => h.2 hp⟩

/-- Symbols stored below CAPACITY. -/
theorem BufInv.writeAll {s : State} (h : BufInv s) {i : Nat} {cs : List PulseCode} (hcs : cs.all s.table.isSymbol = true)
    (hlen : i + cs.length ≤ s.cfg.capacity) : BufInv { s with buf := Memory.writeAll s.buf i cs } := by
  refine ⟨Memory.writeAll_wf _ _ _ h.1, fun k p hk => ?_⟩
  simp only [Memory.read_writeAll] at hk
  split at hk
  · rename_i hik
    exact ⟨hik.2.trans_le hlen, List.all_eq_true.1 hcs p (List.mem_of_getElem? hk)⟩
  · exact h.2 k p hk

theorem isSymbol_of_isData {t : TimingTable} {codes : List PulseCode} (h : codes.all t.isData = true) :
    codes.all t.isSymbol = true := by
  refine List.all_eq_true.2 fun p hp => ?_
  simp [TimingTable.isSymbol, List.all_eq_true.1 h p hp]

theorem isSymbol_frame {t : TimingTable} {codes : List PulseCode} (h : codes.all t.isData = true) :
    (codes ++ [t.resetCode]).all t.isSymbol = true := by
  rw [List.all_append, isSymbol_of_isData h]
  simp [TimingTable.isSymbol]

/-! ### Each update keeps it -/

section
variable {s : State} (h : CoreInv s)
include h

/-- Elements that the invariant does not read. -/
theorem CoreInv.of_unread (history : List Event) (stream : List Color) (wire : List Segment) (line : Level) (pending : List Instr)
    (inputs : List Input) (ret : Ret) (draws : Nat) :
    CoreInv { s with
      history := history, stream := stream, wire := wire, line := line, pending := pending, inputs := inputs, ret := ret
      draws := draws } :=
  ⟨h.buf, h.cursor, h.tx, h.task, h.table⟩

/-- The strategy of the next attempt is written before it is in flight. -/
theorem CoreInv.setWaitMode (hp : s.phase ≠ .transmitting) (mode : WaitMode) : CoreInv { s with waitMode := mode } :=
  ⟨h.buf, h.cursor, h.tx, .of_running (h.task_running hp), h.table⟩

theorem CoreInv.endAttempt (hp : s.phase ≠ .unconstructed) (r : AttemptResult) : CoreInv (endAttempt r s) :=
  ⟨h.buf, h.cursor, .of_none rfl nofun, .of_running rfl, h.table.of_phase hp .idle⟩

/-- An attempt that ends in an overflow, with whatever symbols it has stored. -/
theorem CoreInv.endAttempt_overflow (hp : s.phase ≠ .unconstructed) (r : AttemptResult) {cs : List PulseCode}
    (hcs : cs.all s.table.isSymbol = true) (hlen : cs.length ≤ s.cfg.capacity) :
    CoreInv (Machine.endAttempt r { s with buf := Memory.writeAll s.buf 0 cs, cursor := 0 }) :=
  ⟨h.buf.writeAll hcs (by omega), ⟨Nat.zero_le _, rfl⟩, .of_none rfl nofun, .of_running rfl, h.table.of_phase hp .idle⟩

theorem CoreInv.takeOverflow (hp : s.phase ≠ .unconstructed) : CoreInv (takeError (.write .bufferOverflow) s) :=
  h.endAttempt_overflow hp _ (cs := []) rfl (Nat.zero_le _)

theorem CoreInv.passOverflow (hp : s.phase ≠ .unconstructed) (colors : List Color) : CoreInv (passOverflow colors s) := by
  have hdata : ((dataCodes s.cfg s.table colors).take s.cfg.capacity).all s.table.isSymbol = true :=
    List.all_eq_true.2 fun p hp => List.all_eq_true.1 (isSymbol_of_isData (dataCodes_isData _ _ _)) p (List.mem_of_mem_take hp)
  have hend := h.endAttempt_overflow hp (.failed .bufferOverflow) hdata (List.length_take_le _ _)
  exact ⟨hend.buf, hend.cursor, hend.tx, hend.task, hend.table⟩

theorem CoreInv.storeCode (hp : s.phase = .encoding) (hroom : s.cursor < s.cfg.capacity) {c : PulseCode}
    (hc : s.table.isSymbol c = true) : CoreInv (storeCode c s) := by
  have hp' : s.phase ≠ .transmitting := by simp [hp]
  obtain ⟨pre, hpre⟩ := h.filled
  exact ⟨h.buf.writeAll (cs := [c]) (by simp [hc]) hroom, ⟨hroom, by rw [storeCode_filled c hpre]; rfl⟩,
    .of_none (h.tx_none hp') hp', .of_running (h.task_running hp'), h.table⟩

/-- An encode pass enters Encoding with nothing filled (R16). -/
theorem CoreInv.beginPass (hp : s.phase = .idle) : CoreInv (beginBuf { s with phase := .encoding }) := by
  have hp' : s.phase ≠ .transmitting := by simp [hp]
  exact ⟨h.buf, ⟨Nat.zero_le _, rfl⟩, .of_none (h.tx_none hp') nofun, .of_running (h.task_running hp'),
    h.table.of_phase (by simp [hp]) .encoding⟩

theorem CoreInv.passDone (hp : s.phase = .idle) {colors : List Color} (hfit : Fits colors s.cfg) : CoreInv (passDone colors s) := by
  have hp' : s.phase ≠ .transmitting := by simp [hp]
  have hcap : s.cfg.capacity = s.cfg.dataCapacity + 1 := rfl
  have hlen : (frameOf s.cfg s.table colors).length ≤ s.cfg.capacity := by
    unfold Fits at hfit
    rw [frameOf_length]
    omega
  exact ⟨h.buf.writeAll (isSymbol_frame (dataCodes_isData _ _ _)) (by omega),
    ⟨hlen, by rw [passDone_filled]; rfl⟩, .of_none (h.tx_none hp') nofun, .of_running (h.task_running hp'),
    h.table.of_phase (by simp [hp]) .encoding⟩

theorem CoreInv.submitFrame (hp : s.phase = .encoding) {frame : List PulseCode} (hfilled : s.filled = some frame)
    (hframe : IsFrame s.table frame) : CoreInv (submitFrame frame s) := by
  refine ⟨h.buf, h.cursor, ⟨by simp, fun x hx => ?_⟩, .of_running (h.task_running (by simp [hp])),
    h.table.of_phase (by simp [hp]) .transmitting⟩
  obtain rfl : newTx s.nextHandle frame = x := Option.some.inj hx
  exact ⟨hfilled, hframe, Nat.zero_le _, List.mem_cons_self⟩

/-- What is in flight changes, but for frame and handle. -/
theorem CoreInv.setTx {x y : Tx} (hx : s.tx = some x) (hframe : y.frame = x.frame) (hhandle : y.handle = x.handle)
    (hsent : y.sent ≤ x.frame.length) (hwaker : x.wakerBit = true → y.wakerBit = true) : CoreInv { s with tx := some y } := by
  refine ⟨h.buf, h.cursor, ⟨by simp [h.transmitting hx], fun z hz => ?_⟩, fun ht => ?_, h.table⟩
  · obtain rfl : y = z := Option.some.inj hz
    obtain ⟨hfilled, hisframe, -, hmem⟩ := h.tx.2 x hx
    rw [hframe, hhandle]
    exact ⟨hfilled, hisframe, hsent, hmem⟩
  · obtain ⟨hmode, z, hz, hbit⟩ := h.task ht
    obtain rfl : x = z := Option.some.inj (hx.symm.trans hz)
    exact ⟨hmode, y, rfl, hwaker hbit⟩

theorem CoreInv.sent_le {x : Tx} (hx : s.tx = some x) : x.sent ≤ x.frame.length := (h.tx.2 x hx).2.2.1

/-- The registration, and the suspension that follows it (R83). -/
theorem CoreInv.suspend_registerWaker {x : Tx} (hx : s.tx = some x) (hmode : s.waitMode = .suspending) (w : Waker) :
    CoreInv (suspend (registerWaker x w s)) := by
  have hsent := h.sent_le hx
  have hreg := h.setTx (y := { x with waker := some w }) hx rfl rfl hsent fun _ => rfl
  exact ⟨hreg.buf, hreg.cursor, hreg.tx, fun _ => ⟨hmode, _, rfl, rfl⟩, hreg.table⟩

theorem CoreInv.reportDone {x : Tx} (hx : s.tx = some x) (r : Report) : CoreInv (reportDone r x s) := by
  have hle := h.sent_le hx
  have hsent : (reportedTx r x).sent ≤ x.frame.length := by
    cases r with
    | complete => exact Nat.le_refl _
    | error => exact hle
  have hrep := h.setTx (y := reportedTx r x) hx rfl rfl hsent id
  exact ⟨hrep.buf, hrep.cursor, hrep.tx, hrep.task, hrep.table⟩

end

/-- Legal tick counts are legal pulse codes, so what COMPUTE_TIMINGS returns is a legal table (R60). -/
theorem legal_of_computeTimings {clock : Nat} {spec : ProtocolSpec} {t : TimingTable} (h : computeTimings clock spec = some t) :
    t.legal = true := by
  obtain ⟨hticks, rfl⟩ := computeTimings_eq_some_iff.1 h
  simp only [List.forall_mem_cons] at hticks
  obtain ⟨h0h, h0l, h1h, h1l, hreset, -⟩ := hticks
  have hle {n : Nat} (h : ticksLegal n = true) : decide (n ≤ Config.tickMax) = true := (Bool.and_eq_true_iff.1 h).2
  simp only [TimingTable.legal, PulseCode.legal, hle h0h, hle h0l, hle h1h, hle h1l, hle hreset, Bool.and_true]
  rfl

/-- The adapter NEW constructs. -/
theorem coreInv_construct {cfg : Cfg} {table : TimingTable} (s : State) (ho : orderLegal cfg.channelOrder = true)
    (ht : computeTimings cfg.clockRate cfg.spec = some table) : CoreInv (construct cfg table s) :=
  ⟨⟨rfl, fun i p hr => by cases hr⟩, ⟨Nat.zero_le _, rfl⟩, .of_none rfl nofun, .of_running rfl,
    ⟨legal_of_computeTimings ht, fun _ => ⟨ht, ho⟩⟩⟩

end Sys2Proof.Machine
end

section
/-! PROOFS. The transitions of the machine under its invariant: which part of a call is next, and every state a step can lead to
(R10, R52, R53, R74, R83). -/

namespace Sys2Proof.Machine

/-! ### Which part of a call is next -/

/-- A pass whose BEGIN has run: `codes` are in BUF, `steps` are left to run before FINISH, and then SUBMIT of the frame and `wait`. -/
structure InPass (s : State) (codes : List PulseCode) (steps wait : List Instr) : Prop where
  codes_data : codes.all s.table.isData = true
  steps_pass : steps.all (passStep s.cfg s.table) = true
  wait_parts : WaitParts s wait
  filled : s.filled = some codes
  pending : s.pending = steps ++ .finish :: .submit (codes ++ steps.filterMap pushedCode ++ [s.table.resetCode]) :: wait

/-- A pass whose FINISH has run: the frame it returned is to be submitted. -/
structure AtSubmit (s : State) (codes : List PulseCode) (wait : List Instr) : Prop where
  codes_data : codes.all s.table.isData = true
  wait_parts : WaitParts s wait
  filled : s.filled = some (codes ++ [s.table.resetCode])
  ret : s.ret = .frame (codes ++ [s.table.resetCode])
  pending : s.pending = .submit (codes ++ [s.table.resetCode]) :: wait

theorem encodingPending_iff {s : State} : EncodingPending s ↔
    (∃ codes steps wait, InPass s codes steps wait) ∨ ∃ codes wait, AtSubmit s codes wait := by
  constructor
  · rintro ⟨codes, steps, wait, hcodes, hsteps, hwait, ⟨hfilled, hpending⟩ | ⟨rfl, hfilled, hret, hpending⟩⟩
    · exact .inl ⟨codes, steps, wait, hcodes, hsteps, hwait, hfilled, hpending⟩
    · exact .inr ⟨codes, wait, hcodes, hwait, hfilled, hret, by simpa using hpending⟩
  · rintro (⟨codes, steps, wait, hcodes, hsteps, hwait, hfilled, hpending⟩ | ⟨codes, wait, hcodes, hwait, hfilled, hret, hpending⟩)
    · exact ⟨codes, steps, wait, hcodes, hsteps, hwait, .inl ⟨hfilled, hpending⟩⟩
    · exact ⟨codes, [], wait, hcodes, rfl, hwait, .inr ⟨rfl, hfilled, hret, by simpa using hpending⟩⟩

section
variable {s : State}

theorem pendingInv_unconstructed (hp : s.phase = .unconstructed) : PendingInv s ↔ NewPending s := by
  unfold PendingInv
  rw [hp]

theorem pendingInv_idle (hp : s.phase = .idle) : PendingInv s ↔ IdlePending s := by
  unfold PendingInv
  rw [hp]

theorem pendingInv_encoding (hp : s.phase = .encoding) : PendingInv s ↔ EncodingPending s := by
  unfold PendingInv
  rw [hp]

theorem pendingInv_transmitting (hp : s.phase = .transmitting) : PendingInv s ↔ TransmittingPending s := by
  unfold PendingInv
  rw [hp]

end

/-- The next part of the call in progress, and the parts after it: what `PendingInv` allows, phase by phase. -/
inductive Part (s : State) : Instr → List Instr → Prop where
  | new {channel pin spec leds order} (hp : s.phase = .unconstructed) (ho : orderLegal order = true) :
      Part s (.new channel pin spec leds order) []
  | timings {channel pin spec leds order} (hp : s.phase = .unconstructed) (ho : orderLegal order = true) :
      Part s (.computeTimings channel.clockRate spec) [.new channel pin spec leds order]
  | pass {colors wait} (hp : s.phase = .idle) (hc : colors.all s.cfg.fits = true) (hw : WaitParts s wait) :
      Part s (.encodePass colors) (.submit (frameOf s.cfg s.table colors) :: wait)
  | step {codes i steps wait} (hp : s.phase = .encoding) (hpass : InPass s codes (i :: steps) wait) :
      Part s i (steps ++ .finish :: .submit (codes ++ (i :: steps).filterMap pushedCode ++ [s.table.resetCode]) :: wait)
  | finish {codes wait} (hp : s.phase = .encoding) (hpass : InPass s codes [] wait) :
      Part s .finish (.submit (codes ++ [s.table.resetCode]) :: wait)
  | submit {codes wait} (hp : s.phase = .encoding) (hat : AtSubmit s codes wait) :
      Part s (.submit (codes ++ [s.table.resetCode])) wait
  | register {x w} (hp : s.phase = .transmitting) (hx : s.tx = some x) (hmode : s.waitMode = .suspending)
      (htask : s.task = .running) : Part s (.onComplete x.handle w) []

theorem Part.of_pending {s : State} (h : PendingInv s) {i : Instr} {ps : List Instr} (hn : s.pending = i :: ps) : Part s i ps := by
  cases hp : s.phase with
  | unconstructed =>
    obtain h | ⟨channel, pin, spec, leds, order, ho, h | h⟩ := (pendingInv_unconstructed hp).1 h
    · simp [h] at hn
    · obtain ⟨rfl, rfl⟩ := List.cons.inj (hn.symm.trans h)
      exact .new hp ho
    · obtain ⟨rfl, rfl⟩ := List.cons.inj (hn.symm.trans h)
      exact .timings hp ho
  | idle =>
    obtain h | ⟨colors, wait, hc, hw, h⟩ := (pendingInv_idle hp).1 h
    · simp [h] at hn
    · obtain ⟨rfl, rfl⟩ := List.cons.inj (hn.symm.trans h)
      exact .pass hp hc hw
  | encoding =>
    obtain ⟨codes, steps, wait, hpass⟩ | ⟨codes, wait, hat⟩ := encodingPending_iff.1 ((pendingInv_encoding hp).1 h)
    · cases steps with
      | nil =>
        obtain ⟨rfl, rfl⟩ := List.cons.inj (hn.symm.trans hpass.pending)
        rw [List.filterMap_nil, List.append_nil]
        exact .finish hp hpass
      | cons j steps =>
        obtain ⟨rfl, rfl⟩ := List.cons.inj (hn.symm.trans hpass.pending)
        exact .step hp hpass
    · obtain ⟨rfl, rfl⟩ := List.cons.inj (hn.symm.trans hat.pending)
      exact .submit hp hat
  | transmitting =>
    obtain ⟨-, -, h⟩ | ⟨-, -, h⟩ | ⟨hmode, htask, x, w, hx, h⟩ := (pendingInv_transmitting hp).1 h
    · simp [h] at hn
    · simp [h] at hn
    · obtain ⟨rfl, rfl⟩ := List.cons.inj (hn.symm.trans h)
      exact .register hp hx hmode htask

/-- The steps of a pass are PUSHes of data symbols and the encoders' operations. -/
theorem passStep_cases {cfg : Cfg} {table : TimingTable} {i : Instr} (h : passStep cfg table i = true) :
    (∃ p, i = .push p ∧ table.isData p = true) ∨ (∃ c, i = .encodeColor c ∧ cfg.fits c = true) ∨ (∃ b, i = .encodeByte b) ∨
      ∃ b, i = .encodeBit b := by
  cases i with
  | push p => exact .inl ⟨p, rfl, h⟩
  | encodeColor c => exact .inr (.inl ⟨c, rfl, h⟩)
  | encodeByte b => exact .inr (.inr (.inl ⟨b, rfl⟩))
  | encodeBit b => exact .inr (.inr (.inr ⟨b, rfl⟩))
  | _ => cases h

theorem InPass.head_step {s : State} {codes : List PulseCode} {i : Instr} {steps wait : List Instr} (h : InPass s codes (i :: steps) wait) :
    passStep s.cfg s.table i = true := (List.all_eq_true.1 h.steps_pass) i List.mem_cons_self

/-! ### Every state a step leads to -/

/-- The transitions under the invariant: the state a step leads to, with what the step had to find. -/
inductive Move (s : State) : State → Prop where
  | stays (inputs) (hn : s.pending = []) : Move s { s with inputs := inputs }
  | constructs {cfg table} (inputs) (hp : s.phase = .unconstructed) (ho : orderLegal cfg.channelOrder = true)
      (ht : computeTimings cfg.clockRate cfg.spec = some table) (hl : allocFails Config.bufferLimit cfg.capacity = false) :
      Move s (construct cfg table { s with inputs := inputs, pending := [] })
  | constructFails (k n inputs) (hp : s.phase = .unconstructed) :
      Move s { s with
        inputs := inputs, pending := [], history := s.history ++ [.constructFailed k], ret := .raised (.construct k)
        draws := s.draws + n }
  | newGoesOn (ret inputs ps) (hp : s.phase = .unconstructed) (hps : NewPending { s with pending := ps }) :
      Move s { s with inputs := inputs, pending := ps, ret := ret }
  | writeByParts {colors wait mode} (inputs) (hp : s.phase = .idle) (hc : colors.all s.cfg.fits = true)
      (hw : WaitParts { s with waitMode := mode } wait) :
      Move s { s with waitMode := mode, inputs := inputs, pending := writeParts colors wait s }
  | passes {colors wait} (inputs) (hp : s.phase = .idle) (hfit : Fits colors s.cfg) (hw : WaitParts s wait) :
      Move s (passDone colors { s with inputs := inputs, pending := .submit (frameOf s.cfg s.table colors) :: wait })
  | passByParts {colors wait} (inputs) (hp : s.phase = .idle) (hc : colors.all s.cfg.fits = true) (hw : WaitParts s wait) :
      Move s (beginBuf { s with
        phase := .encoding, stream := colors, inputs := inputs
        pending := passParts s.cfg s.table colors ++ .submit (frameOf s.cfg s.table colors) :: wait })
  | attemptOverflows (colors mode inputs ps) (hp : s.phase = .idle) :
      Move s (passOverflow colors { s with waitMode := mode, inputs := inputs, pending := ps })
  | writesBlocking {colors} (inputs) (hp : s.phase = .idle) (hfit : Fits colors s.cfg) :
      Move s (submitFrame (frameOf s.cfg s.table colors)
        (passDone colors { s with waitMode := .blocking, inputs := inputs, pending := [] }))
  | writesSuspending {colors} (w inputs) (hp : s.phase = .idle) (hfit : Fits colors s.cfg) :
      Move s (suspend (registerWaker (newTx s.nextHandle (frameOf s.cfg s.table colors)) w
        (submitFrame (frameOf s.cfg s.table colors)
          (passDone colors { s with waitMode := .suspending, inputs := inputs, pending := [] }))))
  | encodes {codes steps wait} (stream ret inputs ps) (hp : s.phase = .encoding) (hold : s.filled = some codes)
      (hpass : InPass { s with pending := ps } codes steps wait) :
      Move s { s with stream := stream, inputs := inputs, pending := ps, ret := ret }
  | pushes {p codes steps wait} (inputs) (hp : s.phase = .encoding) (hroom : s.cursor < s.cfg.capacity)
      (hpass : InPass s codes (.push p :: steps) wait) :
      Move s (setRet .unit (storeCode p { s with
        inputs := inputs
        pending := steps ++ .finish ::
          .submit (codes ++ (.push p :: steps).filterMap pushedCode ++ [s.table.resetCode]) :: wait }))
  | finishes {codes wait} (inputs) (hp : s.phase = .encoding) (hroom : s.cursor < s.cfg.capacity) (hpass : InPass s codes [] wait) :
      Move s (setRet (.frame (codes ++ [s.table.resetCode])) (storeCode s.table.resetCode
        { s with inputs := inputs, pending := .submit (codes ++ [s.table.resetCode]) :: wait }))
  | encodingOverflows (inputs ps) (hp : s.phase = .encoding) :
      Move s (takeError (.write .bufferOverflow) { s with inputs := inputs, pending := ps })
  | submits {codes wait} (inputs) (hp : s.phase = .encoding) (hat : AtSubmit s codes wait) :
      Move s (submitFrame (codes ++ [s.table.resetCode]) { s with inputs := inputs, pending := wait })
  | registers {x} (w inputs) (hp : s.phase = .transmitting) (hx : s.tx = some x) (hmode : s.waitMode = .suspending) :
      Move s (suspend (registerWaker x w { s with inputs := inputs, pending := [] }))
  | polls {x} (inputs) (hp : s.phase = .transmitting) (hx : s.tx = some x) (hn : s.pending = []) :
      Move s (setRet (.status x.status) { s with inputs := inputs })
  | ends {x r} (inputs) (hp : s.phase = .transmitting) (hx : s.tx = some x) (hst : x.status = .reported r) :
      Move s (endAttempt r.result { s with inputs := inputs })
  | reports {x} (r inputs) (hp : s.phase = .transmitting) (hx : s.tx = some x) (hst : x.status = .pending) :
      Move s (reportDone r x { s with inputs := inputs })
  | plays {x} (n wire line inputs) (hp : s.phase = .transmitting) (hx : s.tx = some x) (hst : x.status = .pending)
      (hn : n ≤ x.frame.length) :
      Move s { s with inputs := inputs, wire := wire, line := line, tx := some { x with sent := n }, ret := .unit }

/-! ### An instruction that runs -/

/-- A symbol has no parts. -/
theorem split_symbol {i : Instr} {p : PulseCode} (s : State) (hi : symbolPulse i = some p) : split i s = .ok (some i, s) := by
  cases i <;> cases hi <;> rfl

/-- Nothing follows a symbol. -/
theorem afterInstr_symbol {i : Instr} {p : PulseCode} (s : State) (hi : symbolPulse i = some p) : afterInstr i s = s := by
  cases i <;> cases hi <;> rfl

section
variable {s u : State} {inputs : List Input}

/-- NEW is the last step of its call. -/
theorem Move.of_new {channel : Channel} {pin : Pin} {spec : ProtocolSpec} {leds : Nat} {order : List Nat}
    (hans : Answers { s with inputs := inputs, pending := [] } (.new channel pin spec leds order) u) : Move s u := by
  cases hans with
  | constructed table hp ho ht hl => exact .constructs inputs hp ho ht hl
  | constructFailed k n hp => exact .constructFails k n inputs hp
  | played hi => cases hi

/-- An operation of the caller's interface, called with nothing in progress. -/
theorem Move.of_call {i : Instr} (he : external i = true) (hans : Answers { s with inputs := inputs, pending := [] } i u) :
    Move s (afterInstr i u) := by
  obtain ⟨channel, pin, spec, leds, order, rfl⟩ | ⟨colors, rfl⟩ | ⟨colors, w, rfl⟩ := (external_iff i).1 he
  · exact .of_new hans
  · cases hans with
    | wroteBlocking hp hc hfit => exact .writesBlocking inputs hp hfit
    | blockingFull hp => exact .attemptOverflows colors .blocking inputs [] hp
    | played hi => cases hi
  · cases hans with
    | wroteSuspending hp hc hfit => exact .writesSuspending w inputs hp hfit
    | suspendingFull hp => exact .attemptOverflows colors .suspending inputs [] hp
    | played hi => cases hi

/-- A step of a pass that pushes nothing leaves the rest of the pass to run. -/
theorem InPass.tail {codes : List PulseCode} {i : Instr} {steps wait : List Instr} (h : InPass s codes (i :: steps) wait)
    (hi : pushedCode i = none) : InPass { s with
      pending := steps ++ .finish :: .submit (codes ++ (i :: steps).filterMap pushedCode ++ [s.table.resetCode]) :: wait }
      codes steps wait := by
  refine ⟨h.codes_data, ?_, h.wait_parts, h.filled, ?_⟩
  · exact (Bool.and_eq_true_iff.1 h.steps_pass).2
  · rw [List.filterMap_cons_none hi]

/-- A step of a pass. -/
theorem Move.of_passStep {codes : List PulseCode} {i : Instr} {steps wait : List Instr} (hp : s.phase = .encoding)
    (hpass : InPass s codes (i :: steps) wait)
    (hans : Answers { s with
      inputs := inputs
      pending := steps ++ .finish :: .submit (codes ++ (i :: steps).filterMap pushedCode ++ [s.table.resetCode]) :: wait } i u) :
    Move s (afterInstr i u) := by
  obtain ⟨p, rfl, -⟩ | ⟨c, rfl, -⟩ | ⟨b, rfl⟩ | ⟨b, rfl⟩ := passStep_cases hpass.head_step
  · cases hans with
    | pushed _ hroom => exact .pushes inputs hp hroom hpass
    | pushFull => exact .encodingOverflows inputs _ hp
    | played hi => cases hi
  · cases hans with
    | color => exact .encodes (s.stream.drop 1) _ inputs _ hp hpass.filled (hpass.tail rfl)
    | played hi => cases hi
  · cases hans with
    | byte => exact .encodes s.stream _ inputs _ hp hpass.filled (hpass.tail rfl)
    | played hi => cases hi
  · cases hans with
    | bit => exact .encodes s.stream _ inputs _ hp hpass.filled (hpass.tail rfl)
    | played hi => cases hi

/-- The next part of the call in progress. -/
theorem Move.of_part {i : Instr} {ps : List Instr} (hpart : Part s i ps)
    (hans : Answers { s with inputs := inputs, pending := ps } i u) : Move s (afterInstr i u) := by
  cases hpart with
  | new => exact .of_new hans
  | timings hp ho =>
    cases hans with
    | timings => exact .newGoesOn _ inputs _ hp (.inr ⟨_, _, _, _, _, ho, .inl rfl⟩)
    | played hi => cases hi
  | pass hp hc hw =>
    cases hans with
    | passed _ _ hfit => exact .passes inputs hp hfit hw
    | passFull => exact .attemptOverflows _ s.waitMode inputs _ hp
    | played hi => cases hi
  | step hp hpass => exact .of_passStep hp hpass hans
  | @finish codes wait hp hpass =>
    cases hans with
    | finished _ hroom hf =>
      obtain rfl := Option.some.inj (hf.symm.trans (storeCode_filled (s := { s with inputs := _, pending := _ }) _ hpass.filled))
      exact .finishes inputs hp hroom hpass
    | finishFull => exact .encodingOverflows inputs _ hp
    | played hi => cases hi
  | submit hp hat =>
    cases hans with
    | submitted => exact .submits inputs hp hat
    | played hi => cases hi
  | @register x w hp hx hmode =>
    generalize hh : x.handle = hd at hans
    cases hans with
    | registered hx' =>
      obtain rfl := Option.some.inj (hx.symm.trans hx')
      exact .registers w inputs hp hx hmode
    | played hi => cases hi

/-- The blocked caller's poll, and the end of its wait when it answers a report. -/
theorem Move.of_poll (h : CoreInv s) {x : Tx} (hx : s.tx = some x) (hn : s.pending = [])
    (hans : Answers { s with inputs := inputs, pending := [] } (.pollComplete x.handle) u) :
    Move s (afterInstr (.pollComplete x.handle) u) := by
  have hs : ({ s with inputs := inputs, pending := [] } : State) = { s with inputs := inputs } := by rw [hn]
  obtain rfl : u = setRet (.status x.status) { s with inputs := inputs } := by
    rw [hs] at hans
    generalize hh : x.handle = hd at hans
    cases hans with
    | polled hx' => rw [Option.some.inj (hx.symm.trans hx')]
    | played hi => cases hi
  obtain he | ⟨c, hi, -⟩ | ⟨hd, w, hi, -⟩ | ⟨hd, r, -, hr, -, he⟩ := afterInstr_cases (.pollComplete x.handle) _
  · rw [he]
    exact .polls inputs (h.transmitting hx) hx hn
  · cases hi
  · cases hi
  · rw [he]
    exact .ends inputs (h.transmitting hx) hx (Ret.status.inj hr)

/-- The instruction the fetch has found. -/
theorem Move.of_fetched (h : CoreInv s) (hpending : PendingInv s) {i : Instr} {ps : List Instr} (hf : Fetched s i ps inputs)
    (hans : Answers { s with inputs := inputs, pending := ps } i u) : Move s (afterInstr i u) := by
  cases hf with
  | part _ hn => exact .of_part (.of_pending hpending hn) hans
  | call _ hn he => exact .of_call he hans
  | poll _ hn hx => exact .of_poll h hx hn hans
  | resume _ hn =>
    cases hans with
    | resumed hx hst => exact .ends inputs (h.transmitting hx) hx hst
    | played hi => cases hi
  | report =>
    cases hans with
    | reported hx hst => exact .reports _ inputs (h.transmitting hx) hx hst
    | played hi => cases hi
  | @play _ x p _ _ _ hx _ hd =>
    have hsym := (wellFormed_of_decodeSymbol hd).2
    cases hans with
    | @played _ _ x' hi hx' hst hp =>
      have hlt := (List.getElem?_eq_some_iff.1 hp).1
      rw [afterInstr_symbol _ hi]
      refine .plays _ _ _ inputs (h.transmitting hx') hx' hst ?_
      cases endsOutput _
      · exact hlt
      · exact Nat.le_refl _
    | _ => cases hsym

/-! ### An operation taken apart -/

theorem filterMap_pushedCode_push (codes : List PulseCode) : (codes.map Instr.push).filterMap pushedCode = codes := by
  rw [List.filterMap_map]
  exact List.filterMap_some

/-- The PUSHes of a pass are of its data codes. -/
theorem filterMap_pushedCode_colorParts (cfg : Cfg) (table : TimingTable) (colors : List Color) :
    (colors.flatMap (colorParts cfg table)).filterMap pushedCode = dataCodes cfg table colors := by
  induction colors with
  | nil => rfl
  | cons c cs ih =>
    rw [List.flatMap_cons, List.filterMap_append, ih, dataCodes_cons, colorParts, List.filterMap_cons_none rfl, filterMap_pushedCode_push]

theorem colorParts_passStep {cfg : Cfg} (table : TimingTable) {colors : List Color} (hc : colors.all cfg.fits = true) :
    (colors.flatMap (colorParts cfg table)).all (passStep cfg table) = true := by
  refine List.all_eq_true.2 fun i hi => ?_
  obtain ⟨c, hmem, hi⟩ := List.mem_flatMap.1 hi
  obtain rfl | hi := List.mem_cons.1 hi
  · exact List.all_eq_true.1 hc c hmem
  · obtain ⟨p, hp, rfl⟩ := List.mem_map.1 hi
    exact List.all_eq_true.1 (encodeColor_isData _ _ _) p hp

/-- Steps of a pass replaced by their parts, which push nothing either. -/
theorem InPass.expand {codes : List PulseCode} {i : Instr} {steps wait : List Instr} (h : InPass s codes (i :: steps) wait)
    (hi : pushedCode i = none) {parts : List Instr} (hparts : parts.all (passStep s.cfg s.table) = true)
    (hpushed : parts.filterMap pushedCode = []) : InPass { s with
      pending := parts ++ (steps ++ .finish ::
        .submit (codes ++ (i :: steps).filterMap pushedCode ++ [s.table.resetCode]) :: wait) }
      codes (parts ++ steps) wait := by
  refine ⟨h.codes_data, ?_, h.wait_parts, h.filled, ?_⟩
  · rw [List.all_append, hparts]
    exact (Bool.and_eq_true_iff.1 h.steps_pass).2
  · simp [List.filterMap_cons_none hi, hpushed]

/-- A call of the caller's interface taken apart. -/
theorem Move.of_call_split {i : Instr} {t : State} (he : external i = true)
    (hsplit : split i { s with inputs := inputs, pending := [] } = .ok (none, t)) : Move s t := by
  obtain ⟨he', -⟩ | ⟨colors, rfl, -⟩ | ⟨-, hparts⟩ := split_ok hsplit
  · cases he'
  · cases he
  · obtain ⟨channel, pin, spec, leds, order, rfl, hp, ho, rfl⟩ | ⟨colors, rfl, hp, hc, rfl⟩ | ⟨colors, w, rfl, hp, hc, rfl⟩ |
      ⟨c, rfl, -⟩ | ⟨b, rfl, -⟩ := hparts
    · exact .newGoesOn s.ret inputs _ hp (.inr ⟨_, _, _, _, _, ho, .inr rfl⟩)
    · exact .writeByParts inputs hp hc (.inl ⟨rfl, rfl⟩)
    · exact .writeByParts inputs hp hc (.inr ⟨rfl, w, rfl⟩)
    · cases he
    · cases he

/-- The next part of the call in progress taken apart, but for an encode pass. -/
theorem Move.of_part_split {i : Instr} {ps : List Instr} {t : State} (hpart : Part s i ps)
    (hsplit : split i { s with inputs := inputs, pending := ps } = .ok (none, t)) : Move s t := by
  cases hpart with
  | new => exact .of_call_split rfl hsplit
  | pass hp hc =>
    obtain ⟨he, -⟩ | ⟨_, -, -, -, he, -⟩ | ⟨-, hparts⟩ := split_ok hsplit
    · cases he
    · cases he
    · simp at hparts
  | @step codes _ steps wait hp hpass =>
    obtain ⟨he, -⟩ | ⟨_, -, -, -, he, -⟩ | ⟨-, hparts⟩ := split_ok hsplit
    · cases he
    · cases he
    · have hstep := hpass.head_step
      obtain ⟨_, _, _, _, _, rfl, -⟩ | ⟨_, rfl, -⟩ | ⟨_, _, rfl, -⟩ | ⟨c, rfl, rfl⟩ | ⟨b, rfl, rfl⟩ := hparts
      · cases hstep
      · cases hstep
      · cases hstep
      · refine .encodes (s.stream.drop 1) s.ret inputs _ hp hpass.filled (hpass.expand rfl ?_ ?_)
        · simp [passStep]
        · simp [List.filterMap_map, pushedCode, Function.comp_def]
      · refine .encodes s.stream s.ret inputs _ hp hpass.filled (hpass.expand rfl ?_ ?_)
        · simp [passStep]
        · simp [List.filterMap_map, pushedCode, Function.comp_def]
  | timings => cases hsplit
  | finish => cases hsplit
  | submit => cases hsplit
  | register => cases hsplit

theorem Move.of_fetched_split (hpending : PendingInv s) {i : Instr} {ps : List Instr} {t : State} (hf : Fetched s i ps inputs)
    (hsplit : split i { s with inputs := inputs, pending := ps } = .ok (none, t)) : Move s t := by
  cases hf with
  | part _ hn => exact .of_part_split (.of_pending hpending hn) hsplit
  | call _ hn he => exact .of_call_split he hsplit
  | poll => cases hsplit
  | resume => cases hsplit
  | report => cases hsplit
  | play _ _ _ _ hd =>
    rw [split_symbol _ (wellFormed_of_decodeSymbol hd).2] at hsplit
    cases hsplit

end

/-- Everything a step can lead to from a state with the invariant. -/
theorem Move.of_step {s t : State} (h : Inv s) (hstep : step s = .next t) : Move s t := by
  obtain ⟨hcore, hpending⟩ := inv_iff.1 h
  obtain ⟨hn, inputs, rfl⟩ | ⟨i, ps, inputs, u, hf, hu, rfl⟩ | ⟨i, ps, inputs, hf, hs⟩ | ⟨colors, ps, inputs, hf, hp, hc, rfl⟩ :=
    step_next hstep
  · exact .stays inputs hn
  · exact .of_fetched hcore hpending hf (.of_exec hu)
  · exact .of_fetched_split hpending hf hs
  · cases hf with
    | part _ hn =>
      cases Part.of_pending hpending hn with
      | pass _ _ hw => exact .passByParts inputs hp hc hw
      | step _ hpass => cases hpass.head_step
    | call _ _ he => cases he
    | play _ _ _ _ hd => cases (wellFormed_of_decodeSymbol hd).2

end Sys2Proof.Machine
end

section
/-! PROOFS. The invariant of the machine and what follows from it: the phase diagram, no fault and no refused part, the latched report, the end of an
attempt, and the capacity's bound (R16, R35, R53, R72, R74, R81, R82, R85, R113). -/

namespace Sys2Proof.Machine

/-! ### Every step keeps the invariant -/

/-- A step of a pass that pushes its code: the code moves from what is left to run to BUF. -/
theorem InPass.pushed {s : State} {p : PulseCode} {codes : List PulseCode} {steps wait : List Instr} (inputs : List Input)
    (h : InPass s codes (.push p :: steps) wait) : InPass (setRet .unit (storeCode p { s with
      inputs := inputs
      pending := steps ++ .finish :: .submit (codes ++ (.push p :: steps).filterMap pushedCode ++ [s.table.resetCode]) :: wait }))
      (codes ++ [p]) steps wait := by
  refine ⟨?_, (Bool.and_eq_true_iff.1 h.steps_pass).2, h.wait_parts, storeCode_filled p h.filled, ?_⟩
  · have hp : s.table.isData p = true := h.head_step
    rw [List.all_append]
    simp [h.codes_data, hp]
  · simp [pushedCode]

section
variable {s : State} (h : CoreInv s)
include h

/-- The state before an attempt's operation runs: WAIT_MODE is written, and the operation is taken off. -/
theorem CoreInv.start (hp : s.phase = .idle) (mode : WaitMode) (inputs : List Input) (ps : List Instr) :
    CoreInv { s with waitMode := mode, inputs := inputs, pending := ps } := by
  have hmode := h.setWaitMode (by simp [hp]) mode
  exact hmode.of_unread s.history s.stream s.wire s.line ps inputs s.ret s.draws

/-- The part of a call is taken off. -/
theorem CoreInv.takeOff (inputs : List Input) (ps : List Instr) : CoreInv { s with inputs := inputs, pending := ps } :=
  h.of_unread s.history s.stream s.wire s.line ps inputs s.ret s.draws

end

/-! What is left to run, phase by phase. -/

section
variable {s : State}

theorem PendingInv.of_unconstructed (hp : s.phase = .unconstructed) (h : NewPending s) : PendingInv s :=
  (pendingInv_unconstructed hp).2 h

theorem PendingInv.of_idle (hp : s.phase = .idle) (h : IdlePending s) : PendingInv s := (pendingInv_idle hp).2 h

theorem PendingInv.of_inPass {codes : List PulseCode} {steps wait : List Instr} (hp : s.phase = .encoding)
    (h : InPass s codes steps wait) : PendingInv s :=
  (pendingInv_encoding hp).2 (encodingPending_iff.2 (.inl ⟨codes, steps, wait, h⟩))

theorem PendingInv.of_atSubmit {codes : List PulseCode} {wait : List Instr} (hp : s.phase = .encoding)
    (h : AtSubmit s codes wait) : PendingInv s :=
  (pendingInv_encoding hp).2 (encodingPending_iff.2 (.inr ⟨codes, wait, h⟩))

theorem PendingInv.of_transmitting (hp : s.phase = .transmitting) (h : TransmittingPending s) : PendingInv s :=
  (pendingInv_transmitting hp).2 h

end

theorem passDone_isFrame (cfg : Cfg) (t : TimingTable) (colors : List Color) : IsFrame t (frameOf cfg t colors) :=
  ⟨_, rfl, dataCodes_isData cfg t colors⟩

/-- The elements but for what is left to run. -/
theorem Move.coreInv {s t : State} (h : CoreInv s) (hm : Move s t) : CoreInv t := by
  cases hm with
  | stays inputs => exact h.of_unread _ _ _ _ _ _ _ _
  | constructs inputs _ ho ht => exact coreInv_construct _ ho ht
  | constructFails => exact h.of_unread _ _ _ _ _ _ _ _
  | newGoesOn => exact h.of_unread _ _ _ _ _ _ _ _
  | @writeByParts colors wait mode inputs hp => exact h.start hp mode inputs (writeParts colors wait s)
  | @passes colors wait inputs hp hfit => exact (h.takeOff inputs (.submit (frameOf s.cfg s.table colors) :: wait)).passDone hp hfit
  | passByParts inputs hp =>
    have hbegin := h.beginPass hp
    exact ⟨hbegin.buf, hbegin.cursor, hbegin.tx, hbegin.task, hbegin.table⟩
  | attemptOverflows colors mode inputs ps hp => exact (h.start hp mode inputs ps).passOverflow (by simp [hp]) colors
  | writesBlocking inputs hp hfit =>
    exact ((h.start hp .blocking inputs []).passDone hp hfit).submitFrame rfl (passDone_filled _ _) (passDone_isFrame _ _ _)
  | writesSuspending w inputs hp hfit =>
    exact (((h.start hp .suspending inputs []).passDone hp hfit).submitFrame rfl (passDone_filled _ _) (passDone_isFrame _ _ _)).suspend_registerWaker
      rfl rfl w
  | encodes => exact h.of_unread _ _ _ _ _ _ _ _
  | @pushes p _ _ _ inputs hp hroom hpass =>
    have hdata : s.table.isData p = true := hpass.head_step
    have hsymbol : s.table.isSymbol p = true := by simp [TimingTable.isSymbol, hdata]
    have hstore := h.storeCode hp hroom hsymbol
    exact ⟨hstore.buf, hstore.cursor, hstore.tx, hstore.task, hstore.table⟩
  | finishes inputs hp hroom hpass =>
    have hsymbol : s.table.isSymbol s.table.resetCode = true := by simp [TimingTable.isSymbol]
    have hstore := h.storeCode hp hroom hsymbol
    exact ⟨hstore.buf, hstore.cursor, hstore.tx, hstore.task, hstore.table⟩
  | encodingOverflows inputs ps hp => exact (h.takeOff inputs ps).takeOverflow (by simp [hp])
  | submits inputs hp hat => exact (h.takeOff inputs _).submitFrame hp hat.filled ⟨_, rfl, hat.codes_data⟩
  | registers w inputs _ hx hmode => exact (h.takeOff inputs []).suspend_registerWaker hx hmode w
  | polls inputs => exact h.of_unread _ _ _ _ _ _ _ _
  | ends inputs hp => exact (h.takeOff inputs s.pending).endAttempt (by simp [hp]) _
  | reports r inputs _ hx => exact (h.takeOff inputs s.pending).reportDone hx r
  | @plays x n wire line inputs _ hx _ hn =>
    have hplay := h.setTx (y := { x with sent := n }) hx rfl rfl hn id
    exact hplay.of_unread _ _ _ _ _ _ _ _

/-- What is left to run, phase by phase. -/
theorem Move.pendingInv {s t : State} (h : CoreInv s) (hpending : PendingInv s) (hm : Move s t) : PendingInv t := by
  cases hm with
  | stays inputs hn => exact hpending
  | constructs inputs => exact .of_idle rfl (.inl rfl)
  | constructFails k n inputs hp => exact .of_unconstructed hp (.inl rfl)
  | newGoesOn ret inputs ps hp hps => exact .of_unconstructed hp hps
  | writeByParts inputs hp hc hw => exact .of_idle hp (.inr ⟨_, _, hc, hw, rfl⟩)
  | passes inputs hp hfit hw =>
    exact .of_atSubmit rfl ⟨dataCodes_isData _ _ _, hw, passDone_filled _ _, rfl, rfl⟩
  | passByParts inputs hp hc hw =>
    refine .of_inPass (codes := []) rfl ⟨rfl, colorParts_passStep s.table hc, hw, rfl, ?_⟩
    simp [passParts, filterMap_pushedCode_colorParts, frameOf]
  | attemptOverflows => exact .of_idle rfl (.inl rfl)
  | writesBlocking inputs hp =>
    exact .of_transmitting rfl (.inl ⟨rfl, h.task_running (by simp [hp]), rfl⟩)
  | writesSuspending => exact .of_transmitting rfl (.inr (.inl ⟨rfl, rfl, rfl⟩))
  | encodes stream ret inputs ps hp _ hpass =>
    exact .of_inPass hp ⟨hpass.codes_data, hpass.steps_pass, hpass.wait_parts, hpass.filled, hpass.pending⟩
  | pushes inputs hp hroom hpass => exact .of_inPass hp (hpass.pushed inputs)
  | finishes inputs hp hroom hpass =>
    exact .of_atSubmit hp ⟨hpass.codes_data, hpass.wait_parts, storeCode_filled _ hpass.filled, rfl, rfl⟩
  | encodingOverflows => exact .of_idle rfl (.inl rfl)
  | submits inputs hp hat =>
    have htask := h.task_running (by simp [hp])
    refine .of_transmitting rfl ?_
    obtain ⟨hmode, rfl⟩ | ⟨hmode, w, rfl⟩ := hat.wait_parts
    · exact .inl ⟨hmode, htask, rfl⟩
    · exact .inr (.inr ⟨hmode, htask, _, w, rfl, rfl⟩)
  | registers w inputs hp hx hmode => exact .of_transmitting hp (.inr (.inl ⟨hmode, rfl, rfl⟩))
  | polls inputs hp hx hn =>
    refine .of_transmitting hp ?_
    obtain ⟨hmode, htask, -⟩ | ⟨hmode, htask, -⟩ | ⟨-, -, x', w, -, h⟩ := (pendingInv_transmitting hp).1 hpending
    · exact .inl ⟨hmode, htask, hn⟩
    · exact .inr (.inl ⟨hmode, htask, hn⟩)
    · simp [hn] at h
  | ends => exact .of_idle rfl (.inl rfl)
  | reports r inputs hp hx =>
    refine .of_transmitting hp ?_
    obtain h | h | ⟨hmode, htask, x', w, hx', h⟩ := (pendingInv_transmitting hp).1 hpending
    · exact .inl h
    · exact .inr (.inl h)
    · obtain rfl := Option.some.inj (hx.symm.trans hx')
      exact .inr (.inr ⟨hmode, htask, _, w, rfl, h⟩)
  | plays n wire line inputs hp hx =>
    refine .of_transmitting hp ?_
    obtain h | h | ⟨hmode, htask, x', w, hx', h⟩ := (pendingInv_transmitting hp).1 hpending
    · exact .inl h
    · exact .inr (.inl h)
    · obtain rfl := Option.some.inj (hx.symm.trans hx')
      exact .inr (.inr ⟨hmode, htask, _, w, rfl, h⟩)

/-- Settles O48: every transition keeps the elements' invariant and leaves the rest of the call to run. -/
theorem stepKeepsTheInvariant : Obligations.StepKeepsTheInvariant := by
  unfold Obligations.StepKeepsTheInvariant
  intro s t h hstep
  obtain ⟨hcore, hpending⟩ := inv_iff.1 h
  have hm := Move.of_step h hstep
  exact inv_iff.2 ⟨hm.coreInv hcore, hm.pendingInv hcore hpending⟩

/-! ### The power-on state -/

/-- Settles O46. -/
theorem resetIsUnconstructed : Obligations.ResetIsUnconstructed := by
  unfold Obligations.ResetIsUnconstructed
  exact ⟨rfl, rfl, rfl, rfl, rfl, fun _ => rfl, rfl, rfl, rfl⟩

/-- Settles O47: nothing is written, in flight or left to run. -/
theorem resetSatisfiesTheInvariant : Obligations.ResetSatisfiesTheInvariant := by
  unfold Obligations.ResetSatisfiesTheInvariant
  have hcore : CoreInv State.reset :=
    ⟨⟨rfl, fun i p hr => by cases hr⟩, ⟨Nat.zero_le _, rfl⟩, .of_none rfl nofun, .of_running rfl,
      ⟨by decide, fun hp => absurd rfl hp⟩⟩
  exact ⟨inv_iff.2 ⟨hcore, (pendingInv_unconstructed rfl).2 (.inl rfl)⟩, fun hp => absurd rfl hp⟩

/-! ### Transitions of PHASE, the report and the capacity -/

/-- Settles O49: NEW checks the limit, and no other step writes the registers or leaves Unconstructed. -/
theorem capacityStaysWithinTheLimit : Obligations.CapacityStaysWithinTheLimit := by
  unfold Obligations.CapacityStaysWithinTheLimit
  intro s t h hlimit hstep hp
  cases Move.of_step h hstep with
  | constructs inputs _ _ _ hl => exact hl
  | stays => exact hlimit hp
  | constructFails => exact hlimit hp
  | newGoesOn => exact hlimit hp
  | _ =>
    refine hlimit ?_
    simp_all

/-- A transition of PHASE leaves its entry in the history (R74). -/
theorem Move.phase_history {s t : State} (hm : Move s t) :
    phaseStep s.phase t.phase = true ∧
    (s.phase = .unconstructed → t.phase = .idle → t.history = s.history ++ [.constructed t.cfg t.table]) ∧
    (s.phase ≠ .transmitting → t.phase = .transmitting →
      ∃ x, t.tx = some x ∧ t.history = s.history ++ [.submit x.handle x.frame]) ∧
    (s.phase = .encoding → t.phase = .idle → t.history = s.history ++ [.returned (.failed .bufferOverflow)]) := by
  cases hm with
  | stays => cases hp : s.phase <;> simp [phaseStep]
  | constructs inputs hp => simp [phaseStep, hp]
  | constructFails k n inputs hp => simp [phaseStep, hp]
  | newGoesOn ret inputs ps hp => simp [phaseStep, hp]
  | writeByParts inputs hp => simp [phaseStep, hp]
  | passes inputs hp => simp [phaseStep, hp]
  | passByParts inputs hp => simp [phaseStep, hp]
  | attemptOverflows colors mode inputs ps hp => simp [phaseStep, hp]
  | writesBlocking inputs hp => simp [phaseStep, hp, newTx]
  | writesSuspending w inputs hp => simp [phaseStep, hp, newTx, State.nextHandle]
  | encodes stream ret inputs ps hp => simp [phaseStep, hp]
  | pushes inputs hp => simp [phaseStep, hp]
  | finishes inputs hp => simp [phaseStep, hp]
  | encodingOverflows inputs ps hp => simp [phaseStep, hp]
  | submits inputs hp => simp [phaseStep, hp, newTx]
  | registers w inputs hp => simp [phaseStep, hp]
  | polls inputs hp => simp [phaseStep, hp]
  | ends inputs hp => simp [phaseStep, hp]
  | reports r inputs hp => simp [phaseStep, hp]
  | plays n wire line inputs hp => simp [phaseStep, hp]

/-- A step into Encoding has nothing filled or the whole frame of its colours (R16). -/
theorem Move.filled_of_enter {s t : State} (hm : Move s t) (hp : s.phase = .idle) (ht : t.phase = .encoding) :
    t.filled = some [] ∨
      ∃ colors, t.ret = .frame (frameOf s.cfg s.table colors) ∧ t.filled = some (frameOf s.cfg s.table colors) := by
  cases hm with
  | passes => exact .inr ⟨_, rfl, passDone_filled _ _⟩
  | passByParts => exact .inl rfl
  | _ => simp_all

/-- In Encoding the filled entries only grow (R16). -/
theorem Move.filled_of_encoding {s t : State} (h : CoreInv s) (hm : Move s t) (hp : s.phase = .encoding) (ht : t.phase ≠ .idle) :
    ∃ old new, s.filled = some old ∧ t.filled = some (old ++ new) := by
  obtain ⟨pre, hpre⟩ := h.filled
  have hsame {u : State} (hu : u.filled = s.filled) : ∃ old new, s.filled = some old ∧ u.filled = some (old ++ new) :=
    ⟨pre, [], hpre, by rw [hu, hpre, List.append_nil]⟩
  cases hm with
  | stays => exact hsame rfl
  | encodes => exact hsame rfl
  | submits => exact hsame rfl
  | pushes => exact ⟨pre, _, hpre, storeCode_filled (s := { s with inputs := _, pending := _ }) _ hpre⟩
  | finishes => exact ⟨pre, _, hpre, storeCode_filled (s := { s with inputs := _, pending := _ }) _ hpre⟩
  | _ => simp_all

/-- Settles O51. -/
theorem stepFollowsThePhaseDiagram : Obligations.StepFollowsThePhaseDiagram := by
  unfold Obligations.StepFollowsThePhaseDiagram
  intro s t h hstep
  have hm := Move.of_step h hstep
  obtain ⟨hphase, hconstructed, hsubmit, hoverflow⟩ := hm.phase_history
  exact ⟨hphase, hconstructed, hsubmit, hoverflow, hm.filled_of_enter, hm.filled_of_encoding (inv_iff.1 h).1⟩

/-- Settles O56: of the transitions from Transmitting only the end of the wait leaves it. -/
theorem transmissionEndsOnlyWhenReported : Obligations.TransmissionEndsOnlyWhenReported := by
  unfold Obligations.TransmissionEndsOnlyWhenReported
  intro s t h hstep hp ht
  cases Move.of_step h hstep with
  | ends inputs _ hx hst =>
    refine ⟨_, _, hx, hst, rfl, rfl, rfl, ?_, _, rfl, rfl⟩
    cases ‹Report› <;> rfl
  | _ => simp_all

/-- Settles O57: the peripheral plays and reports only while Pending, and the registration keeps the status. -/
theorem reportedStatusIsLatched : Obligations.ReportedStatusIsLatched := by
  unfold Obligations.ReportedStatusIsLatched
  intro s t x r h hstep hx hst
  have hp := (inv_iff.1 h).1.transmitting hx
  cases Move.of_step h hstep with
  | stays => exact .inr ⟨x, hx, hst, rfl, rfl⟩
  | polls => exact .inr ⟨x, hx, hst, rfl, rfl⟩
  | registers w inputs _ hx' =>
    obtain rfl := Option.some.inj (hx.symm.trans hx')
    exact .inr ⟨_, rfl, hst, rfl, rfl⟩
  | ends => exact .inl rfl
  | _ => simp_all

end Sys2Proof.Machine
end

section
/-! PROOFS. Under the invariant no step faults and no part of a call is refused; and an attempt whose wait is served ends (R35, R53, R82,
R83, R113). -/

namespace Sys2Proof.Machine

/-! ### No fault -/

/-- An operation that may start an attempt always answers. -/
theorem exec_attempt_next {colors : List Color} {s : State} {w : Waker} {i : Instr}
    (hi : i = .encodePass colors ∨ i = .writeBlocking colors ∨ i = .writeSuspending colors w) (hp : s.phase = .idle)
    (hc : colors.all s.cfg.fits = true) : ∃ t, exec i s = .next t := by
  by_cases hfit : Fits colors s.cfg
  · obtain rfl | rfl | rfl := hi
    · exact ⟨_, exec_encodePass_fit hp hc hfit⟩
    · exact ⟨_, exec_writeBlocking_fit hp hc hfit⟩
    · exact ⟨_, exec_writeSuspending_fit hp hc w hfit⟩
  · obtain rfl | rfl | rfl := hi
    · exact ⟨_, exec_encodePass_overflow hp hc hfit⟩
    · exact ⟨_, exec_writeBlocking_overflow hp hc hfit⟩
    · exact ⟨_, exec_writeSuspending_overflow hp hc w hfit⟩

/-- An attempt as one step does not fault: the pass has stored every entry that it reads. -/
theorem exec_attempt_ne_fault {colors : List Color} {w : Waker} {i : Instr}
    (hi : i = .encodePass colors ∨ i = .writeBlocking colors ∨ i = .writeSuspending colors w) (s : State) (f : Fault) :
    exec i s ≠ .fault f := by
  cases hr : startRefusal colors s with
  | some r =>
    rw [exec_attempt_refused hr hi]
    nofun
  | none =>
    obtain ⟨hp, hc⟩ := startRefusal_none.1 hr
    obtain ⟨t, ht⟩ := exec_attempt_next hi hp hc
    rw [ht]
    nofun

/-- A symbol does not fault. -/
theorem exec_symbol_ne_fault {i : Instr} {p : PulseCode} (hi : symbolPulse i = some p) (s : State) (f : Fault) : exec i s ≠ .fault f := by
  rw [exec_symbol s hi, playSymbol, playPulse]
  repeat' split
  all_goals nofun

/-- Only FINISH faults, and only when a filled entry is unwritten (R35). -/
theorem filled_eq_none_of_exec_fault {i : Instr} {s : State} {f : Fault} (h : exec i s = .fault f) : s.filled = none := by
  cases i with
  | finish =>
    by_cases hp : s.phase = .encoding
    · cases hpre : s.filled with
      | none => rfl
      | some pre =>
        obtain hroom | hfull := lt_or_ge s.cursor s.cfg.capacity
        · cases (exec_finish_of_room hp hroom hpre).symm.trans h
        · cases (exec_finish_full hp hfull).symm.trans h
    · cases (if_pos hp : exec .finish s = .refused .notEncoding).symm.trans h
  | encodePass colors => exact absurd h (exec_attempt_ne_fault (w := ⟨0⟩) (.inl rfl) s f)
  | writeBlocking colors => exact absurd h (exec_attempt_ne_fault (w := ⟨0⟩) (.inr (.inl rfl)) s f)
  | writeSuspending colors w => exact absurd h (exec_attempt_ne_fault (.inr (.inr rfl)) s f)
  | code0 => exact absurd h (exec_symbol_ne_fault rfl s f)
  | code1 => exact absurd h (exec_symbol_ne_fault rfl s f)
  | resetCode => exact absurd h (exec_symbol_ne_fault rfl s f)
  | _ =>
    simp only [exec, execNew, execComputeTimings, execEncodeBit, execEncodeByte, execEncodeColor, execBegin, execPush, execSubmit,
      execPollComplete, execOnComplete, execPeriphDone, execResume] at h
    repeat' split at h
    all_goals cases h

/-- A fetch leaves BUF and CURSOR as they are. -/
theorem fetch_filled {s s' : State} {i : Instr} (h : fetch s = .ok (some i, s')) : s'.filled = s.filled := by
  obtain ⟨he, -⟩ | ⟨j, ps, inputs, -, rfl, -⟩ | ⟨j, ps, inputs, -, hs⟩ := fetch_ok h
  · cases he
  · rfl
  · obtain ⟨-, rfl⟩ | ⟨colors, -, -, -, -, rfl⟩ | ⟨he, -⟩ := split_ok hs
    · rfl
    · rfl
    · cases he

theorem filled_eq_none_of_step_fault {s : State} {f : Fault} (h : step s = .fault f) : s.filled = none := by
  unfold step at h
  split at h
  · cases h
  · cases h
  · rename_i i s' hf
    rw [← fetch_filled hf]
    refine filled_eq_none_of_exec_fault (i := i) (f := f) ?_
    unfold runInstr at h
    split at h
    · cases h
    · rename_i he
      rw [he, Host.Outcome.fault.inj h]
    · cases h

/-! ### No part of a call is refused -/

section
variable {s : State} {i : Instr} {ps : List Instr} (inputs : List Input)

/-- A step of a pass answers: a PUSH appends or raises, and the encoders' colours are of the adapter's width. -/
theorem exec_passStep_next {t : State} (hp : t.phase = .encoding) (hi : passStep t.cfg t.table i = true) : ∃ u, exec i t = .next u := by
  have hadapter : t.phase ≠ .unconstructed := by simp [hp]
  obtain ⟨p, rfl, -⟩ | ⟨c, rfl, hc⟩ | ⟨b, rfl⟩ | ⟨b, rfl⟩ := passStep_cases hi
  · obtain hroom | hfull := lt_or_ge t.cursor t.cfg.capacity
    · exact ⟨_, exec_push_of_room hp hroom⟩
    · exact ⟨_, exec_push_full hp hfull⟩
  · exact ⟨_, exec_encodeColor hadapter hc⟩
  · exact ⟨_, exec_encodeByte b hadapter⟩
  · exact ⟨_, exec_encodeBit b hadapter⟩

/-- The next part of a call, run as one step. -/
theorem Part.exec_next (h : CoreInv s) (hpart : Part s i ps) : ∃ u, exec i { s with inputs := inputs, pending := ps } = .next u := by
  cases hpart with
  | new hp ho => exact ⟨_, exec_new (s := { s with inputs := inputs, pending := _ }) hp ho⟩
  | timings hp ho => exact ⟨_, exec_computeTimings (newInProgress_iff.2 ⟨_, _, _, _, _, _, rfl⟩) rfl⟩
  | pass hp hc => exact exec_attempt_next (s := { s with inputs := inputs, pending := _ }) (w := ⟨0⟩) (.inl rfl) hp hc
  | step hp hpass => exact exec_passStep_next (t := { s with inputs := inputs, pending := _ }) hp hpass.head_step
  | finish hp hpass =>
    obtain hroom | hfull := lt_or_ge s.cursor s.cfg.capacity
    · exact ⟨_, exec_finish_of_room (s := { s with inputs := inputs, pending := _ }) hp hroom hpass.filled⟩
    · exact ⟨_, exec_finish_full (s := { s with inputs := inputs, pending := _ }) hp hfull⟩
  | submit hp hat =>
    exact ⟨_, exec_submit (s := { s with inputs := inputs, pending := _ }) hp (legal_of_isFrame h.table.1 hat.codes_data) hat.ret⟩
  | register hp hx => exact ⟨_, exec_onComplete (s := { s with inputs := inputs, pending := _ }) hx _ rfl⟩

/-- The next part of a call, taken apart. -/
theorem Part.split_ok (hpart : Part s i ps) : ∃ o t, split i { s with inputs := inputs, pending := ps } = .ok (o, t) := by
  cases hpart with
  | new hp ho =>
    have hnone := newRefusal_none (s := { s with inputs := inputs, pending := [] }).2 ⟨hp, ho⟩
    simp only [split, hnone]
    exact ⟨_, _, rfl⟩
  | @pass colors wait hp hc =>
    have hnone := startRefusal_none (s := { s with
      inputs := inputs, pending := .submit (frameOf s.cfg s.table colors) :: wait }).2 ⟨hp, hc⟩
    simp only [split, hnone]
    exact ⟨_, _, rfl⟩
  | step hp hpass =>
    obtain ⟨p, rfl, -⟩ | ⟨c, rfl, -⟩ | ⟨b, rfl⟩ | ⟨b, rfl⟩ := passStep_cases hpass.head_step
    · exact ⟨_, _, rfl⟩
    · exact ⟨_, _, rfl⟩
    · exact ⟨_, _, rfl⟩
    · exact ⟨_, _, rfl⟩
  | timings => exact ⟨_, _, rfl⟩
  | finish => exact ⟨_, _, rfl⟩
  | submit => exact ⟨_, _, rfl⟩
  | register => exact ⟨_, _, rfl⟩

end

/-- The schedule takes the next part apart. -/
theorem fetch_split_pending {s : State} {i : Instr} {ps : List Instr} {rest : List Input} (hn : s.pending = i :: ps)
    (hi : s.inputs = .split :: rest) : fetch s = split i { s with pending := ps, inputs := rest } := by
  have hturn : s.peripheralTurn = false := by simp [State.peripheralTurn, hi]
  simp only [fetch, hn, hturn, Bool.false_eq_true, if_false, fetchPending, hi]

/-- The operation in progress goes on, whole or taken apart. -/
theorem exists_step_of_part {s : State} {i : Instr} {ps : List Instr} (h : CoreInv s) (hpart : Part s i ps) (hn : s.pending = i :: ps)
    (hturn : s.peripheralTurn = false) : ∃ t, step s = .next t := by
  by_cases hsplit : s.inputs.head? = some .split
  · obtain ⟨rest, hi⟩ := List.head?_eq_some_iff.1 hsplit
    obtain ⟨u, hu⟩ := hpart.exec_next rest h
    obtain ⟨o, t, ht⟩ := hpart.split_ok rest
    have hfetch := (fetch_split_pending hn hi).trans ht
    obtain ⟨rfl, rfl⟩ | ⟨colors, -, -, -, rfl, rfl⟩ | ⟨rfl, -⟩ := split_ok ht
    · exact ⟨_, (step_of_fetch hfetch).trans (runInstr_of_exec hu)⟩
    · exact ⟨_, (step_of_fetch hfetch).trans (runInstr_of_exec (exec_beginBuf rfl))⟩
    · exact ⟨_, step_of_fetch_none hfetch⟩
  · obtain ⟨u, hu⟩ := hpart.exec_next s.inputs h
    exact ⟨_, (step_pending hn hsplit hturn).trans (runInstr_of_exec hu)⟩

/-- Settles O50: no filled entry is unwritten, and every part of a call answers whole or taken apart. -/
theorem invariantExcludesTheFault : Obligations.InvariantExcludesTheFault := by
  unfold Obligations.InvariantExcludesTheFault
  constructor
  · intro s f h hstep
    obtain ⟨pre, hpre⟩ := (inv_iff.1 h).1.filled
    rw [filled_eq_none_of_step_fault hstep] at hpre
    cases hpre
  · intro s h hne hturn
    obtain ⟨hcore, hpending⟩ := inv_iff.1 h
    obtain ⟨i, ps, hn⟩ := List.exists_cons_of_ne_nil hne
    exact exists_step_of_part hcore (.of_pending hpending hn) hn hturn

/-! ### The end of an attempt -/

/-- An instruction in Transmitting stays there, or ends the attempt. -/
theorem Answers.phase_of_transmitting {s t : State} {i : Instr} (hp : s.phase = .transmitting) (h : Answers s i t) :
    t.phase = .transmitting ∨ t.phase = .idle := by
  cases h with
  | resumed => exact .inr rfl
  | timings => exact .inl hp
  | bit => exact .inl hp
  | byte => exact .inl hp
  | color => exact .inl hp
  | polled => exact .inl hp
  | registered => exact .inl hp
  | reported => exact .inl hp
  | played => exact .inl hp
  | _ => simp_all

/-- A step from Transmitting stays there or leads to Idle, whatever the rest of the state is (R74). -/
theorem phase_of_step_transmitting {s t : State} (hp : s.phase = .transmitting) (h : step s = .next t) :
    t.phase = .transmitting ∨ t.phase = .idle := by
  obtain ⟨i, ps, inputs, u, -, hans, rfl⟩ | ⟨mode, stream, ps, inputs, rfl⟩ | ⟨colors, ps, inputs, hidle, rfl⟩ := step_cases h
  · have hu := Answers.phase_of_transmitting (s := { s with inputs := inputs, pending := ps }) hp hans
    obtain he | ⟨c, -, he⟩ | ⟨hd, w, -, he⟩ | ⟨hd, r, -, -, -, he⟩ := afterInstr_cases i u <;> rw [he]
    · exact hu
    · exact hu
    · exact hu
    · exact .inr rfl
  · exact .inl hp
  · cases hp.symm.trans hidle

section
variable {r : Nat → State} {n m : Nat} (hrun : IsRun r) (hnm : n ≤ m)
include hrun hnm

/-- A run that leaves Transmitting passes through Idle. -/
theorem IsRun.idle_of_left (hp : (r n).phase = .transmitting) (hm : (r m).phase ≠ .transmitting) : ∃ k, n ≤ k ∧ (r k).phase = .idle := by
  induction m, hnm using Nat.le_induction with
  | base => exact absurd hp hm
  | succ m hnm ih =>
    by_cases hpm : (r m).phase = .transmitting
    · exact ⟨m + 1, Nat.le_succ_of_le hnm, (phase_of_step_transmitting hpm (hrun m)).resolve_left hm⟩
    · exact ih hpm

/-- A run ends its attempt in the step after `m` when that step, if PHASE is still Transmitting, ends an attempt. -/
theorem IsRun.idle_of_ends (hp : (r n).phase = .transmitting)
    (hend : (r m).phase = .transmitting → ∃ result u, step (r m) = .next (endAttempt result u)) : ∃ k, n ≤ k ∧ (r k).phase = .idle := by
  by_cases hpm : (r m).phase = .transmitting
  · obtain ⟨result, u, hu⟩ := hend hpm
    have hr : r (m + 1) = endAttempt result u := Host.Outcome.next.inj ((hrun m).symm.trans hu)
    exact ⟨m + 1, Nat.le_succ_of_le hnm, by rw [hr]; rfl⟩
  · exact hrun.idle_of_left hnm hp hpm

theorem IsRun.inv (h : Inv (r n)) : Inv (r m) := by
  induction m, hnm using Nat.le_induction with
  | base => exact h
  | succ m _ ih => exact stepKeepsTheInvariant (r m) (r (m + 1)) ih (hrun m)

end

/-- The scheduler's RESUME ends a suspended attempt that is reported. -/
theorem step_resume_reported {s : State} {x : Tx} {rep : Report} {rest : List Input} (hx : s.tx = some x)
    (hst : x.status = .reported rep) (hw : x.wakerBit = true) (ht : s.task = .suspended) (hn : s.pending = [])
    (hi : s.inputs = .resume :: rest) : step s = .next (endAttempt rep.result { s with inputs := rest }) :=
  (step_of_fetch ((fetch_nil hn).trans (fetchInput_resume hi))).trans
    (runInstr_of_exec (exec_resume (s := { s with inputs := rest }) hx hst hw ht))

/-- Settles O59: the poll that answers the report ends the attempt. -/
theorem blockingAttemptEnds : Obligations.BlockingAttemptEnds := by
  unfold Obligations.BlockingAttemptEnds
  rintro r n hrun hp ⟨m, hnm, hleft | ⟨x, rep, rest, hx, hst, hw, hn, hi⟩⟩
  · exact hrun.idle_of_left hnm hp hleft
  · exact hrun.idle_of_ends hnm hp fun hpm => ⟨_, _, step_poll_reported hx hw hn hi hpm hst⟩

/-- Settles O60: with nothing of the call left to run its task is suspended and the waker registered, so RESUME is enabled. -/
theorem suspendingAttemptEnds : Obligations.SuspendingAttemptEnds := by
  unfold Obligations.SuspendingAttemptEnds
  rintro r n hrun hinv hp ⟨m, hnm, hleft | ⟨x, rep, rest, hx, hst, hw, hn, hi⟩⟩
  · exact hrun.idle_of_left hnm hp hleft
  · refine hrun.idle_of_ends hnm hp fun hpm => ?_
    obtain ⟨hcore, hpending⟩ := inv_iff.1 (hrun.inv hnm hinv)
    have htask : (r m).task = .suspended := by
      obtain ⟨hmode, -⟩ | ⟨-, htask, -⟩ | ⟨-, -, y, w, -, hpart⟩ := (pendingInv_transmitting hpm).1 hpending
      · cases hmode.symm.trans hw
      · exact htask
      · cases hn.symm.trans hpart
    obtain ⟨-, y, hy, hbit⟩ := hcore.task htask
    obtain rfl : x = y := Option.some.inj (hx.symm.trans hy)
    exact ⟨_, _, step_resume_reported hx hst hbit htask hn hi⟩

end Sys2Proof.Machine
end
